-- ==== Sys2Proof/Word.lean ====
section
/-! DEFINITION. The 32-bit word of the command ports (30_encoding.md R100) and the number domain
(00_scope.md R6: exact rationals). -/

namespace Sys2Proof

/-- A command word or an extension word: 32 bits, bit 0 the least significant (R11, R100). -/
abbrev Word := BitVec 32

/-- The number domain Q of exact rationals (R6). -/
abbrev Q := Rat

end Sys2Proof
end

