-- ==== Sys2Proof/Syntax.lean ====
section
/-! DEFINITION. The commands of the NSC command set, version 1 (30_encoding.md R109), and the named
operands they carry. -/

namespace Sys2Proof

/-- A MIDI note number, 0..127 (00_scope.md R9 (b)). -/
abbrev Note := Fin 128

/-- A velocity, 0..127 (R9 (b)). -/
abbrev Velocity := Fin 128

/-- The waveform shapers (10_state.md R22, 30_encoding.md R106): a closed set. -/
inductive Shape where
  | tri
  | sine
  | pulse
  | cyc
  deriving DecidableEq, Repr, Inhabited

/-- The sixteen parameter registers by name (10_state.md R41 to R56), in index order 0..15. -/
inductive ParIdx where
  | mode
  | att
  | dec
  | sus
  | rel
  | pw1
  | pw2
  | pitch
  | arpon
  | arprate
  | div
  | bits
  | lfoamt
  | lforate
  | lfowave
  | fbpm
  deriving DecidableEq, Repr, Inhabited

/-- The thirty commands, one constructor per row of the opcode table, in its order.

`v` is the field `V`, `o`, `e` and `c` the field `S` read as an oscillator, an envelope or a channel;
both stay four bits wide because a value that names nothing is still a command (an invalid one,
R112). Extension words whose format is U32, I32, R or S stay words: `Machine/Operands.lean` reads
them (R104). -/
inductive Instr where
  /-- `NOP` (R300) -/
  | nop
  /-- `RESET` (R301) -/
  | reset
  /-- `OUTCLR` (R313) -/
  | outclr
  /-- `OUTRD c, index` (R314) -/
  | outrd (c : BitVec 4) (index : BitVec 16)
  /-- `PRD k` (R306) -/
  | prd (k : ParIdx)
  /-- `TCLR mask` (R312); bit 0 position, bit 1 tempo, bit 2 play flag -/
  | tclr (mask : BitVec 3)
  /-- `TPLAY play` (R311) -/
  | tplay (play : Bool)
  /-- `OSETSH v.o, code` (R144) -/
  | osetsh (v o : BitVec 4) (code : BitVec 3)
  /-- `OPROC v.o` (R147) -/
  | oproc (v o : BitVec 4)
  /-- `EON v.e` (R172) -/
  | eon (v e : BitVec 4)
  /-- `EOFF v.e` (R173) -/
  | eoff (v e : BitVec 4)
  /-- `ETICK v.e` (R174) -/
  | etick (v e : BitVec 4)
  /-- `EACT v.e` (R180) -/
  | eact (v e : BitVec 4)
  /-- `VSTART v, note, vel` (R221) -/
  | vstart (v : BitVec 4) (note : Note) (vel : Velocity)
  /-- `VSTOP v, tail` (R226) -/
  | vstop (v : BitVec 4) (tail : Bool)
  /-- `ABLOCK n` (R260) -/
  | ablock (n : BitVec 16)
  /-- `EVPOP` (R275) -/
  | evpop
  /-- `PREPARE rate` (R302), U32 -/
  | prepare (rate : Word)
  /-- `PWR k, payload` (R305), in the format of the register -/
  | pwr (k : ParIdx) (payload : Word)
  /-- `TPOS x` (R309), R -/
  | tpos (x : Word)
  /-- `TBPM x` (R310), R -/
  | tbpm (x : Word)
  /-- `OSETF v.o, f` (R142), R -/
  | osetf (v o : BitVec 4) (f : Word)
  /-- `OSETP v.o, p` (R143), S -/
  | osetp (v o : BitVec 4) (p : Word)
  /-- `OSETDW v.o, d` (R145), S -/
  | osetdw (v o : BitVec 4) (d : Word)
  /-- `OSETCY v.o, j, x` (R146), S -/
  | osetcy (v o : BitVec 4) (j : BitVec 3) (x : Word)
  /-- `ESET v.e, j, x` (R171), R -/
  | eset (v e : BitVec 4) (j : BitVec 2) (x : Word)
  /-- `VREND v, start, count` (R240), P16 -/
  | vrend (v : BitVec 4) (start count : BitVec 16)
  /-- `DHOLD v, index, s` (R207), S -/
  | dhold (v : BitVec 4) (index : BitVec 16) (s : Word)
  /-- `EVPUSH on, note, vel, off` (R274), U32 -/
  | evpush (on : Bool) (note : Note) (vel : Velocity) (off : Word)
  /-- `CRUSH s, m` (R203), two S words -/
  | crush (s m : Word)
  deriving DecidableEq, Repr

end Sys2Proof
end

