-- ==== Sys2Proof/Config.lean ====
section
/-! DEFINITION. What an implementation of NSC fixes (00_scope.md R5) and the free values.

The parameters that are plain data are gathered in `Cfg`; State carries one `Cfg`, which no step
writes, so a statement about every state holds for every instance (log 1). The parameters that are
functions, and every free value, are opaque constants with no body: nothing can be proved of their
values beyond the properties `Machine/Numbers.lean` builds in. -/

namespace Sys2Proof

/-- The four envelope parameters, in the source's order (42_envelope.md R171). -/
structure Adsr where
  attackTime : Q
  decayTime : Q
  sustainLevel : Q
  releaseTime : Q
  deriving DecidableEq, Repr, Inhabited

/-- Adsr parameters brought into the legal set of an envelope's registers (10_state.md R25): times
at least 0, the level in [0,1]. A legal tuple is left as it is. -/
def Adsr.legal (a : Adsr) : Adsr where
  attackTime := max a.attackTime 0
  decayTime := max a.decayTime 0
  sustainLevel := min (max a.sustainLevel 0) 1
  releaseTime := max a.releaseTime 0

/-- The implementation parameters that are data (R5). `NV` and `NCH` are not among them: they are
the lengths of State's voice and channel lists (log 25). -/
structure Cfg where
  /-- `BLKMAX`: length of the output buffer in samples -/
  blkmax : Nat
  /-- `EVQ_DEPTH`: capacity of each event queue -/
  evqDepth : Nat
  /-- `TUNE_A4`: frequency of note 69 -/
  tuneA4 : Q
  /-- `TONAL_LOW_SHAPE` -/
  tonalLowShape : Shape
  /-- `NOTE_START_PHASE`: none, or a phase -/
  noteStartPhase : Option Q
  /-- `ARPVEL`: velocity of emitted note-ons -/
  arpVel : Velocity
  /-- `PERC_NOTE_A` -/
  percNoteA : Note
  /-- `PERC_NOTE_B` -/
  percNoteB : Note
  /-- `PERC_NOTE_GEN` -/
  percNoteGen : Note
  /-- `PERC_ENV_A` -/
  percEnvA : Adsr
  /-- `PERC_ENV_B` -/
  percEnvB : Adsr
  /-- the initial state that `PERC_FILT_A` names -/
  filtAInit : List Q
  /-- the initial state that `PERC_FILT_B` names -/
  filtBInit : List Q
  /-- `CRUSH_NOISE` -/
  crushNoise : Bool
  deriving DecidableEq, Repr

/-- Three pairwise distinct note numbers (R5: "0..127, pairwise distinct"). The field defaults only
show that the type has a member. -/
structure PercNotes where
  a : Note := 0
  b : Note := 1
  gen : Note := 2
  a_ne_b : a ≠ b := by decide
  a_ne_gen : a ≠ gen := by decide
  b_ne_gen : b ≠ gen := by decide
  deriving Inhabited

/-- `PERC_NOTE_A`, `PERC_NOTE_B`, `PERC_NOTE_GEN`: OPEN, no default (R5, U6; log 8). -/
opaque Config.percNotes : PercNotes

/-- `PERC_ENV_A` before it is brought into the legal set (R5, U6; log 8). -/
opaque Config.percEnvA : Adsr

/-- `PERC_ENV_B` before it is brought into the legal set (R5, U6; log 8). -/
opaque Config.percEnvB : Adsr

/-- The initial state of filter A (R58; log 7). -/
opaque Config.filtAInit : List Q

/-- The initial state of filter B (R58; log 7). -/
opaque Config.filtBInit : List Q

/-- `PERC_FILT_A`: filter state and input to filter state and output (44_voice.md R236; log 7). -/
opaque Config.percFiltA : List Q → Q → List Q × Q

/-- `PERC_FILT_B` (R236; log 7). -/
opaque Config.percFiltB : List Q → Q → List Q × Q

/-- `NOISE`: the n-th draw (R7: "a draw: each use yields a value of Q under no law"; log 6). -/
opaque Config.noise : Nat → Q

/-- `SIN2PI` off the points R7 fixes (log 4); `Machine/Numbers.lean` pins those points. -/
opaque Config.sin2piFree : Q → Q

/-- `EXP2` off the integers (R7; log 5); `Machine/Numbers.lean` builds in the assumed bounds. -/
opaque Config.exp2Free : Q → Q

/-- The n-th draw for a register the `RESET` command leaves unspecified (10_state.md R58; log 13). -/
opaque Config.resetLatch : Nat → Q

/-- The n-th draw of how many commands are taken from the control port at one point (R10, R77;
log 17). -/
opaque Config.ctlTake : Nat → Nat

/-- The n-th draw of how many points a control write waits before it may become visible (R78, U17;
log 16). -/
opaque Config.ctlDelay : Nat → Nat

/-- The instance State.reset carries: the spec's default parameters (R5), the open ones without a
default taken from the opaque constants (log 1, 7, 8). -/
def Cfg.default : Cfg where
  blkmax := 65535
  evqDepth := 256
  tuneA4 := 440
  tonalLowShape := .tri
  noteStartPhase := some 0
  arpVel := 127
  percNoteA := Config.percNotes.a
  percNoteB := Config.percNotes.b
  percNoteGen := Config.percNotes.gen
  percEnvA := Config.percEnvA.legal
  percEnvB := Config.percEnvB.legal
  filtAInit := Config.filtAInit
  filtBInit := Config.filtBInit
  crushNoise := false

/-- The default `NV` (R5). -/
def Config.defaultNV : Nat := 8

/-- The default `NCH` (R5). -/
def Config.defaultNCH : Nat := 2

end Sys2Proof
end

