-- ==== Sys2Proof/Machine/State.lean ====
section
/-! DEFINITION. The state of NSC (10_state.md), the reasons a step can stop, and the state after
power-on reset (R58). -/

namespace Sys2Proof.Machine

/-- Why the machine stops: never. NSC raises no exception and has no fatal state (60_exceptions.md
R340, R341 (d); log 23), so there is no constructor. -/
inductive Fault where
  deriving DecidableEq, Repr

/-- Why a command has no meaning in the model. -/
inductive Refusal where
  /-- Would be raised by an arm of `exec` that has no meaning yet; no arm is such an arm. Safe. -/
  | notModelled (mnemonic : String)
  deriving DecidableEq, Repr

/-- What a command answers. -/
abbrev StepOutcome (σ : Type) := Host.Outcome σ Fault Refusal

/-! ### Oscillators (R22, R23) -/

/-- The four oscillators of a voice by role (R23), in index order 0..3. -/
inductive OscIdx where
  | tonalLow
  | pulse1
  | pulse2
  | lfo
  deriving DecidableEq, Repr

/-- The registers of one oscillator (R22). -/
structure Oscillator where
  phase : Q
  inc : Q
  freq : Q
  shape : Shape
  duty : Q
  ca : Q
  cd : Q
  ch : Q
  cr : Q
  cs : Q
  deriving DecidableEq, Repr

/-- An oscillator after reset, with the shape R58 lists for its role. -/
def Oscillator.atReset (shape : Shape) : Oscillator where
  phase := 0
  inc := 0
  freq := 0
  shape := shape
  duty := 1 / 2
  ca := 0
  cd := 0
  ch := 0
  cr := 0
  cs := 0

/-! ### Envelopes (R25, R26) -/

/-- The three envelopes of a voice by role (R25), in index order 0..2. -/
inductive EnvIdx where
  | main
  | auxA
  | auxB
  deriving DecidableEq, Repr

/-- The stage of an envelope (R26), in code order 0..4. -/
inductive Stage where
  | idle
  | attack
  | decay
  | sustain
  | release
  deriving DecidableEq, Repr

/-- The registers of one envelope (R25); `at`, `dt`, `sl`, `rt` are `par`. -/
structure Envelope where
  stage : Stage
  level : Q
  start : Q
  cnt : Nat
  par : Adsr
  deriving DecidableEq, Repr

/-- An envelope after reset (R58), with latched parameters `par`, which R58 leaves unspecified. -/
def Envelope.atReset (par : Adsr) : Envelope where
  stage := .idle
  level := 0
  start := 0
  cnt := 0
  par := par

/-! ### Voices (R28) -/

/-- The state of a voice (R28). -/
inductive VoiceState where
  | idle
  | playing
  deriving DecidableEq, Repr

/-- A voice with the units it owns (44_voice.md R220): four oscillators, three envelopes and the
voice registers (10_state.md R28). -/
structure Voice where
  tonalLow : Oscillator
  pulse1 : Oscillator
  pulse2 : Oscillator
  lfo : Oscillator
  envMain : Envelope
  envA : Envelope
  envB : Envelope
  state : VoiceState
  note : Option Note
  vel : Velocity
  hold : Q
  lastenv : Q
  /-- `fa`, the state of filter A (log 7) -/
  fa : List Q
  /-- `fb`, the state of filter B (log 7) -/
  fb : List Q
  deriving DecidableEq, Repr

/-- A voice after reset (R58); the three arguments after the parameters are what its envelopes'
latched registers hold. -/
def Voice.atReset (c : Cfg) (main a b : Adsr) : Voice where
  tonalLow := Oscillator.atReset c.tonalLowShape
  pulse1 := Oscillator.atReset .pulse
  pulse2 := Oscillator.atReset .pulse
  lfo := Oscillator.atReset .sine
  envMain := Envelope.atReset main
  envA := Envelope.atReset a
  envB := Envelope.atReset b
  state := .idle
  note := none
  vel := 0
  hold := 0
  lastenv := 0
  fa := c.filtAInit
  fb := c.filtBInit

/-! ### Events, results, the clock, the transport (R32 to R36) -/

/-- An event record (R36). -/
structure Event where
  off : Nat
  on : Bool
  note : Note
  vel : Velocity
  deriving DecidableEq, Repr

/-- The tagged value of the result register `RES` (R32). -/
inductive Result where
  | none
  | num (q : Q)
  | bool (b : Bool)
  | event (ev : Event)
  deriving DecidableEq, Repr

/-- The arpeggiation clock (R33) with its held-note set (R34). -/
structure Arp where
  pos : Q
  nidx : Nat
  last : Option Note
  playing : Bool
  wasPlaying : Bool
  held : BitVec 128
  deriving DecidableEq, Repr

/-- The clock after reset (R58). -/
def Arp.atReset : Arp where
  pos := 0
  nidx := 0
  last := none
  playing := false
  wasPlaying := false
  held := 0

/-- The transport input registers (R35). -/
structure Transport where
  tpos : Q
  tposv : Bool
  tbpm : Q
  tbpmv : Bool
  tplay : Bool
  tplayv : Bool
  deriving DecidableEq, Repr

/-- The transport registers after power-on: all absent (R58), the values unreadable (log 15). -/
def Transport.atReset : Transport where
  tpos := 0
  tposv := false
  tbpm := 0
  tbpmv := false
  tplay := false
  tplayv := false

/-! ### Parameter registers (R40 to R57) -/

/-- The legal values of `PAR[9] = ARPRATE` (R50): 1, 2, 4, 8 triggers per quarter note. -/
inductive ArpRate where
  | one
  | two
  | four
  | eight
  deriving DecidableEq, Repr

/-- The sixteen parameter registers (R41 to R56). The types hold the legal sets where the sets are
finite and small (log 20). -/
structure Params where
  mode : Fin 3
  att : Q
  dec : Q
  sus : Q
  rel : Q
  pw1 : Fin 3
  pw2 : Fin 3
  pitch : Int
  arpon : Bool
  arprate : ArpRate
  div : Nat
  bits : Nat
  lfoamt : Q
  lforate : Q
  lfowave : Fin 3
  fbpm : Q
  deriving DecidableEq, Repr

/-- The parameter registers at power-on, which R58 leaves at unspecified legal values: the legal
value nearest to zero (DESIGN CHOICE, log 10). -/
def Params.atPowerOn : Params where
  mode := 0
  att := 0
  dec := 0
  sus := 0
  rel := 0
  pw1 := 0
  pw2 := 0
  pitch := 0
  arpon := false
  arprate := .one
  div := 1
  bits := 1
  lfoamt := 0
  lforate := 0
  lfowave := 0
  fbpm := 1

/-- A control write issued and not yet visible: an element of `PEND[k]` (20_memory.md R78). `payload`
is the extension word; `delay` is the model's own: how many points of R77 must still pass before the
write may become visible (log 16, 21). -/
structure Pending where
  k : ParIdx
  payload : Word
  delay : Nat
  deriving DecidableEq, Repr

/-! ### The output buffer (R37) -/

/-- One channel of the output buffer, `OUT[c][0..BLKMAX-1]`: (index, sample) pairs, indices strictly
rising, no sample 0; an unlisted index reads as 0 (log 11, 19). -/
abbrev Memory := List (Nat × Q)

/-! ### The machine -/

/-- The state of NSC (R20) and, last, the model's own fields. -/
structure State where
  /-- the voices `0..NV-1`; `NV` is the length (log 25) -/
  voices : List Voice
  /-- `SR` (R30) -/
  sr : Nat
  /-- `SRV` (R30) -/
  srv : Bool
  /-- `STAT.BADCMD` (R31) -/
  badcmd : Bool
  /-- `RES` (R32) -/
  res : Result
  /-- `ARP` (R33, R34) -/
  arp : Arp
  /-- the transport input registers (R35) -/
  transport : Transport
  /-- `EVIN`, head first (R36) -/
  evin : List Event
  /-- `EVOUT`, head first (R36) -/
  evout : List Event
  /-- the channels `OUT[0..NCH-1]`; `NCH` is the length (R37, log 25) -/
  out : List Memory
  /-- `PAR[0..15]` (R40) -/
  par : Params
  /-- `PEND[0..15]`, in issue order (R20, 20_memory.md R78; log 21) -/
  pend : List Pending
  /-- the implementation parameters (00_scope.md R5); no step writes them (log 1) -/
  cfg : Cfg
  /-- MODEL: the words waiting on the command port, oldest first (log 2) -/
  cmdPort : List Word
  /-- MODEL: the words waiting on the control port, oldest first (log 2) -/
  ctlPort : List Word
  /-- MODEL: how many free values have been drawn (log 9) -/
  draws : Nat
  deriving DecidableEq, Repr

/-- What the envelopes' latched parameters hold at power-on, where R58 leaves them unspecified
(DESIGN CHOICE, log 12). -/
def latchAtPowerOn : Adsr where
  attackTime := 0
  decayTime := 0
  sustainLevel := 0
  releaseTime := 0

/-- NSC right after power-on reset (R58, R380, R381), with the default parameters of R5. -/
def State.reset : State where
  voices := List.replicate Config.defaultNV
    (Voice.atReset Cfg.default latchAtPowerOn latchAtPowerOn latchAtPowerOn)
  sr := 1
  srv := false
  badcmd := false
  res := .none
  arp := Arp.atReset
  transport := Transport.atReset
  evin := []
  evout := []
  out := List.replicate Config.defaultNCH []
  par := Params.atPowerOn
  pend := []
  cfg := Cfg.default
  cmdPort := []
  ctlPort := []
  draws := 0

end Sys2Proof.Machine
end

