-- ==== Sys2Proof/Machine/Flags.lean ====
section
/-! DEFINITION. The status items (10_state.md R38; NSC has no condition codes): the sticky bit
`STAT.BADCMD` and the tests on stages and levels. -/

namespace Sys2Proof.Machine

/-- `invalid()` (60_exceptions.md R342): `STAT.BADCMD <- 1` and nothing else. -/
def State.invalid (s : State) : State := { s with badcmd := true }

/-- `isActive`: every stage but Idle (10_state.md R26). -/
def Envelope.isActive (e : Envelope) : Bool := e.stage != .idle

/-- Whether a voice is in state Playing (R28). -/
def Voice.isPlaying (vc : Voice) : Bool := vc.state == .playing

/-- `inAttackPhase`: the main envelope's level is strictly above that of the previous rendered
sample (44_voice.md R230). -/
def risesFrom (previous level : Q) : Bool := previous < level

end Sys2Proof.Machine
end

