-- ==== Sys2Proof/Machine/Numbers.lean ====
section
/-! DEFINITION. The helper functions of 00_scope.md R8 on exact rationals and the configuration
functions of R7 with the properties the spec assumes of them. -/

namespace Sys2Proof.Machine

/-- `floor(x)` as a rational (R8). -/
def floorQ (x : Q) : Q := (x.floor : Q)

/-- `frac(x) = x - floor(x)`, in [0,1) for every x (R8). -/
def frac (x : Q) : Q := x - floorQ x

/-- `clamp(x, lo, hi) = min(max(x, lo), hi)` (R8). -/
def clampQ (x lo hi : Q) : Q := min (max x lo) hi

/-- `clamp` on integers (R8). -/
def clampI (x lo hi : Int) : Int := min (max x lo) hi

/-- `abs(x)` (R8). -/
def absQ (x : Q) : Q := if x < 0 then -x else x

/-- `rnd(x)`: round to nearest, ties away from zero (R8). -/
def rnd (x : Q) : Q := if 0 ≤ x then floorQ (x + 1 / 2) else -floorQ (-x + 1 / 2)

/-- `SIN2PI` (R7): the eight fixed points, values in [-1,1] on [0,1), otherwise free (log 4). -/
def sin2pi (x : Q) : Q :=
  if x = 0 then 0
  else if x = 1 / 4 then 1
  else if x = 1 / 2 then 0
  else if x = 3 / 4 then -1
  else if x = 1 / 12 ∨ x = 5 / 12 then 1 / 2
  else if x = 7 / 12 ∨ x = 11 / 12 then -1 / 2
  else if 0 ≤ x ∧ x < 1 then clampQ (Config.sin2piFree x) (-1) 1
  else Config.sin2piFree x

/-- `EXP2` (R7): exact at the integers, at least 2 from 1 on, positive everywhere, otherwise free
(log 5). -/
def exp2 (x : Q) : Q :=
  if x.den = 1 then (2 : Q) ^ x.num
  else if 1 ≤ x then max (Config.exp2Free x) 2
  else if 0 < Config.exp2Free x then Config.exp2Free x
  else 1

end Sys2Proof.Machine
end

