-- ==== Sys2Proof/Machine/Operands.lean ====
section
/-! DEFINITION. Every operand form: the extension-word formats (00_scope.md R12, 30_encoding.md
R104), the fields that name a unit (R101) and the code tables (R106, R107, 10_state.md R46, R55). -/

namespace Sys2Proof.Machine

/-- Format U32: `e[31:0]` (R12). -/
def fmtU32 (e : Word) : Nat := e.toNat

/-- Format I32: `sext_32(e)` (R11, R12). -/
def fmtI32 (e : Word) : Int := e.toInt

/-- Format R: `sext_32(e) / 2^16` (R12). -/
def fmtR (e : Word) : Q := (e.toInt : Q) / 65536

/-- Format S: `sext_32(e) / 2^30` (R12). -/
def fmtS (e : Word) : Q := (e.toInt : Q) / 1073741824

/-- The oscillator that the field `S` names; none above 3 (R101, R112 (d)). -/
def oscIdxOf (o : BitVec 4) : Option OscIdx :=
  match o.toNat with
  | 0 => some .tonalLow
  | 1 => some .pulse1
  | 2 => some .pulse2
  | 3 => some .lfo
  | _ => none

/-- The envelope that the field `S` names; none above 2 (R101, R112 (d)). -/
def envIdxOf (e : BitVec 4) : Option EnvIdx :=
  match e.toNat with
  | 0 => some .main
  | 1 => some .auxA
  | 2 => some .auxB
  | _ => none

/-- The shape of a shape code; none for the reserved codes 4 to 7 (R106). -/
def shapeOf (code : BitVec 3) : Option Shape :=
  match code.toNat with
  | 0 => some .tri
  | 1 => some .sine
  | 2 => some .pulse
  | 3 => some .cyc
  | _ => none

/-- The shape code of a shape (R22, R106). -/
def shapeCode : Shape → Nat
  | .tri => 0
  | .sine => 1
  | .pulse => 2
  | .cyc => 3

/-- The stage code of a stage (R26). -/
def stageCode : Stage → Nat
  | .idle => 0
  | .attack => 1
  | .decay => 2
  | .sustain => 3
  | .release => 4

/-- An oscillator with the cycle register that `j` selects set to `x`; none for the reserved
selectors 5 to 7 (R107). -/
def setCycle (j : BitVec 3) (x : Q) (c : Oscillator) : Option Oscillator :=
  match j.toNat with
  | 0 => some { c with ca := x }
  | 1 => some { c with cd := x }
  | 2 => some { c with ch := x }
  | 3 => some { c with cr := x }
  | 4 => some { c with cs := x }
  | _ => none

/-- Latched parameters with the one that `j` selects written with `x`, brought into its legal set
(R107, 42_envelope.md R171). -/
def setLatch (j : BitVec 2) (x : Q) (a : Adsr) : Adsr :=
  match j.toNat with
  | 0 => { a with attackTime := max x 0 }
  | 1 => { a with decayTime := max x 0 }
  | 2 => { a with sustainLevel := clampQ x 0 1 }
  | _ => { a with releaseTime := max x 0 }

/-- `LFOSHAPE` (10_state.md R55). -/
def lfoShape (w : Fin 3) : Shape :=
  match w.val with
  | 0 => .sine
  | 1 => .tri
  | _ => .pulse

/-- `PWDEC` (R46). -/
def pwDec (w : Fin 3) : Q :=
  match w.val with
  | 0 => 1 / 8
  | 1 => 1 / 4
  | _ => 1 / 2

/-- The number an `ARPRATE` value stands for (R50). -/
def ArpRate.rate : ArpRate → Nat
  | .one => 1
  | .two => 2
  | .four => 4
  | .eight => 8

/-- The two words that carry the result of `EVPOP` on a finite result port (R108); for `none` the
valid bit is 0 and the model's other bits are 0 (log 27). -/
def packEvent : Option Event → Word × Word
  | some ev =>
    ((BitVec.ofBool true ++ (0 : BitVec 15)) ++ noteBits ev, BitVec.ofNat 32 ev.off)
  | none => (0, 0)
where
  /-- `on[15] || vel[14:8] || 0[7] || note[6:0]` (R108). -/
  noteBits (ev : Event) : BitVec 16 :=
    (BitVec.ofBool ev.on ++ BitVec.ofFin (w := 7) ev.vel) ++
      ((0 : BitVec 1) ++ BitVec.ofFin (w := 7) ev.note)

end Sys2Proof.Machine
end

