-- ==== Sys2Proof/Machine/Ops.lean ====
section
/-! DEFINITION. The named operations over the unit registers, the parameter space, the output space
and the event queues (20_memory.md R70 to R75), and the checks of 30_encoding.md R112 that the
meanings share.

NSC has no exception (60_exceptions.md R340, R346): what stands in the place of taking one is
`State.invalid` (R342). -/

namespace Sys2Proof.Machine

/-! ### Unit registers -/

/-- `OSC[v][o]` of a voice (10_state.md R22, R23). -/
def Voice.osc (vc : Voice) : OscIdx → Oscillator
  | .tonalLow => vc.tonalLow
  | .pulse1 => vc.pulse1
  | .pulse2 => vc.pulse2
  | .lfo => vc.lfo

/-- Write all registers of `OSC[v][o]`. -/
def Voice.setOsc (vc : Voice) (o : OscIdx) (c : Oscillator) : Voice :=
  match o with
  | .tonalLow => { vc with tonalLow := c }
  | .pulse1 => { vc with pulse1 := c }
  | .pulse2 => { vc with pulse2 := c }
  | .lfo => { vc with lfo := c }

/-- `ENV[v][e]` of a voice (R25). -/
def Voice.env (vc : Voice) : EnvIdx → Envelope
  | .main => vc.envMain
  | .auxA => vc.envA
  | .auxB => vc.envB

/-- Write all registers of `ENV[v][e]`. -/
def Voice.setEnv (vc : Voice) (e : EnvIdx) (n : Envelope) : Voice :=
  match e with
  | .main => { vc with envMain := n }
  | .auxA => { vc with envA := n }
  | .auxB => { vc with envB := n }

/-- The same change to all four oscillators. -/
def Voice.mapOscs (f : Oscillator → Oscillator) (vc : Voice) : Voice :=
  { vc with tonalLow := f vc.tonalLow, pulse1 := f vc.pulse1, pulse2 := f vc.pulse2, lfo := f vc.lfo }

/-- The same change to all three envelopes. -/
def Voice.mapEnvs (f : Envelope → Envelope) (vc : Voice) : Voice :=
  { vc with envMain := f vc.envMain, envA := f vc.envA, envB := f vc.envB }

/-- Voice `v`; none when `v >= NV` (R112 (c)). -/
def State.voice? (s : State) (v : BitVec 4) : Option Voice := s.voices[v.toNat]?

/-- Write all registers of voice `v`. -/
def State.setVoice (s : State) (v : BitVec 4) (vc : Voice) : State :=
  { s with voices := s.voices.set v.toNat vc }

/-- `RES <- r` (10_state.md R32). -/
def State.setRes (s : State) (r : Result) : State := { s with res := r }

/-! ### The checks of R112 -/

/-- A command that uses `V`: invalid when `V >= NV` (R112 (c)). -/
def onVoice (s : State) (v : BitVec 4) (k : Voice → StepOutcome State) : StepOutcome State :=
  match s.voice? v with
  | some vc => k vc
  | none => .next s.invalid

/-- A command that uses `V` and `S` as an oscillator: invalid when either names nothing (R112 (c),
(d)). -/
def onOsc (s : State) (v o : BitVec 4) (k : Voice → OscIdx → StepOutcome State) :
    StepOutcome State :=
  onVoice s v fun vc =>
    match oscIdxOf o with
    | some i => k vc i
    | none => .next s.invalid

/-- A command that uses `V` and `S` as an envelope: invalid when either names nothing (R112 (c),
(d)). -/
def onEnv (s : State) (v e : BitVec 4) (k : Voice → EnvIdx → StepOutcome State) :
    StepOutcome State :=
  onVoice s v fun vc =>
    match envIdxOf e with
    | some i => k vc i
    | none => .next s.invalid

/-- A command that reads `SR`: invalid while `SRV = 0` (R112 (f)). -/
def needRate (s : State) (k : StepOutcome State) : StepOutcome State :=
  if s.srv then k else .next s.invalid

/-! ### The parameter space (R72, R73) -/

/-- `clamp(w, 0, 2)` into the legal set {0, 1, 2} (R41, R46, R47, R55). -/
def legalSel (w : Int) : Fin 3 := if w ≤ 0 then 0 else if w = 1 then 1 else 2

/-- The largest legal `ARPRATE` not above `w`, at least 1 (R50). -/
def legalRate (w : Int) : ArpRate :=
  if w ≤ 1 then .one else if w ≤ 3 then .two else if w ≤ 7 then .four else .eight

/-- `ParWrite(k, w)` with `w` the payload in the register's format: the "write of `w` stores" column
of R57 (R41 to R56, R73). -/
def parWrite (k : ParIdx) (e : Word) (p : Params) : Params :=
  match k with
  | .mode => { p with mode := legalSel (fmtI32 e) }
  | .att => { p with att := max (fmtR e) 0 }
  | .dec => { p with dec := max (fmtR e) 0 }
  | .sus => { p with sus := clampQ (fmtR e) 0 1 }
  | .rel => { p with rel := max (fmtR e) 0 }
  | .pw1 => { p with pw1 := legalSel (fmtI32 e) }
  | .pw2 => { p with pw2 := legalSel (fmtI32 e) }
  | .pitch => { p with pitch := clampI (fmtI32 e) (-12) 12 }
  | .arpon => { p with arpon := decide (0 < fmtI32 e) }
  | .arprate => { p with arprate := legalRate (fmtI32 e) }
  | .div => { p with div := (clampI (fmtI32 e) 1 65535).toNat }
  | .bits => { p with bits := (clampI (fmtI32 e) 1 32).toNat }
  | .lfoamt => { p with lfoamt := fmtR e }
  | .lforate => { p with lforate := max (fmtR e) 0 }
  | .lfowave => { p with lfowave := legalSel (fmtI32 e) }
  | .fbpm => { p with fbpm := max (fmtR e) 1 }

/-- `ParRead(k)` (R72); an integer register's value as that integer in Q (R306). -/
def parRead (k : ParIdx) (p : Params) : Q :=
  match k with
  | .mode => (p.mode.val : Q)
  | .att => p.att
  | .dec => p.dec
  | .sus => p.sus
  | .rel => p.rel
  | .pw1 => (p.pw1.val : Q)
  | .pw2 => (p.pw2.val : Q)
  | .pitch => (p.pitch : Q)
  | .arpon => if p.arpon then 1 else 0
  | .arprate => (p.arprate.rate : Q)
  | .div => (p.div : Q)
  | .bits => (p.bits : Q)
  | .lfoamt => p.lfoamt
  | .lforate => p.lforate
  | .lfowave => (p.lfowave.val : Q)
  | .fbpm => p.fbpm

/-! ### The output space (R74) -/

/-- One sample of a channel; an unlisted index reads as 0 (log 11). -/
def Memory.read : Memory → Nat → Q
  | [], _ => 0
  | (k, x) :: m, i => if i = k then x else Memory.read m i

/-- Write one sample of a channel, keeping the canonical form: writing 0 removes the entry. -/
def Memory.write : Memory → Nat → Q → Memory
  | [], i, x => if x = 0 then [] else [(i, x)]
  | (k, y) :: m, i, x =>
    if i < k then (if x = 0 then (k, y) :: m else (i, x) :: (k, y) :: m)
    else if i = k then (if x = 0 then m else (k, x) :: m)
    else (k, y) :: Memory.write m i x

/-- The canonical form: indices strictly rising, no sample equal to what an unlisted one reads as. -/
abbrev Memory.wf (m : Memory) : Prop :=
  m.Pairwise (fun a b => a.1 < b.1) ∧ ∀ p ∈ m, p.2 ≠ 0

/-- `OutAdd(c, i, v)` on the channel `c` (R74). -/
def Memory.add (m : Memory) (i : Nat) (x : Q) : Memory := Memory.write m i (Memory.read m i + x)

/-- `OutAdd(c, i, v)` for every channel `c` in `0..NCH-1` (44_voice.md R227 step 6). -/
def outAddAll (out : List Memory) (i : Nat) (x : Q) : List Memory :=
  out.map fun m => Memory.add m i x

/-- `OutRead(c, i)`; none when `c >= NCH` (R74, R112 (d)). -/
def outRead (out : List Memory) (c i : Nat) : Option Q := out[c]?.map fun m => Memory.read m i

/-- `OutClr()` (R74). -/
def outClear (out : List Memory) : List Memory := out.map fun _ => []

/-! ### The event queues (R75) -/

/-- `EvPush(EVIN, ev)`: append at the tail, or drop the event and set BADCMD when full (R75). -/
def State.pushIn (s : State) (ev : Event) : State :=
  if s.evin.length < s.cfg.evqDepth then { s with evin := s.evin ++ [ev] }
  else { s with badcmd := true }

/-- `EvPush(EVOUT, ev)` (R75). -/
def State.pushOut (s : State) (ev : Event) : State :=
  if s.evout.length < s.cfg.evqDepth then { s with evout := s.evout ++ [ev] }
  else { s with badcmd := true }

/-- `EvPop(EVOUT)`, the only read with a side effect (R75). -/
def State.popOut (s : State) : Option Event × State :=
  match s.evout with
  | [] => (none, s)
  | ev :: rest => (some ev, { s with evout := rest })

end Sys2Proof.Machine
end

