-- ==== Sys2Proof/Machine/ArpClock.lean ====
section
/-! DEFINITION. The arpeggiation clock (45_arpclock.md): `ABLOCK`, `EVPUSH`, `EVPOP`. -/

namespace Sys2Proof.Machine

/-! ### The held-note set (10_state.md R34) -/

/-- Bit `n` of the held-note set written with `on`. -/
def heldSet (h : BitVec 128) (n : Note) (on : Bool) : BitVec 128 :=
  if on then h ||| (1#128 <<< n.val) else h &&& ~~~(1#128 <<< n.val)

/-- The held notes, ascending. -/
def heldNotes (h : BitVec 128) : List Note := (List.finRange 128).filter fun n => h.getLsbD n.val

/-- `count(HELD)`. -/
def heldCount (h : BitVec 128) : Nat := (heldNotes h).length

/-- `nth(HELD, j)`; none when `j >= count(HELD)`. -/
def heldNth (h : BitVec 128) (j : Nat) : Option Note := (heldNotes h)[j]?

/-- Step 1 (R261): every event of `EVIN`, in queue order. -/
def heldAfter (h : BitVec 128) (evs : List Event) : BitVec 128 :=
  evs.foldl (fun h ev => heldSet h ev.note ev.on) h

/-! ### The block -/

/-- Step 2 (R262): the transport flags, the cursor reset on a stop to start transition, the
position. -/
def Arp.transportStep (t : Transport) (a : Arp) : Arp :=
  let playing := if t.tplayv then t.tplay else a.playing
  { a with
    wasPlaying := a.playing
    playing := playing
    nidx := if playing && !a.playing then 0 else a.nidx
    pos := if t.tposv then t.tpos else a.pos }

/-- The tempo of step 3: the host's if present and positive, else `FBPM` (R264). -/
def tempo (t : Transport) (p : Params) : Q := if t.tbpmv ∧ 0 < t.tbpm then t.tbpm else p.fbpm

/-- `quarterNoteSamples` (R264). -/
def quarterSamples (sr : Nat) (bpm : Q) : Q := (sr : Q) * 60 / bpm

/-- `step = max(1, 8 div rate)` (R265). -/
def rateStep (r : ArpRate) : Nat := max 1 (8 / r.rate)

/-- The least selected trigger position at or after the phase (R265). -/
def triggerPos (step : Nat) (ph : Q) : Q :=
  match (List.range 9).find? fun k => k % step = 0 ∧ ph ≤ (k : Q) / 8 with
  | some k => (k : Q) / 8
  | none => 1

/-- The distance in samples to the next trigger position (R265). -/
def triggerDist (p : Params) (pos qns : Q) : Q :=
  (triggerPos (rateStep p.arprate) (frac pos) - frac pos) * qns

/-- The note-off of a trigger at offset `off`, if a note was triggered before (R266). -/
def State.stopLast (s : State) (off : Nat) : State :=
  match s.arp.last with
  | none => s
  | some n => s.pushOut { off := off, on := false, note := n, vel := 0 }

/-- The note-on of a trigger and the cursor (R266): `NIDX` is reduced modulo the live size before it
is used; with nothing held only `LAST` changes. -/
def State.startNext (s : State) (off : Nat) : State :=
  let m := heldCount s.arp.held
  let j := s.arp.nidx % m
  match heldNth s.arp.held j with
  | none => { s with arp := { s.arp with last := none } }
  | some n =>
    let t := s.pushOut { off := off, on := true, note := n, vel := s.cfg.arpVel }
    { t with arp := { t.arp with nidx := (j + 1) % m, last := some n } }

/-- Steps 4 and 5 (R265 to R268): at most one trigger, at offset `floor(d)`, when `d < n`. -/
def State.trigger (s : State) (n : Nat) (qns : Q) : State :=
  let d := triggerDist s.par s.arp.pos qns
  if d < (n : Q) then (s.stopLast d.floor.toNat).startNext d.floor.toNat else s

/-- Steps 1 and 2. -/
def State.blockBegin (s : State) : State :=
  { s with
    arp := Arp.transportStep s.transport { s.arp with held := heldAfter s.arp.held s.evin } }

/-- Steps 4 and 5 with the arpeggiator on, pass-through with it off (R263, R271, R272). -/
def State.blockEvents (s : State) (n : Nat) (qns : Q) : State :=
  if s.par.arpon then s.trigger n qns else s.evin.foldl State.pushOut s

/-- Step 6 (R270). -/
def State.blockEnd (s : State) (n : Nat) (qns : Q) : State :=
  { s with arp := { s.arp with pos := s.arp.pos + (n : Q) / qns }, evin := [] }

/-- `ABLOCK` (R260). -/
def execAblock (n : BitVec 16) (s : State) : StepOutcome State :=
  needRate s <|
    let qns := quarterSamples s.sr (tempo s.transport s.par)
    .next ((s.blockBegin.blockEvents n.toNat qns).blockEnd n.toNat qns)

/-- `EVPUSH` (R274). -/
def execEvpush (on : Bool) (note : Note) (vel : Velocity) (off : Word) (s : State) :
    StepOutcome State :=
  .next (s.pushIn { off := fmtU32 off, on := on, note := note, vel := vel })

/-- `EVPOP` (R275). -/
def execEvpop (s : State) : StepOutcome State :=
  match s.popOut with
  | (none, t) => .next (t.setRes .none)
  | (some ev, t) => .next (t.setRes (.event ev))

end Sys2Proof.Machine
end

