-- ==== Sys2Proof/Machine/Crusher.lean ====
section
/-! DEFINITION. The bit-crusher and the decimator (43_bitcrusher_decimator.md): `CRUSH`, `DHOLD`. -/

namespace Sys2Proof.Machine

/-- `eff_depth(m)` (R201): not rounded. -/
def effDepth (p : Params) (m : Q) : Q := clampQ ((p.bits : Q) + m * p.lfoamt) 1 24

/-- The quantiser's step count (R202). -/
def crushSteps (p : Params) (m : Q) : Q := exp2 (effDepth p m) - 1

/-- `crush(s, m)` (R202); the sample is not clamped. -/
def crush (p : Params) (x m : Q) : Q := rnd (x * crushSteps p m) / crushSteps p m

/-- `decim(v, i, s)` on the voice (R206): the sample that leaves the hold, and the voice after it. -/
def Voice.decim (vc : Voice) (div i : Nat) (x : Q) : Q × Voice :=
  if i % div ≠ 0 then (vc.hold, vc) else (x, { vc with hold := x })

/-- `CRUSH` (R203). -/
def execCrush (x m : Word) (s : State) : StepOutcome State :=
  .next (s.setRes (.num (crush s.par (fmtS x) (fmtS m))))

/-- `DHOLD` (R207). -/
def execDhold (v : BitVec 4) (index : BitVec 16) (x : Word) (s : State) : StepOutcome State :=
  onVoice s v fun vc =>
    let r := vc.decim s.par.div index.toNat (fmtS x)
    .next ((s.setVoice v r.2).setRes (.num r.1))

end Sys2Proof.Machine
end

