-- ==== Sys2Proof/Machine/Envelope.lean ====
section
/-! DEFINITION. The four-stage envelope generator (42_envelope.md): `ESET`, `EON`, `EOFF`, `ETICK`,
`EACT`. -/

namespace Sys2Proof.Machine

/-- `env_on` (R172): Attack from the current level. -/
def Envelope.on (e : Envelope) : Envelope := { e with stage := .attack, start := e.level, cnt := 0 }

/-- `env_off` (R173): Release from the current level, from any active stage. -/
def Envelope.off (e : Envelope) : Envelope :=
  if e.isActive then { e with stage := .release, start := e.level, cnt := 0 } else e

/-- What a hard cut leaves of an envelope (44_voice.md R226). -/
def Envelope.cut (e : Envelope) : Envelope :=
  { e with stage := .idle, level := 0, start := 0, cnt := 0 }

/-- `env_tick` (R174): exactly one of the five cases; the result is the new `level`. A time `T` in
ticks is a rational, not rounded (R175, R179). -/
def Envelope.tick (sr : Nat) (e : Envelope) : Envelope :=
  match e.stage with
  | .idle => { e with level := 0 }
  | .attack => attackStep (e.par.attackTime * (sr : Q)) (e.cnt + 1)
  | .decay => decayStep (e.par.decayTime * (sr : Q)) (e.cnt + 1)
  | .sustain => { e with level := e.par.sustainLevel }
  | .release => releaseStep (e.par.releaseTime * (sr : Q)) (e.cnt + 1)
where
  /-- The attack step with the count already incremented (R175). -/
  attackStep (T : Q) (c : Nat) : Envelope :=
    if T ≤ (c : Q) then { e with level := 1, stage := .decay, start := 1, cnt := 0 }
    else { e with level := e.start + (1 - e.start) * (c : Q) / T, cnt := c }
  /-- The decay step (R176). -/
  decayStep (T : Q) (c : Nat) : Envelope :=
    if T ≤ (c : Q) then
      { e with
        level := e.par.sustainLevel, stage := .sustain, start := e.par.sustainLevel, cnt := 0 }
    else { e with level := e.start + (e.par.sustainLevel - e.start) * (c : Q) / T, cnt := c }
  /-- The release step (R178). -/
  releaseStep (T : Q) (c : Nat) : Envelope :=
    if T ≤ (c : Q) then { e with level := 0, stage := .idle, start := 0, cnt := 0 }
    else { e with level := e.start * (1 - (c : Q) / T), cnt := c }

/-- `ESET` (R171). -/
def execEset (v e : BitVec 4) (j : BitVec 2) (x : Word) (s : State) : StepOutcome State :=
  onEnv s v e fun vc i =>
    .next (s.setVoice v (vc.setEnv i
      { vc.env i with par := setLatch j (fmtR x) (vc.env i).par }))

/-- `EON` (R172). -/
def execEon (v e : BitVec 4) (s : State) : StepOutcome State :=
  onEnv s v e fun vc i => .next (s.setVoice v (vc.setEnv i (vc.env i).on))

/-- `EOFF` (R173). -/
def execEoff (v e : BitVec 4) (s : State) : StepOutcome State :=
  onEnv s v e fun vc i => .next (s.setVoice v (vc.setEnv i (vc.env i).off))

/-- `ETICK` (R174): `RES <- num` the level after the step. -/
def execEtick (v e : BitVec 4) (s : State) : StepOutcome State :=
  needRate s <| onEnv s v e fun vc i =>
    let n := (vc.env i).tick s.sr
    .next ((s.setVoice v (vc.setEnv i n)).setRes (.num n.level))

/-- `EACT` (R180): `RES <- bool (stage != Idle)`. -/
def execEact (v e : BitVec 4) (s : State) : StepOutcome State :=
  onEnv s v e fun vc i => .next (s.setRes (.bool (vc.env i).isActive))

end Sys2Proof.Machine
end

