-- ==== Sys2Proof/Machine/Oscillator.lean ====
section
/-! DEFINITION. The phase-accumulator oscillator (41_oscillator.md): `OSETF`, `OSETP`, `OSETSH`,
`OSETDW`, `OSETCY`, `OPROC`. -/

namespace Sys2Proof.Machine

/-- `TRI(φ)` (R149). -/
def triShape (φ : Q) : Q := absQ (φ - 1 / 2) - 1 / 4

/-- `PULSE(φ)` (R151). -/
def pulseShape (duty φ : Q) : Q := if φ ≤ duty then 1 / 2 else -1 / 2

/-- `CYC(φ)`, the ADSR-shaped cycle (R152, R153). -/
def cycShape (a d h r s φ : Q) : Q :=
  if φ < a then φ / a
  else if φ < a + d then 1 - (1 - s) * (φ - a) / d
  else if φ < a + d + h then s
  else if φ < a + d + h + r then s * (1 - (φ - a - d - h) / r)
  else 0

/-- `shape_eval` (R148). -/
def Oscillator.shapeEval (c : Oscillator) : Q :=
  match c.shape with
  | .tri => triShape c.phase
  | .sine => sin2pi c.phase
  | .pulse => pulseShape c.duty c.phase
  | .cyc => cycShape c.ca c.cd c.ch c.cr c.cs c.phase

/-- The phase advance of `osc_process` (R141); the output is `shapeEval` of the result. -/
def Oscillator.advance (c : Oscillator) : Oscillator := { c with phase := frac (c.phase + c.inc) }

/-- `OSETF` (R142). -/
def execOsetf (v o : BitVec 4) (f : Word) (s : State) : StepOutcome State :=
  needRate s <| onOsc s v o fun vc i =>
    .next (s.setVoice v (vc.setOsc i
      { vc.osc i with freq := fmtR f, inc := fmtR f / (s.sr : Q) }))

/-- `OSETP` (R143). -/
def execOsetp (v o : BitVec 4) (p : Word) (s : State) : StepOutcome State :=
  onOsc s v o fun vc i =>
    .next (s.setVoice v (vc.setOsc i { vc.osc i with phase := frac (fmtS p) }))

/-- `OSETSH` (R144); a reserved shape code is an invalid command (R106). -/
def execOsetsh (v o : BitVec 4) (code : BitVec 3) (s : State) : StepOutcome State :=
  onOsc s v o fun vc i =>
    match shapeOf code with
    | some sh => .next (s.setVoice v (vc.setOsc i { vc.osc i with shape := sh }))
    | none => .next s.invalid

/-- `OSETDW` (R145). -/
def execOsetdw (v o : BitVec 4) (d : Word) (s : State) : StepOutcome State :=
  onOsc s v o fun vc i =>
    .next (s.setVoice v (vc.setOsc i { vc.osc i with duty := clampQ (fmtS d) 0 1 }))

/-- `OSETCY` (R146); a reserved selector is an invalid command (R107). -/
def execOsetcy (v o : BitVec 4) (j : BitVec 3) (x : Word) (s : State) : StepOutcome State :=
  onOsc s v o fun vc i =>
    match setCycle j (clampQ (fmtS x) 0 1) (vc.osc i) with
    | some c => .next (s.setVoice v (vc.setOsc i c))
    | none => .next s.invalid

/-- `OPROC` (R147): `RES <- num osc_process(v, o)`, the shaper at the advanced phase (R141). -/
def execOproc (v o : BitVec 4) (s : State) : StepOutcome State :=
  onOsc s v o fun vc i =>
    let c := (vc.osc i).advance
    .next ((s.setVoice v (vc.setOsc i c)).setRes (.num c.shapeEval))

end Sys2Proof.Machine
end

