-- ==== Sys2Proof/Machine/System.lean ====
section
/-! DEFINITION. The system, parameter, transport and output-buffer commands (46_system_io.md):
`NOP`, `RESET`, `PREPARE`, `PWR`, `PRD`, `TPOS`, `TBPM`, `TPLAY`, `TCLR`, `OUTCLR`, `OUTRD`. -/

namespace Sys2Proof.Machine

/-- `NOP` (R300). -/
def execNop (s : State) : StepOutcome State := .next s

/-- What one envelope's latched registers hold after `RESET`: unspecified legal values (10_state.md
R58), four draws from the `n`-th on (log 13). -/
def latchDraw (n : Nat) : Adsr :=
  Adsr.legal {
    attackTime := Config.resetLatch n
    decayTime := Config.resetLatch (n + 1)
    sustainLevel := Config.resetLatch (n + 2)
    releaseTime := Config.resetLatch (n + 3) }

/-- The voices after `RESET` (R58): as many as there were, twelve draws for each. -/
def resetVoices (c : Cfg) : Nat → Nat → List Voice
  | _, 0 => []
  | n, k + 1 =>
    Voice.atReset c (latchDraw n) (latchDraw (n + 4)) (latchDraw (n + 8)) ::
      resetVoices c (n + 12) k

/-- The state after the `RESET` command (R301, R58): `OUT` and `PAR` as they are, every pending
control write discarded. The words on the ports are the agents', not NSC's (log 30); the values of
absent transport fields are kept (log 15). -/
def State.afterReset (s : State) : State :=
  { s with
    voices := resetVoices s.cfg s.draws s.voices.length
    sr := 1
    srv := false
    badcmd := false
    res := .none
    arp := Arp.atReset
    transport := { s.transport with tposv := false, tbpmv := false, tplayv := false }
    evin := []
    evout := []
    pend := []
    draws := s.draws + 12 * s.voices.length }

/-- `RESET` (R301). -/
def execReset (s : State) : StepOutcome State := .next s.afterReset

/-- `PREPARE` (R302): the rate is at least 1, and every increment is recomputed. -/
def execPrepare (rate : Word) (s : State) : StepOutcome State :=
  let sr := max (fmtU32 rate) 1
  .next { s with
    sr := sr
    srv := true
    voices := s.voices.map (Voice.mapOscs fun c => { c with inc := c.freq / (sr : Q) }) }

/-- `PWR` issued by RT (R305): `ParWrite` at once (20_memory.md R79). -/
def execPwr (k : ParIdx) (payload : Word) (s : State) : StepOutcome State :=
  .next { s with par := parWrite k payload s.par }

/-- `PRD` (R306). -/
def execPrd (k : ParIdx) (s : State) : StepOutcome State := .next (s.setRes (.num (parRead k s.par)))

/-- `TPOS` (R309). -/
def execTpos (x : Word) (s : State) : StepOutcome State :=
  .next { s with transport := { s.transport with tpos := fmtR x, tposv := true } }

/-- `TBPM` (R310). -/
def execTbpm (x : Word) (s : State) : StepOutcome State :=
  .next { s with transport := { s.transport with tbpm := fmtR x, tbpmv := true } }

/-- `TPLAY` (R311). -/
def execTplay (play : Bool) (s : State) : StepOutcome State :=
  .next { s with transport := { s.transport with tplay := play, tplayv := true } }

/-- `TCLR` (R312): the valid bits the mask names are cleared, the values kept. -/
def execTclr (mask : BitVec 3) (s : State) : StepOutcome State :=
  .next { s with
    transport := { s.transport with
      tposv := s.transport.tposv && !mask[0]
      tbpmv := s.transport.tbpmv && !mask[1]
      tplayv := s.transport.tplayv && !mask[2] } }

/-- `OUTCLR` (R313). -/
def execOutclr (s : State) : StepOutcome State := .next { s with out := outClear s.out }

/-- `OUTRD` (R314); invalid when the channel or the index names nothing (R112 (d), (g)). -/
def execOutrd (c : BitVec 4) (index : BitVec 16) (s : State) : StepOutcome State :=
  match outRead s.out c.toNat index.toNat with
  | none => .next s.invalid
  | some x =>
    if index.toNat < s.cfg.blkmax then .next (s.setRes (.num x)) else .next s.invalid

end Sys2Proof.Machine
end

