-- ==== Sys2Proof/Decode.lean ====
section
/-! DEFINITION. The decoder (30_encoding.md R113), total on any word stream, and after it the
encoder, written from the same table (R109). -/

namespace Sys2Proof

/-- `W[31:24]`, the opcode (R100). -/
def opcField (w : Word) : BitVec 8 := w.extractLsb' 24 8

/-- `W[23:20]` (R100). -/
def vField (w : Word) : BitVec 4 := w.extractLsb' 20 4

/-- `W[19:16]` (R100). -/
def sField (w : Word) : BitVec 4 := w.extractLsb' 16 4

/-- `W[15:0]` (R100). -/
def immField (w : Word) : BitVec 16 := w.extractLsb' 0 16

/-- `NEXT = OPC[7:6]`, the number of extension words, for every opcode (R102). -/
def nextField (w : Word) : Nat := (w.extractLsb' 30 2).toNat

/-- `IMM[6:0]` as a note number (R105). -/
def noteField (w : Word) : Note := (w.extractLsb' 0 7).toFin

/-- `IMM[14:8]` as a velocity (R105). -/
def velField (w : Word) : Velocity := (w.extractLsb' 8 7).toFin

/-- The parameter register that a four-bit index names; every value names one (R101, 10_state.md
R57). -/
def parIdxOf (k : BitVec 4) : ParIdx :=
  match k.toNat with
  | 0 => .mode
  | 1 => .att
  | 2 => .dec
  | 3 => .sus
  | 4 => .rel
  | 5 => .pw1
  | 6 => .pw2
  | 7 => .pitch
  | 8 => .arpon
  | 9 => .arprate
  | 10 => .div
  | 11 => .bits
  | 12 => .lfoamt
  | 13 => .lforate
  | 14 => .lfowave
  | _ => .fbpm

/-- `IMM[3:0]` as a parameter register (R105). -/
def parField (w : Word) : ParIdx := parIdxOf (w.extractLsb' 0 4)

/-- The command that a command word and its extension words stand for; `none` when the opcode is
reserved (R109, R111). Bits the row does not use are not looked at (R110). -/
def decodeWords (w e1 e2 : Word) : Option Instr :=
  match (opcField w).toNat with
  | 0x00 => some .nop
  | 0x01 => some .reset
  | 0x02 => some .outclr
  | 0x03 => some (.outrd (sField w) (immField w))
  | 0x04 => some (.prd (parField w))
  | 0x05 => some (.tclr (w.extractLsb' 0 3))
  | 0x06 => some (.tplay w[0])
  | 0x08 => some (.osetsh (vField w) (sField w) (w.extractLsb' 0 3))
  | 0x09 => some (.oproc (vField w) (sField w))
  | 0x10 => some (.eon (vField w) (sField w))
  | 0x11 => some (.eoff (vField w) (sField w))
  | 0x12 => some (.etick (vField w) (sField w))
  | 0x13 => some (.eact (vField w) (sField w))
  | 0x18 => some (.vstart (vField w) (noteField w) (velField w))
  | 0x19 => some (.vstop (vField w) w[0])
  | 0x20 => some (.ablock (immField w))
  | 0x21 => some .evpop
  | 0x40 => some (.prepare e1)
  | 0x41 => some (.pwr (parField w) e1)
  | 0x42 => some (.tpos e1)
  | 0x43 => some (.tbpm e1)
  | 0x48 => some (.osetf (vField w) (sField w) e1)
  | 0x49 => some (.osetp (vField w) (sField w) e1)
  | 0x4A => some (.osetdw (vField w) (sField w) e1)
  | 0x4B => some (.osetcy (vField w) (sField w) (w.extractLsb' 0 3) e1)
  | 0x50 => some (.eset (vField w) (sField w) (w.extractLsb' 0 2) e1)
  | 0x58 => some (.vrend (vField w) (e1.extractLsb' 16 16) (e1.extractLsb' 0 16))
  | 0x59 => some (.dhold (vField w) (immField w) e1)
  | 0x60 => some (.evpush w[15] (noteField w) (velField w) e1)
  | 0x80 => some (.crush e1 e2)
  | _ => none

/-- What stands at the head of a command stream. -/
inductive Decoded where
  /-- not all words of the command have arrived (R103) -/
  | incomplete
  /-- a reserved opcode, its extension words consumed (R111) -/
  | reserved (opc : BitVec 8) (rest : List Word)
  /-- a defined command and the stream after it -/
  | instr (i : Instr) (rest : List Word)
  deriving DecidableEq, Repr

/-- The decoding algorithm of R113 on a word stream: read `W`, read `NEXT` extension words, look the
opcode up. -/
def decode : List Word → Decoded
  | [] => .incomplete
  | w :: rest =>
    if rest.length < nextField w then .incomplete
    else
      match decodeWords w (rest.getD 0 0) (rest.getD 1 0) with
      | some i => .instr i (rest.drop (nextField w))
      | none => .reserved (opcField w) (rest.drop (nextField w))

/-- The words a table row's bits stand for: bit 0 of `w` is bit 0 of the command word, the extension
words follow; only the words the opcode asks for (R102), bits from `nbits` up being 0. -/
def tableWords (nbits w : Nat) : List Word :=
  let x := w % 2 ^ nbits
  let c : Word := BitVec.ofNat 32 x
  let ext : List Word :=
    [BitVec.ofNat 32 (x / 2 ^ 32), BitVec.ofNat 32 (x / 2 ^ 64), BitVec.ofNat 32 (x / 2 ^ 96)]
  c :: ext.take (nextField c)

/-- The command the decoder reads from a table row's bits; none where the opcode is reserved. -/
def decodeTableWord (nbits w : Nat) : Option Instr :=
  match decode (tableWords nbits w) with
  | .instr i _ => some i
  | .reserved _ _ => none
  | .incomplete => none

/-- A command word from its four fields (R100). -/
def commandWord (opc : BitVec 8) (v s : BitVec 4) (imm : BitVec 16) : Word := opc ++ v ++ s ++ imm

/-- The index of a parameter register (10_state.md R57). -/
def ParIdx.code : ParIdx → BitVec 4
  | .mode => 0
  | .att => 1
  | .dec => 2
  | .sus => 3
  | .rel => 4
  | .pw1 => 5
  | .pw2 => 6
  | .pitch => 7
  | .arpon => 8
  | .arprate => 9
  | .div => 10
  | .bits => 11
  | .lfoamt => 12
  | .lforate => 13
  | .lfowave => 14
  | .fbpm => 15

/-- `on || vel || 0 || note`, the sub-fields of `IMM` of `VSTART` and `EVPUSH` (R105). -/
def noteImm (on : Bool) (note : Note) (vel : Velocity) : BitVec 16 :=
  (BitVec.ofBool on ++ BitVec.ofFin (w := 7) vel) ++ ((0 : BitVec 1) ++ BitVec.ofFin (w := 7) note)

/-- The words of a command (R100, R105, R109), reserved bits zero (R110: "a host should write
zeros"). -/
def encode : Instr → List Word
  | .nop => [commandWord 0x00 0 0 0]
  | .reset => [commandWord 0x01 0 0 0]
  | .outclr => [commandWord 0x02 0 0 0]
  | .outrd c index => [commandWord 0x03 0 c index]
  | .prd k => [commandWord 0x04 0 0 (k.code.setWidth 16)]
  | .tclr mask => [commandWord 0x05 0 0 (mask.setWidth 16)]
  | .tplay play => [commandWord 0x06 0 0 ((BitVec.ofBool play).setWidth 16)]
  | .osetsh v o code => [commandWord 0x08 v o (code.setWidth 16)]
  | .oproc v o => [commandWord 0x09 v o 0]
  | .eon v e => [commandWord 0x10 v e 0]
  | .eoff v e => [commandWord 0x11 v e 0]
  | .etick v e => [commandWord 0x12 v e 0]
  | .eact v e => [commandWord 0x13 v e 0]
  | .vstart v note vel => [commandWord 0x18 v 0 (noteImm false note vel)]
  | .vstop v tail => [commandWord 0x19 v 0 ((BitVec.ofBool tail).setWidth 16)]
  | .ablock n => [commandWord 0x20 0 0 n]
  | .evpop => [commandWord 0x21 0 0 0]
  | .prepare rate => [commandWord 0x40 0 0 0, rate]
  | .pwr k payload => [commandWord 0x41 0 0 (k.code.setWidth 16), payload]
  | .tpos x => [commandWord 0x42 0 0 0, x]
  | .tbpm x => [commandWord 0x43 0 0 0, x]
  | .osetf v o f => [commandWord 0x48 v o 0, f]
  | .osetp v o p => [commandWord 0x49 v o 0, p]
  | .osetdw v o d => [commandWord 0x4A v o 0, d]
  | .osetcy v o j x => [commandWord 0x4B v o (j.setWidth 16), x]
  | .eset v e j x => [commandWord 0x50 v e (j.setWidth 16), x]
  | .vrend v start count => [commandWord 0x58 v 0 0, start ++ count]
  | .dhold v index s => [commandWord 0x59 v 0 index, s]
  | .evpush on note vel off => [commandWord 0x60 0 0 (noteImm on note vel), off]
  | .crush s m => [commandWord 0x80 0 0 0, s, m]

/-! Pseudo-commands (R115): each is its expansion. -/

/-- The pseudo-commands of R115; operands as in the commands they expand to. -/
inductive Pseudo where
  /-- `NOTEON note, vel, offset` -/
  | noteon (note : Note) (vel : Velocity) (off : Word)
  /-- `NOTEOFF note, offset` -/
  | noteoff (note : Note) (off : Word)
  /-- `OSQUARE v.o` -/
  | osquare (v o : BitVec 4)
  /-- `OPULSE v.o, width` -/
  | opulse (v o : BitVec 4) (width : Word)
  /-- `EADSR v.e, a, d, s, r` -/
  | eadsr (v e : BitVec 4) (a d s r : Word)
  /-- `TABSENT` -/
  | tabsent
  deriving DecidableEq, Repr

/-- The commands a pseudo-command stands for (R115); 1/2 in format S is `0x20000000`. -/
def Pseudo.expand : Pseudo → List Instr
  | .noteon note vel off => [.evpush true note vel off]
  | .noteoff note off => [.evpush false note 0 off]
  | .osquare v o => [.osetsh v o 2, .osetdw v o 0x20000000]
  | .opulse v o width => [.osetsh v o 2, .osetdw v o width]
  | .eadsr v e a d s r => [.eset v e 0 a, .eset v e 1 d, .eset v e 2 s, .eset v e 3 r]
  | .tabsent => [.tclr 7]

end Sys2Proof
end

