-- ==== Sys2Proof/Machine/Control.lean ====
section
/-! DEFINITION. The control agent CTL (00_scope.md R10): its commands on the control port
(30_encoding.md R100) and the visibility of its parameter writes (20_memory.md R77, R78).

When CTL's commands are taken and how long its writes wait are scheduling draws (log 16, 17). -/

namespace Sys2Proof.Machine

/-- Take one command from the control port, if a whole one stands there: a `PWR` is appended to
`PEND[k]` (R78, 46_system_io.md R305); anything else is an invalid command (R100, R112 (b)). -/
def State.ctlCommand (s : State) : State :=
  match decode s.ctlPort with
  | .incomplete => s
  | .reserved _ rest => ({ s with ctlPort := rest } : State).invalid
  | .instr (.pwr k payload) rest =>
    { s with
      ctlPort := rest
      pend := s.pend ++ [{ k := k, payload := payload, delay := Config.ctlDelay s.draws }]
      draws := s.draws + 1 }
  | .instr _ rest => ({ s with ctlPort := rest } : State).invalid

/-- Take up to `n` commands from the control port. -/
def State.ctlCommands : Nat → State → State
  | 0, s => s
  | n + 1, s => State.ctlCommands n s.ctlCommand

/-- CTL issues some of the commands waiting on its port: how many is a draw (log 17). -/
def State.ctlIssue (s : State) : State :=
  match s.ctlPort with
  | [] => s
  | _ :: _ => State.ctlCommands (Config.ctlTake s.draws) { s with draws := s.draws + 1 }

/-- One pass over the pending writes in issue order: a write whose wait is over becomes visible
unless an earlier write to the same register is still pending (R78 (a)); `blocked` holds the
registers of the writes kept so far. The other writes wait one point less. -/
def makeVisible : List Pending → List ParIdx → Params → Params × List Pending
  | [], _, p => (p, [])
  | w :: ws, blocked, p =>
    if w.delay = 0 ∧ w.k ∉ blocked then makeVisible ws blocked (parWrite w.k w.payload p)
    else
      let r := makeVisible ws (w.k :: blocked) p
      (r.1, { w with delay := w.delay - 1 } :: r.2)

/-- Pending writes become visible (R78). -/
def State.applyPending (s : State) : State :=
  let r := makeVisible s.pend [] s.par
  { s with par := r.1, pend := r.2 }

/-- One of the points at which CTL can act on RT's view: between two commands, or between two
samples of one `VREND` (R77). -/
def State.ctlPoint (s : State) : State := s.ctlIssue.applyPending

end Sys2Proof.Machine
end

