-- ==== Sys2Proof/Machine/VoiceRender.lean ====
section
/-! DEFINITION. The voice and its per-sample render (44_voice.md): `VSTART`, `VSTOP`, `VREND`. -/

namespace Sys2Proof.Machine

/-! ### Starting and stopping a note -/

/-- `note_freq(note, p)`, two separate applications of `EXP2` (R222). -/
def noteFreq (tune : Q) (note : Note) (pitch : Int) : Q :=
  tune * exp2 (((note.val : Q) - 69) / 12) * exp2 ((pitch : Q) / 12)

/-- What `VSTART` does to a tonal oscillator (R221): frequency, increment, shape, and the phase when
`NOTE_START_PHASE` is set. -/
def Oscillator.startNote (c : Oscillator) (f inc : Q) (shape : Shape) (phase : Option Q) :
    Oscillator :=
  { c with freq := f, inc := inc, shape := shape, phase := phase.getD c.phase }

/-- `VSTART` on the voice (R221, R224, R225). -/
def Voice.startNote (c : Cfg) (p : Params) (sr : Nat) (note : Note) (vel : Velocity) (vc : Voice) :
    Voice :=
  let f := noteFreq c.tuneA4 note p.pitch
  let inc := f / (sr : Q)
  { vc with
    tonalLow := vc.tonalLow.startNote f inc c.tonalLowShape c.noteStartPhase
    pulse1 := vc.pulse1.startNote f inc .pulse c.noteStartPhase
    pulse2 := vc.pulse2.startNote f inc .pulse c.noteStartPhase
    envMain := Envelope.on { vc.envMain with
      par :=
        { attackTime := p.att, decayTime := p.dec, sustainLevel := p.sus, releaseTime := p.rel } }
    envA := Envelope.on { vc.envA with par := c.percEnvA }
    envB := Envelope.on { vc.envB with par := c.percEnvB }
    note := some note
    vel := vel
    state := .playing }

/-- `VSTOP` on a playing voice (R226): tail-off releases all three envelopes, a hard cut idles them
and the voice. -/
def Voice.stopNote (tail : Bool) (vc : Voice) : Voice :=
  if tail then vc.mapEnvs Envelope.off
  else { vc.mapEnvs Envelope.cut with lastenv := 0, hold := 0, state := .idle, note := none }

/-! ### One sample (R227) -/

/-- What step 3 hands on: the voice, the sample (`none` is `skip`), and the draw counter. -/
structure Source where
  voice : Voice
  sample : Option Q
  draws : Nat
  deriving DecidableEq, Repr

/-- Step 1 (R230): the main envelope advances and `lastenv` takes its level. -/
def Voice.stepMain (sr : Nat) (vc : Voice) : Voice :=
  { vc with envMain := vc.envMain.tick sr, lastenv := (vc.envMain.tick sr).level }

/-- Step 2 (R231): the LFO takes its shape and rate from the snapshot and is processed once; its
value is `shapeEval` of the result's `lfo`. -/
def Voice.stepLfo (p : Params) (sr : Nat) (vc : Voice) : Voice :=
  { vc with
    lfo := Oscillator.advance { vc.lfo with
      shape := lfoShape p.lfowave, freq := p.lforate, inc := p.lforate / (sr : Q) } }

/-- Step 3, tonal-low mode (R233). -/
def sourceLow (vc : Voice) (lvl : Q) (draws : Nat) : Source where
  voice := { vc with tonalLow := vc.tonalLow.advance }
  sample := some (vc.tonalLow.advance.shapeEval * lvl)
  draws := draws

/-- Step 3, tonal-pulse mode (R234): both pulse oscillators advance, one value is kept. -/
def sourcePulse (p : Params) (vc : Voice) (lvl : Q) (inAtk : Bool) (draws : Nat) : Source :=
  let a := Oscillator.advance { vc.pulse1 with duty := pwDec p.pw1 }
  let b := Oscillator.advance { vc.pulse2 with duty := pwDec p.pw2 }
  let kept := if a.duty = b.duty ∨ inAtk then a.shapeEval else b.shapeEval
  { voice := { vc with pulse1 := a, pulse2 := b }, sample := some (kept * lvl), draws := draws }

/-- Step 3, percussive-noise mode (R236); each use of `NOISE` is a fresh draw (R7). -/
def sourcePerc (c : Cfg) (sr : Nat) (vc : Voice) (lvl : Q) (draws : Nat) : Source :=
  if vc.note = some c.percNoteA then
    let g := vc.envA.tick sr
    let r := Config.percFiltA vc.fa (Config.noise draws)
    { voice := { vc with envA := g, fa := r.1 }, sample := some (r.2 * g.level), draws := draws + 1 }
  else if vc.note = some c.percNoteB then
    let g := vc.envB.tick sr
    let r := Config.percFiltB vc.fb (Config.noise draws)
    { voice := { vc with envB := g, fb := r.1 }, sample := some (r.2 * g.level), draws := draws + 1 }
  else if vc.note = some c.percNoteGen then
    { voice := vc, sample := some (Config.noise draws * lvl), draws := draws + 1 }
  else { voice := vc, sample := none, draws := draws }

/-- Step 3, the branch on the snapshot's `MODE` (R232). -/
def sourceOf (c : Cfg) (p : Params) (sr : Nat) (vc : Voice) (lvl : Q) (inAtk : Bool)
    (draws : Nat) : Source :=
  match p.mode.val with
  | 0 => sourceLow vc lvl draws
  | 1 => sourcePulse p vc lvl inAtk draws
  | _ => sourcePerc c sr vc lvl draws

/-- Step 4 (R237): crush, but for percussive noise unless `CRUSH_NOISE`. -/
def stepCrush (c : Cfg) (p : Params) (lfo x : Q) : Q :=
  if p.mode.val ≠ 2 ∨ c.crushNoise then crush p x lfo else x

/-- Step 7 (R239): a voice whose main envelope is inactive becomes Idle. -/
def Voice.stepEnd (vc : Voice) : Voice :=
  if vc.envMain.isActive then vc else { vc with state := .idle, note := none }

/-- `render_sample(v, i)` on the voice, with the parameter snapshot `p` (R227, R229): steps 1 to 5
and 7. The sample is what step 6 adds into every channel; `none` when steps 4 to 6 are skipped. -/
def Voice.render (c : Cfg) (p : Params) (sr draws i : Nat) (vc : Voice) : Source :=
  let v1 := vc.stepMain sr
  let v2 := v1.stepLfo p sr
  let src := sourceOf c p sr v2 v1.lastenv (risesFrom vc.lastenv v1.lastenv) draws
  match src.sample with
  | none => { src with voice := src.voice.stepEnd }
  | some x =>
    let r := src.voice.decim p.div i (stepCrush c p v2.lfo.shapeEval x)
    { voice := r.2.stepEnd, sample := some r.1, draws := src.draws }

/-- `render_sample(v, i)` on the machine: the voice, and step 6, `OutAdd` into every channel
(R238). -/
def State.renderSample (s : State) (v : BitVec 4) (i : Nat) : State :=
  match s.voice? v with
  | none => s
  | some vc =>
    let r := vc.render s.cfg s.par s.sr s.draws i
    let t : State := { s.setVoice v r.voice with draws := r.draws }
    match r.sample with
    | none => t
    | some x => { t with out := outAddAll s.out i x }

/-- Whether voice `v` is Playing. -/
def State.voicePlaying (s : State) (v : BitVec 4) : Bool :=
  match s.voice? v with
  | none => false
  | some vc => vc.isPlaying

/-- The samples `i .. i+n-1` of a playing voice (R240); it stops at the sample on which the voice
becomes Idle. Between two samples control writes may become visible (20_memory.md R77). -/
def State.renderRun (v : BitVec 4) : Nat → Nat → State → State
  | 0, _, s => s
  | n + 1, i, s =>
    if n = 0 ∨ (s.renderSample v i).voicePlaying v = false then s.renderSample v i
    else State.renderRun v n (i + 1) (s.renderSample v i).ctlPoint

/-! ### The commands -/

/-- `VSTART` (R221). -/
def execVstart (v : BitVec 4) (note : Note) (vel : Velocity) (s : State) : StepOutcome State :=
  needRate s <| onVoice s v fun vc =>
    .next (s.setVoice v (vc.startNote s.cfg s.par s.sr note vel))

/-- `VSTOP` (R226). -/
def execVstop (v : BitVec 4) (tail : Bool) (s : State) : StepOutcome State :=
  onVoice s v fun vc =>
    if vc.isPlaying then .next (s.setVoice v (vc.stopNote tail)) else .next s

/-- `VREND` (R240); invalid past `BLKMAX` (R112 (g)), nothing on an idle voice. -/
def execVrend (v : BitVec 4) (start count : BitVec 16) (s : State) : StepOutcome State :=
  needRate s <| onVoice s v fun vc =>
    if s.cfg.blkmax < start.toNat + count.toNat then .next s.invalid
    else if vc.isPlaying then .next (State.renderRun v count.toNat start.toNat s)
    else .next s

end Sys2Proof.Machine
end

