-- ==== Sys2Proof/Machine/Dispatch.lean ====
section
/-! DEFINITION. One arm per command of the opcode table (30_encoding.md R109), each one call of its
meaning. -/

namespace Sys2Proof.Machine

def exec (i : Instr) (s : State) : Host.Outcome State Fault Refusal :=
  match i with
  | .nop => Sys2Proof.Machine.execNop s
  | .reset => Sys2Proof.Machine.execReset s
  | .outclr => Sys2Proof.Machine.execOutclr s
  | .outrd c index => Sys2Proof.Machine.execOutrd c index s
  | .prd k => Sys2Proof.Machine.execPrd k s
  | .tclr mask => Sys2Proof.Machine.execTclr mask s
  | .tplay play => Sys2Proof.Machine.execTplay play s
  | .osetsh v o code => Sys2Proof.Machine.execOsetsh v o code s
  | .oproc v o => Sys2Proof.Machine.execOproc v o s
  | .eon v e => Sys2Proof.Machine.execEon v e s
  | .eoff v e => Sys2Proof.Machine.execEoff v e s
  | .etick v e => Sys2Proof.Machine.execEtick v e s
  | .eact v e => Sys2Proof.Machine.execEact v e s
  | .vstart v note vel => Sys2Proof.Machine.execVstart v note vel s
  | .vstop v tail => Sys2Proof.Machine.execVstop v tail s
  | .ablock n => Sys2Proof.Machine.execAblock n s
  | .evpop => Sys2Proof.Machine.execEvpop s
  | .prepare rate => Sys2Proof.Machine.execPrepare rate s
  | .pwr k payload => Sys2Proof.Machine.execPwr k payload s
  | .tpos x => Sys2Proof.Machine.execTpos x s
  | .tbpm x => Sys2Proof.Machine.execTbpm x s
  | .osetf v o f => Sys2Proof.Machine.execOsetf v o f s
  | .osetp v o p => Sys2Proof.Machine.execOsetp v o p s
  | .osetdw v o d => Sys2Proof.Machine.execOsetdw v o d s
  | .osetcy v o j x => Sys2Proof.Machine.execOsetcy v o j x s
  | .eset v e j x => Sys2Proof.Machine.execEset v e j x s
  | .vrend v start count => Sys2Proof.Machine.execVrend v start count s
  | .dhold v index x => Sys2Proof.Machine.execDhold v index x s
  | .evpush on note vel off => Sys2Proof.Machine.execEvpush on note vel off s
  | .crush x m => Sys2Proof.Machine.execCrush x m s

end Sys2Proof.Machine
end

