-- ==== Sys2Proof/Machine/Step.lean ====
section
/-! DEFINITION. One step of NSC: a point at which the control agent may act (20_memory.md R77), then
the next whole command of the command port (30_encoding.md R103, R113). -/

namespace Sys2Proof.Machine

/-- Run what stands decoded at the head of the command port: a command's meaning with its words
consumed; `invalid()` for a reserved opcode (R111, R112 (a)); nothing while a command is incomplete
(R103: "leaves NSC waiting"; log 22). -/
def State.runDecoded (s : State) : Decoded → StepOutcome State
  | .incomplete => .next s
  | .reserved _ rest => .next ({ s with cmdPort := rest } : State).invalid
  | .instr i rest => exec i { s with cmdPort := rest }

/-- One step. -/
def step (s : State) : Host.Outcome State Fault Refusal :=
  s.ctlPoint.runDecoded (decode s.ctlPoint.cmdPort)

/-- `s` with the words of one command at the head of the command port: what the host's agent RT does
to have a command run (R100; log 2). -/
def State.withFetchWord (s : State) (nbits w : Nat) : State :=
  { s with cmdPort := tableWords nbits w ++ s.cmdPort }

end Sys2Proof.Machine
end

