-- ==== Sys2Proof/Safety.lean ====
section
/-! DEFINITION. What counts as a legal state of NSC, in the words the claims use: the invariants the
spec states (10_state.md R24, R27, R29 (a), R33, R36, R40, R52) and the ranges of the implementation
parameters (00_scope.md R5), and the views of a state that the claims read. -/

namespace Sys2Proof.Machine

/-! ### Legal values -/

/-- A value of [0,1]. -/
abbrev Unit01 (x : Q) : Prop := 0 ≤ x ∧ x ≤ 1

/-- A legal oscillator (R22, R24): (a) the phase, (b) the increment whenever `SRV = 1`, (d) the duty,
and the cycle registers. -/
structure Oscillator.Legal (srv : Bool) (sr : Nat) (c : Oscillator) : Prop where
  phase_nonneg : 0 ≤ c.phase
  phase_lt_one : c.phase < 1
  inc_eq : srv = true → c.inc = c.freq / (sr : Q)
  duty : Unit01 c.duty
  ca : Unit01 c.ca
  cd : Unit01 c.cd
  ch : Unit01 c.ch
  cr : Unit01 c.cr
  cs : Unit01 c.cs

/-- Legal latched parameters (R25): times at least 0, the level in [0,1]. -/
structure AdsrLegal (a : Adsr) : Prop where
  attackTime : 0 ≤ a.attackTime
  decayTime : 0 ≤ a.decayTime
  sustainLevel : Unit01 a.sustainLevel
  releaseTime : 0 ≤ a.releaseTime

/-- A legal envelope (R25, R27 (a), (b)). -/
structure Envelope.Legal (e : Envelope) : Prop where
  level : Unit01 e.level
  start : Unit01 e.start
  idle_level : e.stage = .idle → e.level = 0
  par : AdsrLegal e.par

/-- A legal voice (R22, R25, R28, R29 (a)). -/
structure Voice.Legal (srv : Bool) (sr : Nat) (vc : Voice) : Prop where
  osc : ∀ o, (vc.osc o).Legal srv sr
  env : ∀ e, (vc.env e).Legal
  idle_iff : vc.state = .idle ↔ vc.note = none
  lastenv : Unit01 vc.lastenv

/-- Parameter registers that hold legal values (R41 to R56; the other registers' types hold only
legal values). -/
structure Params.Legal (p : Params) : Prop where
  att : 0 ≤ p.att ∧ p.att < 32768
  dec : 0 ≤ p.dec ∧ p.dec < 32768
  sus : Unit01 p.sus
  rel : 0 ≤ p.rel ∧ p.rel < 32768
  pitch : -12 ≤ p.pitch ∧ p.pitch ≤ 12
  div : 1 ≤ p.div ∧ p.div ≤ 65535
  bits : 1 ≤ p.bits ∧ p.bits ≤ 32
  lfoamt : -32768 ≤ p.lfoamt ∧ p.lfoamt < 32768
  lforate : 0 ≤ p.lforate ∧ p.lforate < 32768
  fbpm : 1 ≤ p.fbpm ∧ p.fbpm < 32768

/-- Implementation parameters within the ranges of R5. -/
structure CfgLegal (c : Cfg) : Prop where
  blkmax : 1 ≤ c.blkmax ∧ c.blkmax ≤ 65535
  evqDepth : 1 ≤ c.evqDepth
  tuneA4 : 0 < c.tuneA4
  noteStartPhase : ∀ φ, c.noteStartPhase = some φ → 0 ≤ φ ∧ φ < 1
  percNotes : c.percNoteA ≠ c.percNoteB ∧ c.percNoteA ≠ c.percNoteGen ∧ c.percNoteB ≠ c.percNoteGen
  percEnvA : AdsrLegal c.percEnvA
  percEnvB : AdsrLegal c.percEnvB

/-- A queue within its capacity, every offset below 2^32 (R36). -/
def QueueLegal (depth : Nat) (q : List Event) : Prop :=
  q.length ≤ depth ∧ ∀ ev ∈ q, ev.off < 2 ^ 32

/-- An output channel in canonical form, all of its samples below `BLKMAX` (R37). -/
def Memory.Legal (blkmax : Nat) (m : Memory) : Prop := Memory.wf m ∧ ∀ p ∈ m, p.1 < blkmax

/-- A legal state: the spec's invariants (R24, R27 (a) (b), R29 (a), R30, R36, R40) hold. -/
structure State.Inv (s : State) : Prop where
  nv : 1 ≤ s.voices.length ∧ s.voices.length ≤ 16
  nch : 1 ≤ s.out.length ∧ s.out.length ≤ 16
  cfg : CfgLegal s.cfg
  sr : 1 ≤ s.sr
  voices : ∀ vc ∈ s.voices, vc.Legal s.srv s.sr
  par : s.par.Legal
  evin : QueueLegal s.cfg.evqDepth s.evin
  evout : QueueLegal s.cfg.evqDepth s.evout
  out : ∀ m ∈ s.out, Memory.Legal s.cfg.blkmax m

/-! ### Views -/

/-- The value of the field `S` that names an oscillator (R23). -/
def oscNum : OscIdx → BitVec 4
  | .tonalLow => 0
  | .pulse1 => 1
  | .pulse2 => 2
  | .lfo => 3

/-- The value of the field `S` that names an envelope (R25). -/
def envNum : EnvIdx → BitVec 4
  | .main => 0
  | .auxA => 1
  | .auxB => 2

/-- The shape code that `OSETSH` carries for a shape (30_encoding.md R106). -/
def shapeNum : Shape → BitVec 3
  | .tri => 0
  | .sine => 1
  | .pulse => 2
  | .cyc => 3

/-- The voice registers `VOICE[v]` (R28), without the units the voice owns. -/
structure VoiceRegs where
  state : VoiceState
  note : Option Note
  vel : Velocity
  hold : Q
  lastenv : Q
  fa : List Q
  fb : List Q
  deriving DecidableEq, Repr

/-- `VOICE[v]` of a voice. -/
def Voice.regs (vc : Voice) : VoiceRegs where
  state := vc.state
  note := vc.note
  vel := vc.vel
  hold := vc.hold
  lastenv := vc.lastenv
  fa := vc.fa
  fb := vc.fb

/-- `OSC[v][o]`; none when `v >= NV`. -/
def State.osc? (s : State) (v : BitVec 4) (o : OscIdx) : Option Oscillator :=
  (s.voice? v).map fun vc => vc.osc o

/-- `ENV[v][e]`; none when `v >= NV`. -/
def State.env? (s : State) (v : BitVec 4) (e : EnvIdx) : Option Envelope :=
  (s.voice? v).map fun vc => vc.env e

/-- `VOICE[v]`; none when `v >= NV`. -/
def State.regs? (s : State) (v : BitVec 4) : Option VoiceRegs := (s.voice? v).map Voice.regs

/-- `PEND[k]`: the payloads of the pending writes to register `k`, in issue order (20_memory.md
R78). -/
def State.pendOf (s : State) (k : ParIdx) : List Word :=
  (s.pend.filter fun w => w.k = k).map fun w => w.payload

/-- There are as many voices as before and all but `v` are the same. -/
def SameOtherVoices (v : BitVec 4) (s t : State) : Prop :=
  t.voices.length = s.voices.length ∧ ∀ w : BitVec 4, w ≠ v → t.voice? w = s.voice? w

/-- Among all unit registers only those of `OSC[v][o]` may differ; they are now `c`. -/
def OscUpdate (v : BitVec 4) (o : OscIdx) (c : Oscillator) (s t : State) : Prop :=
  t.osc? v o = some c ∧ (∀ j, j ≠ o → t.osc? v j = s.osc? v j) ∧
    (∀ e, t.env? v e = s.env? v e) ∧ t.regs? v = s.regs? v ∧ SameOtherVoices v s t

/-- Among all unit registers only those of `ENV[v][e]` may differ; they are now `n`. -/
def EnvUpdate (v : BitVec 4) (e : EnvIdx) (n : Envelope) (s t : State) : Prop :=
  t.env? v e = some n ∧ (∀ j, j ≠ e → t.env? v j = s.env? v j) ∧
    (∀ o, t.osc? v o = s.osc? v o) ∧ t.regs? v = s.regs? v ∧ SameOtherVoices v s t

/-- The value a write of the payload `e` leaves in `PAR[k]`, read back as a rational: the "write of
`w` stores" column of R57. -/
def parStored (k : ParIdx) (e : Word) : Q :=
  match k with
  | .mode => min (max (e.toInt : Q) 0) 2
  | .att => max ((e.toInt : Q) / 2 ^ 16) 0
  | .dec => max ((e.toInt : Q) / 2 ^ 16) 0
  | .sus => min (max ((e.toInt : Q) / 2 ^ 16) 0) 1
  | .rel => max ((e.toInt : Q) / 2 ^ 16) 0
  | .pw1 => min (max (e.toInt : Q) 0) 2
  | .pw2 => min (max (e.toInt : Q) 0) 2
  | .pitch => min (max (e.toInt : Q) (-12)) 12
  | .arpon => if e.toInt ≤ 0 then 0 else 1
  | .arprate => if e.toInt < 2 then 1 else if e.toInt < 4 then 2 else if e.toInt < 8 then 4 else 8
  | .div => min (max (e.toInt : Q) 1) 65535
  | .bits => min (max (e.toInt : Q) 1) 32
  | .lfoamt => (e.toInt : Q) / 2 ^ 16
  | .lforate => max ((e.toInt : Q) / 2 ^ 16) 0
  | .lfowave => min (max (e.toInt : Q) 0) 2
  | .fbpm => max ((e.toInt : Q) / 2 ^ 16) 1

/-- The commands that are invalid in a state, for a command on the command port: conditions (c) to
(g) of 30_encoding.md R112. -/
def InvalidCommand (s : State) : Instr → Prop
  | .nop => False
  | .reset => False
  | .outclr => False
  | .outrd c index => s.out.length ≤ c.toNat ∨ s.cfg.blkmax ≤ index.toNat
  | .prd _ => False
  | .tclr _ => False
  | .tplay _ => False
  | .osetsh v o code => s.voices.length ≤ v.toNat ∨ 3 < o.toNat ∨ 3 < code.toNat
  | .oproc v o => s.voices.length ≤ v.toNat ∨ 3 < o.toNat
  | .eon v e => s.voices.length ≤ v.toNat ∨ 2 < e.toNat
  | .eoff v e => s.voices.length ≤ v.toNat ∨ 2 < e.toNat
  | .etick v e => s.voices.length ≤ v.toNat ∨ 2 < e.toNat ∨ s.srv = false
  | .eact v e => s.voices.length ≤ v.toNat ∨ 2 < e.toNat
  | .vstart v _ _ => s.voices.length ≤ v.toNat ∨ s.srv = false
  | .vstop v _ => s.voices.length ≤ v.toNat
  | .ablock _ => s.srv = false
  | .evpop => False
  | .prepare _ => False
  | .pwr _ _ => False
  | .tpos _ => False
  | .tbpm _ => False
  | .osetf v o _ => s.voices.length ≤ v.toNat ∨ 3 < o.toNat ∨ s.srv = false
  | .osetp v o _ => s.voices.length ≤ v.toNat ∨ 3 < o.toNat
  | .osetdw v o _ => s.voices.length ≤ v.toNat ∨ 3 < o.toNat
  | .osetcy v o j _ => s.voices.length ≤ v.toNat ∨ 3 < o.toNat ∨ 4 < j.toNat
  | .eset v e _ _ => s.voices.length ≤ v.toNat ∨ 2 < e.toNat
  | .vrend v start count =>
    s.voices.length ≤ v.toNat ∨ s.srv = false ∨ s.cfg.blkmax < start.toNat + count.toNat
  | .dhold v _ _ => s.voices.length ≤ v.toNat
  | .evpush _ _ _ _ => False
  | .crush _ _ => False

/-- The voice a command acts on; none for a command that does not use `V` (30_encoding.md R109). -/
def voiceNamed : Instr → Option (BitVec 4)
  | .nop => none
  | .reset => none
  | .outclr => none
  | .outrd _ _ => none
  | .prd _ => none
  | .tclr _ => none
  | .tplay _ => none
  | .osetsh v _ _ => some v
  | .oproc v _ => some v
  | .eon v _ => some v
  | .eoff v _ => some v
  | .etick v _ => some v
  | .eact v _ => some v
  | .vstart v _ _ => some v
  | .vstop v _ => some v
  | .ablock _ => none
  | .evpop => none
  | .prepare _ => none
  | .pwr _ _ => none
  | .tpos _ => none
  | .tbpm _ => none
  | .osetf v _ _ => some v
  | .osetp v _ _ => some v
  | .osetdw v _ _ => some v
  | .osetcy v _ _ _ => some v
  | .eset v _ _ _ => some v
  | .vrend v _ _ => some v
  | .dhold v _ _ => some v
  | .evpush _ _ _ _ => none
  | .crush _ _ => none

/-- The bits of a command word that a row of R109 looks at, its opcode field included (R105, R109,
R110); a reserved opcode looks at the opcode alone. -/
def usedBits (opc : Nat) : Word :=
  match opc with
  | 0x03 => 0xFF0FFFFF
  | 0x04 => 0xFF00000F
  | 0x05 => 0xFF000007
  | 0x06 => 0xFF000001
  | 0x08 => 0xFFFF0007
  | 0x09 => 0xFFFF0000
  | 0x10 => 0xFFFF0000
  | 0x11 => 0xFFFF0000
  | 0x12 => 0xFFFF0000
  | 0x13 => 0xFFFF0000
  | 0x18 => 0xFFF07F7F
  | 0x19 => 0xFFF00001
  | 0x20 => 0xFF00FFFF
  | 0x41 => 0xFF00000F
  | 0x48 => 0xFFFF0000
  | 0x49 => 0xFFFF0000
  | 0x4A => 0xFFFF0000
  | 0x4B => 0xFFFF0007
  | 0x50 => 0xFFFF0003
  | 0x58 => 0xFFF00000
  | 0x59 => 0xFFF0FFFF
  | 0x60 => 0xFF00FF7F
  | _ => 0xFF000000

/-- The envelope is on the straight line of its stage (42_envelope.md R170): the stage's length in
ticks is at least 1 and not yet over, and the level is the one the line has after `cnt` ticks. -/
def Envelope.OnLine (sr : Nat) (e : Envelope) : Prop :=
  match e.stage with
  | .idle => e.level = 0
  | .attack =>
    (e.cnt : Q) < e.par.attackTime * (sr : Q) ∧ e.start ≤ 1 ∧
      e.level = e.start + (1 - e.start) * (e.cnt : Q) / (e.par.attackTime * (sr : Q))
  | .decay =>
    (e.cnt : Q) < e.par.decayTime * (sr : Q) ∧ e.start = 1 ∧
      e.level = e.start + (e.par.sustainLevel - e.start) * (e.cnt : Q) /
        (e.par.decayTime * (sr : Q))
  | .sustain => e.level = e.par.sustainLevel
  | .release =>
    (e.cnt : Q) < e.par.releaseTime * (sr : Q) ∧ 0 ≤ e.start ∧
      e.level = e.start * (1 - (e.cnt : Q) / (e.par.releaseTime * (sr : Q)))

/-- The slope of the stage an envelope is in: how far its level moves in one tick (R181). -/
def Envelope.slope (sr : Nat) (e : Envelope) : Q :=
  match e.stage with
  | .idle => 0
  | .attack => (1 - e.start) / (e.par.attackTime * (sr : Q))
  | .decay => (e.start - e.par.sustainLevel) / (e.par.decayTime * (sr : Q))
  | .sustain => 0
  | .release => e.start / (e.par.releaseTime * (sr : Q))

/-- A run of NSC is safe so far: the state is legal and every command was valid and no queue
overflowed (10_state.md R31). -/
def State.Safe (s : State) : Prop := s.Inv ∧ s.badcmd = false

end Sys2Proof.Machine
end

