-- ==== Sys2Proof/WellFormed.lean ====
section
/-! DEFINITION. The checks of a command that need neither the state nor the configuration: the
fields that name nothing on any NSC (30_encoding.md R112 (d) for oscillators and envelopes, (e)). A
command that fails one of them is still a command; its meaning is `invalid()` in every state. -/

namespace Sys2Proof

/-- An oscillator index is 0..3 (10_state.md R23, R112 (d)). -/
def oscFieldOk (o : BitVec 4) : Bool := o.toNat ≤ 3

/-- An envelope index is 0..2 (R25, R112 (d)). -/
def envFieldOk (e : BitVec 4) : Bool := e.toNat ≤ 2

/-- A shape code is 0..3 (R106, R112 (e)). -/
def shapeCodeOk (code : BitVec 3) : Bool := code.toNat ≤ 3

/-- A cycle selector is 0..4 (R107, R112 (e)). -/
def cycleSelOk (j : BitVec 3) : Bool := j.toNat ≤ 4

/-- No field of the command is one that R112 (d) (oscillator, envelope) or (e) refuses. -/
def Instr.wellFormed : Instr → Bool
  | .nop => true
  | .reset => true
  | .outclr => true
  | .outrd _ _ => true
  | .prd _ => true
  | .tclr _ => true
  | .tplay _ => true
  | .osetsh _ o code => oscFieldOk o && shapeCodeOk code
  | .oproc _ o => oscFieldOk o
  | .eon _ e => envFieldOk e
  | .eoff _ e => envFieldOk e
  | .etick _ e => envFieldOk e
  | .eact _ e => envFieldOk e
  | .vstart _ _ _ => true
  | .vstop _ _ => true
  | .ablock _ => true
  | .evpop => true
  | .prepare _ => true
  | .pwr _ _ => true
  | .tpos _ => true
  | .tbpm _ => true
  | .osetf _ o _ => oscFieldOk o
  | .osetp _ o _ => oscFieldOk o
  | .osetdw _ o _ => oscFieldOk o
  | .osetcy _ o j _ => oscFieldOk o && cycleSelOk j
  | .eset _ e _ _ => envFieldOk e
  | .vrend _ _ _ => true
  | .dhold _ _ _ => true
  | .evpush _ _ _ _ => true
  | .crush _ _ => true

end Sys2Proof
end

