-- ==== Sys2Proof/Certificates/Slice0/Obligations.lean ====
section
/-! DEFINITION. The statements for the provers, `def Obligations.<Name> : Prop`. Each docstring names
the rule of spec/ it formalises; OBLIGATIONS.json lists them. Operand formats are written out
(00_scope.md R12): a word `e` in format R is `e.toInt / 2^16`, in format S `e.toInt / 2^30`. -/

open Sys2Proof Sys2Proof.Machine

/-! ### Encoding -/

/-- Decoding the words of a command gives the command back, whatever stands after them (30_encoding.md
R100, R105, R109, R113). -/
def Obligations.DecodeOfEncode : Prop :=
  ∀ (i : Instr) (rest : List Word), decode (encode i ++ rest) = .instr i rest

/-- R102: the number of extension words is the top two bits of the first word, for every opcode,
defined or not; a command is taken whole (R103). It decodes to a command, one that is written with the
same opcode, exactly when the opcode is one of the thirty of R109; every other opcode is reserved
(R111). -/
def Obligations.DecodeConsumesWholeCommand : Prop :=
  ∀ (w : Word) (rest : List Word) (opc : ℕ), opc = w.toNat / 2 ^ 24 →
    (rest.length < w.toNat / 2 ^ 30 → decode (w :: rest) = .incomplete) ∧
    (w.toNat / 2 ^ 30 ≤ rest.length →
      (opc ∈ [0x00, 0x01, 0x02, 0x03, 0x04, 0x05, 0x06, 0x08, 0x09, 0x10, 0x11, 0x12, 0x13, 0x18,
          0x19, 0x20, 0x21, 0x40, 0x41, 0x42, 0x43, 0x48, 0x49, 0x4A, 0x4B, 0x50, 0x58, 0x59, 0x60,
          0x80] →
        ∃ i, decode (w :: rest) = .instr i (rest.drop (w.toNat / 2 ^ 30)) ∧
          ((encode i).headD 0).toNat / 2 ^ 24 = opc) ∧
      (opc ∉ [0x00, 0x01, 0x02, 0x03, 0x04, 0x05, 0x06, 0x08, 0x09, 0x10, 0x11, 0x12, 0x13, 0x18,
          0x19, 0x20, 0x21, 0x40, 0x41, 0x42, 0x43, 0x48, 0x49, 0x4A, 0x4B, 0x50, 0x58, 0x59, 0x60,
          0x80] →
        decode (w :: rest) =
          .reserved (w.extractLsb' 24 8) (rest.drop (w.toNat / 2 ^ 30))))

/-- R110: two command words that agree on the bits their row uses decode to the same command. -/
def Obligations.ReservedBitsIgnored : Prop :=
  ∀ (w w' e1 e2 : Word), w &&& usedBits (w.toNat / 2 ^ 24) = w' &&& usedBits (w.toNat / 2 ^ 24) →
    decodeWords w e1 e2 = decodeWords w' e1 e2

/-- Words written out from R109 and the examples of 41_oscillator.md to 46_system_io.md and
95_test_vectors.md decode to the commands they stand for. -/
def Obligations.SpecWordsDecode : Prop :=
  decode [0x40000000, 0x0000BB80] = .instr (.prepare 48000) [] ∧
  decode [0x48000000, 0x17700000] = .instr (.osetf 0 0 (BitVec.ofNat 32 (6000 * 65536))) [] ∧
  decode [0x03010005] = .instr (.outrd 1 5) [] ∧
  decode [0x18006445] = .instr (.vstart 0 69 100) [] ∧
  decode [0x58000000, 0x000C0004] = .instr (.vrend 0 12 4) [] ∧
  decode [0x6000E43C, 0x00000000] = .instr (.evpush true 60 100 0) [] ∧
  decode [0x4100000A, 0x00000000] = .instr (.pwr .div 0) [] ∧
  decode [0x50000002, 0x00008000] = .instr (.eset 0 0 2 32768) [] ∧
  decode [0x80000000, 0x20000000, 0xC0000000] = .instr (.crush 0x20000000 0xC0000000) []

/-! ### The step -/

/-- When the words at the head of the command port are a command, a step is that command's meaning
at the state after the control agent's point (20_memory.md R77; one point per step, before the fetch,
is the model's choice, log 18), the words consumed (R103). -/
def Obligations.StepRunsDecodedCommand : Prop :=
  ∀ (s : State) (i : Instr) (rest : List Word), decode s.cmdPort = .instr i rest →
    step s = exec i { s.ctlPoint with cmdPort := rest }

/-- R103: while a command's words have not all arrived NSC waits, no state changed but by the control
agent (that such a wait is a step is the model's choice, log 22). R111, R112 (a), R342: a reserved opcode consumes its words and only sets BADCMD. -/
def Obligations.IncompleteWaitsAndReservedIsInvalid : Prop :=
  (∀ s : State, decode s.cmdPort = .incomplete → step s = .next s.ctlPoint) ∧
  (∀ (s : State) (opc : BitVec 8) (rest : List Word), decode s.cmdPort = .reserved opc rest →
    step s = .next { s.ctlPoint with cmdPort := rest, badcmd := true })

/-- Every step keeps the invariants R24, R27 (a) (b), R29 (a), R30, R36 and R40. -/
def Obligations.StepKeepsInv : Prop :=
  ∀ s t : State, s.Inv → step s = .next t → t.Inv

/-- The state after power-on reset is legal (R58, R381: "every invariant of 10_state.md holds from
the first command"). For PAR, OUT and the envelopes' latched parameters this is about values the
model chose (log 10, 11, 12). -/
def Obligations.ResetIsLegal : Prop := State.reset.Inv

/-- R340: no command, with any operands, in any state, stops the command stream: every command and
every step answers a next state. -/
def Obligations.NothingStopsTheStream : Prop :=
  (∀ (i : Instr) (s : State), ∃ t, exec i s = .next t) ∧ ∀ s : State, ∃ t, step s = .next t

/-- R112 (c) to (g), R342: an invalid command sets BADCMD and changes no other state; a command with a
field that names nothing on any NSC is invalid in every state. -/
def Obligations.InvalidCommandOnlySetsBadcmd : Prop :=
  ∀ (i : Instr) (s : State), InvalidCommand s i ∨ i.wellFormed = false →
    exec i s = .next { s with badcmd := true }

/-- R31, R342: BADCMD is sticky: no command but RESET clears it. -/
def Obligations.BadcmdStaysSet : Prop :=
  ∀ (i : Instr) (s t : State), s.badcmd = true → exec i s = .next t →
    (i = .reset ∧ t.badcmd = false) ∨ (i ≠ .reset ∧ t.badcmd = true)

/-- R31: no rule's result depends on BADCMD: a state with the bit flipped leads to the same state but
for that bit. -/
def Obligations.BadcmdIsNeverRead : Prop :=
  ∀ (i : Instr) (s t : State) (b : Bool), exec i s = .next t →
    ∃ b', exec i { s with badcmd := b } = .next { t with badcmd := b' }

/-- R28: no command on voice v reads or writes a register of another voice: with any other contents
of voice w the command does the same, and leaves those contents as they are. -/
def Obligations.VoicesAreIsolated : Prop :=
  ∀ (i : Instr) (s t : State) (v w : BitVec 4) (vc : Voice),
    voiceNamed i = some v → w ≠ v → exec i s = .next t →
      exec i (s.setVoice w vc) = .next (t.setVoice w vc) ∧ SameOtherVoices v s t

/-! ### The control agent -/

/-- R350: agent CTL touches no unit, no queue, no output sample and no clock: at its points only
parameter registers, its pending writes, its port, BADCMD and the model's draw counter change. -/
def Obligations.CtlTouchesOnlyParameters : Prop :=
  ∀ s : State, s.ctlPoint =
    { s with
      par := s.ctlPoint.par, pend := s.ctlPoint.pend, ctlPort := s.ctlPoint.ctlPort
      badcmd := s.ctlPoint.badcmd, draws := s.ctlPoint.draws }

/-- R78, R305: a `PWR` on the control port, whatever its unused bits hold (R110), is appended to
`PEND[k]` and not visible at once; R100, R112 (a), (b): any other command there, one with a reserved
opcode too, is consumed and only sets BADCMD; R103: an incomplete one waits. -/
def Obligations.CtlCommandQueuesOrIsInvalid : Prop :=
  (∀ (s : State) (k : ParIdx) (e : Word) (rest : List Word),
    decode s.ctlPort = .instr (.pwr k e) rest →
      s.ctlCommand.pendOf k = s.pendOf k ++ [e] ∧
      (∀ j, j ≠ k → s.ctlCommand.pendOf j = s.pendOf j) ∧
      s.ctlCommand =
        { s with ctlPort := rest, pend := s.ctlCommand.pend, draws := s.ctlCommand.draws }) ∧
  (∀ (s : State) (i : Instr) (rest : List Word), (∀ k e, i ≠ .pwr k e) →
    decode s.ctlPort = .instr i rest →
      s.ctlCommand = { s with ctlPort := rest, badcmd := true }) ∧
  (∀ (s : State) (opc : BitVec 8) (rest : List Word), decode s.ctlPort = .reserved opc rest →
    s.ctlCommand = { s with ctlPort := rest, badcmd := true }) ∧
  (∀ s : State, decode s.ctlPort = .incomplete → s.ctlCommand = s)

/-- R78 (a): at every point, in every state, CTL may append to `PEND[k]`, and then some of the oldest
pending writes to a register become visible, in issue order: they leave `PEND[k]`, and the register
holds what the last of them stores; with none of them the register is unchanged. -/
def Obligations.CtlWritesBecomeVisibleInOrder : Prop :=
  ∀ (s : State) (k : ParIdx), s.pendOf k <+: s.ctlIssue.pendOf k ∧
    ∃ n, s.ctlPoint.pendOf k = (s.ctlIssue.pendOf k).drop n ∧
      parRead k s.ctlPoint.par =
        (((s.ctlIssue.pendOf k).take n).getLast?.map (parStored k)).getD (parRead k s.par)

/-- R78 (c): in every state, every pending write becomes visible after finitely many points: from some
point on, what is pending is exactly what would be pending had nothing been pending in the state, so
that every write pending in it has left, whatever CTL issues meanwhile; while CTL issues nothing,
nothing is pending from then on. The model has it from drawing a finite wait for each write when it
is issued (log 16). -/
def Obligations.CtlWritesBecomeVisible : Prop :=
  ∀ s : State, ∃ m, ∀ n, m ≤ n →
    (State.ctlPoint^[n] s).pend = (State.ctlPoint^[n] { s with pend := [] }).pend ∧
    (s.ctlPort = [] → (State.ctlPoint^[n] s).pend = [])

/-! ### Oscillators -/

/-- R142: `OSETF` sets `freq` to f and `inc` to f / SR; the phase and all other state stay. -/
def Obligations.OsetfSetsFrequency : Prop :=
  ∀ (s : State) (v : BitVec 4) (o : OscIdx) (f : Word) (c : Oscillator),
    s.srv = true → s.osc? v o = some c →
    ∃ t, exec (.osetf v (oscNum o) f) s = .next t ∧
      OscUpdate v o
        { c with freq := (f.toInt : ℚ) / 2 ^ 16, inc := (f.toInt : ℚ) / 2 ^ 16 / (s.sr : ℚ) } s t ∧
      t = { s with voices := t.voices }

/-- R143: `OSETP` sets the phase to the fractional part of p; all other state stays. -/
def Obligations.OsetpSetsPhase : Prop :=
  ∀ (s : State) (v : BitVec 4) (o : OscIdx) (p : Word) (c : Oscillator),
    s.osc? v o = some c →
    ∃ t, exec (.osetp v (oscNum o) p) s = .next t ∧
      OscUpdate v o { c with phase := Int.fract ((p.toInt : ℚ) / 2 ^ 30) } s t ∧
      t = { s with voices := t.voices }

/-- R144, R106: `OSETSH` sets the shape; all other state stays. -/
def Obligations.OsetshSetsShape : Prop :=
  ∀ (s : State) (v : BitVec 4) (o : OscIdx) (sh : Shape) (c : Oscillator),
    s.osc? v o = some c →
    ∃ t, exec (.osetsh v (oscNum o) (shapeNum sh)) s = .next t ∧
      OscUpdate v o { c with shape := sh } s t ∧ t = { s with voices := t.voices }

/-- R145: `OSETDW` sets the duty to d brought into [0,1]; all other state stays. -/
def Obligations.OsetdwSetsDuty : Prop :=
  ∀ (s : State) (v : BitVec 4) (o : OscIdx) (d : Word) (c : Oscillator),
    s.osc? v o = some c →
    ∃ t, exec (.osetdw v (oscNum o) d) s = .next t ∧
      OscUpdate v o { c with duty := min (max ((d.toInt : ℚ) / 2 ^ 30) 0) 1 } s t ∧
      t = { s with voices := t.voices }

/-- R146, R107: `OSETCY` sets the selected cycle register to x brought into [0,1]; all other state
stays. -/
def Obligations.OsetcySetsCycleRegister : Prop :=
  ∀ (s : State) (v : BitVec 4) (o : OscIdx) (e : Word) (c : Oscillator) (x : ℚ),
    s.osc? v o = some c → x = min (max ((e.toInt : ℚ) / 2 ^ 30) 0) 1 →
    ∀ (j : BitVec 3) (c' : Oscillator),
      (j = 0 ∧ c' = { c with ca := x }) ∨ (j = 1 ∧ c' = { c with cd := x }) ∨
      (j = 2 ∧ c' = { c with ch := x }) ∨ (j = 3 ∧ c' = { c with cr := x }) ∨
      (j = 4 ∧ c' = { c with cs := x }) →
      ∃ t, exec (.osetcy v (oscNum o) j e) s = .next t ∧ OscUpdate v o c' s t ∧
        t = { s with voices := t.voices }

/-- R147, R141, R149 to R153: `OPROC` advances the phase by `inc`, wraps it into [0,1), and returns
the shaper's value at the new phase φ; all other state stays. -/
def Obligations.OprocAdvancesAndReturnsSample : Prop :=
  ∀ (s : State) (v : BitVec 4) (o : OscIdx) (c : Oscillator) (φ : ℚ),
    s.osc? v o = some c → φ = Int.fract (c.phase + c.inc) →
    ∃ t x, exec (.oproc v (oscNum o)) s = .next t ∧ t.res = .num x ∧
      OscUpdate v o { c with phase := φ } s t ∧
      t = { s with voices := t.voices, res := t.res } ∧
      (c.shape = .tri → x = |φ - 1 / 2| - 1 / 4) ∧
      (c.shape = .sine → x = sin2pi φ) ∧
      (c.shape = .pulse → x = if φ ≤ c.duty then 1 / 2 else -1 / 2) ∧
      (c.shape = .cyc →
        (φ < c.ca → x = φ / c.ca) ∧
        (c.ca ≤ φ → φ < c.ca + c.cd → x = 1 - (1 - c.cs) * (φ - c.ca) / c.cd) ∧
        (c.ca ≤ φ → c.ca + c.cd ≤ φ → φ < c.ca + c.cd + c.ch → x = c.cs) ∧
        (c.ca ≤ φ → c.ca + c.cd ≤ φ → c.ca + c.cd + c.ch ≤ φ → φ < c.ca + c.cd + c.ch + c.cr →
          x = c.cs * (1 - (φ - c.ca - c.cd - c.ch) / c.cr)) ∧
        (c.ca ≤ φ → c.ca + c.cd ≤ φ → c.ca + c.cd + c.ch ≤ φ → c.ca + c.cd + c.ch + c.cr ≤ φ →
          x = 0))

/-- R156: the output ranges of `OPROC` by shape, in every legal state; R7: SIN2PI at the eight points
it fixes. -/
def Obligations.OprocOutputRanges : Prop :=
  (∀ (s t : State) (v : BitVec 4) (o : OscIdx) (c : Oscillator) (x : ℚ),
    s.Inv → s.osc? v o = some c → exec (.oproc v (oscNum o)) s = .next t → t.res = .num x →
      (c.shape = .tri → -1 / 4 ≤ x ∧ x ≤ 1 / 4) ∧
      (c.shape = .sine → -1 ≤ x ∧ x ≤ 1) ∧
      (c.shape = .pulse → x = -1 / 2 ∨ x = 1 / 2) ∧
      (c.shape = .cyc → 0 ≤ x ∧ x ≤ 1)) ∧
  sin2pi 0 = 0 ∧ sin2pi (1 / 4) = 1 ∧ sin2pi (1 / 2) = 0 ∧ sin2pi (3 / 4) = -1 ∧
  sin2pi (1 / 12) = 1 / 2 ∧ sin2pi (5 / 12) = 1 / 2 ∧
  sin2pi (7 / 12) = -1 / 2 ∧ sin2pi (11 / 12) = -1 / 2

/-! ### Envelopes -/

/-- R171, R107: `ESET` writes the selected latched parameter, brought into its legal set, and nothing
else. -/
def Obligations.EsetWritesLatchedParameter : Prop :=
  ∀ (s : State) (v : BitVec 4) (e : EnvIdx) (w : Word) (n : Envelope) (x : ℚ),
    s.env? v e = some n → x = (w.toInt : ℚ) / 2 ^ 16 →
    ∀ (j : BitVec 2) (p : Adsr),
      (j = 0 ∧ p = { n.par with attackTime := max x 0 }) ∨
      (j = 1 ∧ p = { n.par with decayTime := max x 0 }) ∨
      (j = 2 ∧ p = { n.par with sustainLevel := min (max x 0) 1 }) ∨
      (j = 3 ∧ p = { n.par with releaseTime := max x 0 }) →
      ∃ t, exec (.eset v (envNum e) j w) s = .next t ∧ EnvUpdate v e { n with par := p } s t ∧
        t = { s with voices := t.voices }

/-- R172: `EON` forces Attack from the current level with the clock at zero. R173: `EOFF` forces
Release the same way from any active stage and does nothing in Idle. Nothing else changes. -/
def Obligations.EonAndEoffForceStages : Prop :=
  ∀ (s : State) (v : BitVec 4) (e : EnvIdx) (n : Envelope), s.env? v e = some n →
    (∃ t, exec (.eon v (envNum e)) s = .next t ∧
      EnvUpdate v e { n with stage := .attack, start := n.level, cnt := 0 } s t ∧
      t = { s with voices := t.voices }) ∧
    (n.stage ≠ .idle → ∃ t, exec (.eoff v (envNum e)) s = .next t ∧
      EnvUpdate v e { n with stage := .release, start := n.level, cnt := 0 } s t ∧
      t = { s with voices := t.voices }) ∧
    (n.stage = .idle → exec (.eoff v (envNum e)) s = .next s)

/-- R175: `ETICK` in Attack. The attack step, `T` the attack's length in ticks; the level returned is
the one after the step; the division is reached only with a positive divisor. -/
def Obligations.EtickInAttack : Prop :=
  ∀ (s : State) (v : BitVec 4) (e : EnvIdx) (n : Envelope) (T : ℚ),
    s.srv = true → s.env? v e = some n → n.stage = .attack →
    T = n.par.attackTime * (s.sr : ℚ) →
    ∃ t n', exec (.etick v (envNum e)) s = .next t ∧ EnvUpdate v e n' s t ∧
      t = { s with voices := t.voices, res := .num n'.level } ∧
      (T ≤ ((n.cnt + 1 : ℕ) : ℚ) →
        n' = { n with level := 1, stage := .decay, start := 1, cnt := 0 }) ∧
      (((n.cnt + 1 : ℕ) : ℚ) < T → 0 < T ∧
        n' = { n with
          cnt := n.cnt + 1, level := n.start + (1 - n.start) * ((n.cnt + 1 : ℕ) : ℚ) / T })

/-- R176: `ETICK` in Decay. -/
def Obligations.EtickInDecay : Prop :=
  ∀ (s : State) (v : BitVec 4) (e : EnvIdx) (n : Envelope) (T : ℚ),
    s.srv = true → s.env? v e = some n → n.stage = .decay →
    T = n.par.decayTime * (s.sr : ℚ) →
    ∃ t n', exec (.etick v (envNum e)) s = .next t ∧ EnvUpdate v e n' s t ∧
      t = { s with voices := t.voices, res := .num n'.level } ∧
      (T ≤ ((n.cnt + 1 : ℕ) : ℚ) →
        n' = { n with
          level := n.par.sustainLevel, stage := .sustain, start := n.par.sustainLevel, cnt := 0 }) ∧
      (((n.cnt + 1 : ℕ) : ℚ) < T →
        n' = { n with
          cnt := n.cnt + 1
          level := n.start + (n.par.sustainLevel - n.start) * ((n.cnt + 1 : ℕ) : ℚ) / T })

/-- R177: `ETICK` in Sustain holds the sustain level; no count of ticks ends the stage. R174: in Idle
it returns 0 and writes only the level, 0. -/
def Obligations.EtickInSustainAndIdle : Prop :=
  ∀ (s : State) (v : BitVec 4) (e : EnvIdx) (n : Envelope), s.srv = true → s.env? v e = some n →
    (n.stage = .sustain → ∃ t, exec (.etick v (envNum e)) s = .next t ∧
      EnvUpdate v e { n with level := n.par.sustainLevel } s t ∧
      t = { s with voices := t.voices, res := .num n.par.sustainLevel }) ∧
    (n.stage = .idle → ∃ t, exec (.etick v (envNum e)) s = .next t ∧
      EnvUpdate v e { n with level := 0 } s t ∧
      t = { s with voices := t.voices, res := .num 0 })

/-- R178: `ETICK` in Release; the tick that completes the release returns 0 and leaves Idle. -/
def Obligations.EtickInRelease : Prop :=
  ∀ (s : State) (v : BitVec 4) (e : EnvIdx) (n : Envelope) (T : ℚ),
    s.srv = true → s.env? v e = some n → n.stage = .release →
    T = n.par.releaseTime * (s.sr : ℚ) →
    ∃ t n', exec (.etick v (envNum e)) s = .next t ∧ EnvUpdate v e n' s t ∧
      t = { s with voices := t.voices, res := .num n'.level } ∧
      (T ≤ ((n.cnt + 1 : ℕ) : ℚ) →
        n' = { n with level := 0, stage := .idle, start := 0, cnt := 0 }) ∧
      (((n.cnt + 1 : ℕ) : ℚ) < T →
        n' = { n with cnt := n.cnt + 1, level := n.start * (1 - ((n.cnt + 1 : ℕ) : ℚ) / T) })

/-- R180, R26: `EACT` returns whether the stage is not Idle and changes nothing else. -/
def Obligations.EactReportsActive : Prop :=
  ∀ (s : State) (v : BitVec 4) (e : EnvIdx) (n : Envelope), s.env? v e = some n →
    (n.stage = .idle → exec (.eact v (envNum e)) s = .next { s with res := .bool false }) ∧
    (n.stage ≠ .idle → exec (.eact v (envNum e)) s = .next { s with res := .bool true })

/-- R181, with R170: when every stage lasts at least one tick, an envelope on the line of its stage
moves by at most one tick's slope, stays on the line of its stage, and `EON` and `EOFF` keep its
level; R182: in Attack the level does not fall and rises strictly while `start < 1`, in Decay and
Release it does not rise. -/
def Obligations.EnvelopeLevelIsContinuous : Prop :=
  ∀ (sr : ℕ) (e : Envelope), e.Legal → e.OnLine sr →
    1 ≤ e.par.attackTime * (sr : ℚ) → 1 ≤ e.par.decayTime * (sr : ℚ) →
    1 ≤ e.par.releaseTime * (sr : ℚ) →
      |(e.tick sr).level - e.level| ≤ e.slope sr ∧ (e.tick sr).OnLine sr ∧
      e.on.level = e.level ∧ e.on.OnLine sr ∧ e.off.level = e.level ∧ e.off.OnLine sr ∧
      (e.stage = .attack → e.level ≤ (e.tick sr).level) ∧
      (e.stage = .attack → e.start < 1 → e.level < (e.tick sr).level) ∧
      (e.stage = .decay ∨ e.stage = .release → (e.tick sr).level ≤ e.level)

/-! ### Crusher and decimator -/

/-- R203, R201, R202: `CRUSH` returns `rnd(s * steps) / steps` with
`steps = EXP2(clamp(BITS + m * LFOAMT, 1, 24)) - 1` and changes nothing else. -/
def Obligations.CrushReturnsQuantised : Prop :=
  ∀ (s : State) (x m : Word) (steps : ℚ),
    steps = exp2 (min (max ((s.par.bits : ℚ) + (m.toInt : ℚ) / 2 ^ 30 * s.par.lfoamt) 1) 24) - 1 →
    exec (.crush x m) s =
      .next { s with res := .num (rnd ((x.toInt : ℚ) / 2 ^ 30 * steps) / steps) }

/-- R8: `rnd(x)` is an integer nearest to x, a tie goes away from zero, and `rnd(-x) = -rnd(x)`. -/
def Obligations.RoundingIsNearestTiesAway : Prop :=
  ∀ x : ℚ, (∃ z : ℤ, rnd x = z) ∧ |rnd x - x| ≤ 1 / 2 ∧ (|rnd x - x| = 1 / 2 → |x| < |rnd x|) ∧
    rnd (-x) = -rnd x

/-- R204: the quantiser's error is at most half a step of its grid, with equality exactly at the
ties; at the deepest setting the bound is 1/33554430. That the step count is at least 1 comes from
R202's hypothesis on EXP2, which the model builds in (log 5). -/
def Obligations.CrushErrorBound : Prop :=
  ∀ (p : Params) (s m : ℚ),
    |crush p s m - s| ≤ 1 / (2 * crushSteps p m) ∧
    (|crush p s m - s| = 1 / (2 * crushSteps p m) ↔ Int.fract (s * crushSteps p m) = 1 / 2) ∧
    (effDepth p m = 24 → 1 / (2 * crushSteps p m) = 1 / 33554430)

/-- R203 (c) to (e), R201, R202: the quantiser is odd and keeps 0, and keeps 1 and -1 whenever its step
count is an integer, as it is, `2^b - 1`, at every integer depth b; a base depth of 24 to 32 with no
modulation behaves as 24 (90_conflicts.md C2). R7: what is assumed of EXP2: `EXP2(n) = 2^n` at every
integer, positive everywhere, at least 2 from 1 on (the model builds it in, log 5). -/
def Obligations.CrushFixedPoints : Prop :=
  (∀ (p : Params) (s m : ℚ),
    crush p 0 m = 0 ∧ crush p (-s) m = -crush p s m ∧
    (∀ z : ℤ, crushSteps p m = z → crush p 1 m = 1 ∧ crush p (-1) m = -1) ∧
    (∀ b : ℕ, effDepth p m = b → crushSteps p m = 2 ^ b - 1) ∧
    (24 ≤ p.bits → m * p.lfoamt = 0 → crushSteps p m = 2 ^ 24 - 1)) ∧
  (∀ n : ℤ, exp2 n = (2 : ℚ) ^ n) ∧ (∀ x : ℚ, 0 < exp2 x) ∧ (∀ x : ℚ, 1 ≤ x → 2 ≤ exp2 x)

/-- R207, R206: `DHOLD` on an index that is a multiple of DIV returns the sample and holds it; on any
other index it returns the held value and changes only RES. -/
def Obligations.DholdHoldsOrReturnsHeld : Prop :=
  ∀ (s : State) (v : BitVec 4) (i : BitVec 16) (w : Word) (vc : Voice) (x : ℚ),
    s.voice? v = some vc → x = (w.toInt : ℚ) / 2 ^ 30 →
    (i.toNat % s.par.div = 0 → ∃ t, exec (.dhold v i w) s = .next t ∧
      t.voice? v = some { vc with hold := x } ∧ SameOtherVoices v s t ∧
      t = { s with voices := t.voices, res := .num x }) ∧
    (i.toNat % s.par.div ≠ 0 → exec (.dhold v i w) s = .next { s with res := .num vc.hold })

/-! ### Voices -/

/-- R221, R222, R224, R225: `VSTART`. Oscillators 0 to 2 take the note's frequency and their shapes,
and the start phase when there is one; the three envelopes take their parameters and start an attack
from their levels; the voice plays the note. The LFO, `hold`, `lastenv`, the filter states, the duty
and cycle registers and everything else stay. -/
def Obligations.VstartStartsNote : Prop :=
  ∀ (s : State) (v : BitVec 4) (note : Note) (vel : Velocity) (vc : Voice) (f : ℚ) (φ : ℚ → ℚ),
    s.srv = true → s.voice? v = some vc →
    f = s.cfg.tuneA4 * exp2 (((note.val : ℚ) - 69) / 12) * exp2 ((s.par.pitch : ℚ) / 12) →
    (∀ x, φ x = match s.cfg.noteStartPhase with | none => x | some y => y) →
    ∃ t, exec (.vstart v note vel) s = .next t ∧ SameOtherVoices v s t ∧
      t = { s with voices := t.voices } ∧
      t.osc? v .tonalLow = some { vc.tonalLow with
        freq := f, inc := f / (s.sr : ℚ), phase := φ vc.tonalLow.phase
        shape := s.cfg.tonalLowShape } ∧
      t.osc? v .pulse1 = some { vc.pulse1 with
        freq := f, inc := f / (s.sr : ℚ), phase := φ vc.pulse1.phase, shape := .pulse } ∧
      t.osc? v .pulse2 = some { vc.pulse2 with
        freq := f, inc := f / (s.sr : ℚ), phase := φ vc.pulse2.phase, shape := .pulse } ∧
      t.osc? v .lfo = some vc.lfo ∧
      t.env? v .main = some {
        stage := .attack, level := vc.envMain.level, start := vc.envMain.level, cnt := 0
        par := ⟨s.par.att, s.par.dec, s.par.sus, s.par.rel⟩ } ∧
      t.env? v .auxA = some {
        stage := .attack, level := vc.envA.level, start := vc.envA.level, cnt := 0
        par := s.cfg.percEnvA } ∧
      t.env? v .auxB = some {
        stage := .attack, level := vc.envB.level, start := vc.envB.level, cnt := 0
        par := s.cfg.percEnvB } ∧
      t.regs? v = some { vc.regs with note := some note, vel := vel, state := .playing }

/-- R226: `VSTOP`. On a playing voice a tail-off releases the active envelopes and leaves the voice
playing; a hard cut idles all three envelopes and the voice and clears `hold` and `lastenv`; on an
idle voice nothing happens. The oscillators are not touched. -/
def Obligations.VstopReleasesOrCuts : Prop :=
  ∀ (s : State) (v : BitVec 4) (vc : Voice), s.voice? v = some vc →
    (vc.state = .playing → ∃ t, exec (.vstop v true) s = .next t ∧ SameOtherVoices v s t ∧
      t = { s with voices := t.voices } ∧ (∀ o, t.osc? v o = s.osc? v o) ∧
      t.regs? v = s.regs? v ∧
      ∀ e, t.env? v e = some (if (vc.env e).stage = .idle then vc.env e
        else { vc.env e with stage := .release, start := (vc.env e).level, cnt := 0 })) ∧
    (vc.state = .playing → ∃ t, exec (.vstop v false) s = .next t ∧ SameOtherVoices v s t ∧
      t = { s with voices := t.voices } ∧ (∀ o, t.osc? v o = s.osc? v o) ∧
      t.regs? v =
        some { vc.regs with lastenv := 0, hold := 0, state := .idle, note := none } ∧
      ∀ e, t.env? v e = some { vc.env e with stage := .idle, level := 0, start := 0, cnt := 0 }) ∧
    (vc.state = .idle → ∀ tail, exec (.vstop v tail) s = .next s)

/-- R227, R230, R231, R233, R237 to R239: one sample of a playing voice in tonal-low mode. `n` is the
ticked main envelope, `l` the LFO and `c` oscillator 0 after their advance, `y` what is added into
every channel at index i. The LFO's shape by LFOWAVE is R55's table. -/
def Obligations.VrendTonalLowSample : Prop :=
  ∀ (s : State) (v : BitVec 4) (i : BitVec 16) (vc : Voice) (n : Envelope) (l c : Oscillator)
    (x y : ℚ),
    (∀ m ∈ s.out, Memory.wf m) →
    s.srv = true → s.voice? v = some vc → vc.state = .playing → i.toNat + 1 ≤ s.cfg.blkmax →
    s.par.mode = 0 → n = vc.envMain.tick s.sr →
    l = Oscillator.advance { vc.lfo with
      shape := if s.par.lfowave = 0 then .sine else if s.par.lfowave = 1 then .tri else .pulse
      freq := s.par.lforate
      inc := s.par.lforate / (s.sr : ℚ) } →
    c = vc.tonalLow.advance → x = crush s.par (c.shapeEval * n.level) l.shapeEval →
    y = (if i.toNat % s.par.div = 0 then x else vc.hold) →
    ∃ t, exec (.vrend v i 1) s = .next t ∧ SameOtherVoices v s t ∧
      t = { s with voices := t.voices, out := t.out } ∧
      t.voice? v = some { vc with
        tonalLow := c, lfo := l, envMain := n, lastenv := n.level, hold := y
        state := if n.stage = .idle then .idle else .playing
        note := if n.stage = .idle then none else vc.note } ∧
      t.out.length = s.out.length ∧
      ∀ ch j, outRead t.out ch j =
        (outRead s.out ch j).map fun q => if j = i.toNat then q + y else q

/-- R234, R235: one sample of a playing voice in tonal-pulse mode. Both pulse oscillators advance with
the widths of this sample's snapshot; pulse 1 is kept when the widths are equal or the level rose
above the previous sample's, else pulse 2. The widths `da` and `db` are R46's table, the LFO's shape
R55's. -/
def Obligations.VrendTonalPulseSample : Prop :=
  ∀ (s : State) (v : BitVec 4) (i : BitVec 16) (vc : Voice) (n : Envelope) (l a b : Oscillator)
    (da db kept x y : ℚ),
    (∀ m ∈ s.out, Memory.wf m) →
    s.srv = true → s.voice? v = some vc → vc.state = .playing → i.toNat + 1 ≤ s.cfg.blkmax →
    s.par.mode = 1 → n = vc.envMain.tick s.sr →
    l = Oscillator.advance { vc.lfo with
      shape := if s.par.lfowave = 0 then .sine else if s.par.lfowave = 1 then .tri else .pulse
      freq := s.par.lforate
      inc := s.par.lforate / (s.sr : ℚ) } →
    da = (if s.par.pw1 = 0 then 1 / 8 else if s.par.pw1 = 1 then 1 / 4 else 1 / 2) →
    db = (if s.par.pw2 = 0 then 1 / 8 else if s.par.pw2 = 1 then 1 / 4 else 1 / 2) →
    a = Oscillator.advance { vc.pulse1 with duty := da } →
    b = Oscillator.advance { vc.pulse2 with duty := db } →
    (s.par.pw1 = s.par.pw2 ∨ vc.lastenv < n.level → kept = a.shapeEval) →
    (s.par.pw1 ≠ s.par.pw2 → n.level ≤ vc.lastenv → kept = b.shapeEval) →
    x = crush s.par (kept * n.level) l.shapeEval →
    y = (if i.toNat % s.par.div = 0 then x else vc.hold) →
    ∃ t, exec (.vrend v i 1) s = .next t ∧ SameOtherVoices v s t ∧
      t = { s with voices := t.voices, out := t.out } ∧
      t.voice? v = some { vc with
        pulse1 := a, pulse2 := b, lfo := l, envMain := n, lastenv := n.level, hold := y
        state := if n.stage = .idle then .idle else .playing
        note := if n.stage = .idle then none else vc.note } ∧
      t.out.length = s.out.length ∧
      ∀ ch j, outRead t.out ch j =
        (outRead s.out ch j).map fun q => if j = i.toNat then q + y else q

/-- R236 to R239: one sample of a playing voice in percussive-noise mode. By the note, an auxiliary
envelope gates filtered noise, the main envelope shapes plain noise, or the sample is skipped: then
nothing is added and `hold` is not written. `d` is the free noise draw of this sample (log 6): one
fresh draw is used up on a sample that uses NOISE and none on a skipped one (R7). -/
def Obligations.VrendPercussiveSample : Prop :=
  ∀ (s : State) (v : BitVec 4) (i : BitVec 16) (vc : Voice) (n : Envelope) (l : Oscillator) (d : ℚ),
    (∀ m ∈ s.out, Memory.wf m) →
    s.srv = true → s.voice? v = some vc → vc.state = .playing → i.toNat + 1 ≤ s.cfg.blkmax →
    s.par.mode = 2 → n = vc.envMain.tick s.sr →
    l = Oscillator.advance { vc.lfo with
      shape := if s.par.lfowave = 0 then .sine else if s.par.lfowave = 1 then .tri else .pulse
      freq := s.par.lforate
      inc := s.par.lforate / (s.sr : ℚ) } →
    d = Config.noise s.draws →
    ∀ (w : Voice) (raw : Option ℚ),
      (vc.note = some s.cfg.percNoteA ∧
        w = { vc with envA := vc.envA.tick s.sr, fa := (Config.percFiltA vc.fa d).1 } ∧
        raw = some ((Config.percFiltA vc.fa d).2 * (vc.envA.tick s.sr).level)) ∨
      (vc.note ≠ some s.cfg.percNoteA ∧ vc.note = some s.cfg.percNoteB ∧
        w = { vc with envB := vc.envB.tick s.sr, fb := (Config.percFiltB vc.fb d).1 } ∧
        raw = some ((Config.percFiltB vc.fb d).2 * (vc.envB.tick s.sr).level)) ∨
      (vc.note ≠ some s.cfg.percNoteA ∧ vc.note ≠ some s.cfg.percNoteB ∧
        vc.note = some s.cfg.percNoteGen ∧ w = vc ∧ raw = some (d * n.level)) ∨
      (vc.note ≠ some s.cfg.percNoteA ∧ vc.note ≠ some s.cfg.percNoteB ∧
        vc.note ≠ some s.cfg.percNoteGen ∧ w = vc ∧ raw = none) →
      ∃ t, exec (.vrend v i 1) s = .next t ∧ SameOtherVoices v s t ∧
        t = { s with voices := t.voices, out := t.out, draws := t.draws } ∧
        t.out.length = s.out.length ∧
        (∀ x y, raw = some x →
          y = (if i.toNat % s.par.div = 0 then
              (if s.cfg.crushNoise then crush s.par x l.shapeEval else x) else vc.hold) →
          t.voice? v = some { w with
            lfo := l, envMain := n, lastenv := n.level, hold := y
            state := if n.stage = .idle then .idle else .playing
            note := if n.stage = .idle then none else vc.note } ∧
          t.draws = s.draws + 1 ∧
          ∀ ch j, outRead t.out ch j =
            (outRead s.out ch j).map fun q => if j = i.toNat then q + y else q) ∧
        (raw = none → t.draws = s.draws ∧
          t.voice? v = some { w with
            lfo := l, envMain := n, lastenv := n.level
            state := if n.stage = .idle then .idle else .playing
            note := if n.stage = .idle then none else vc.note } ∧
          ∀ ch j, outRead t.out ch j = outRead s.out ch j)

/-- R240, R82: `VREND` over a legal window completes. It touches voice v, the output samples of its
window and what the control agent may touch, and nothing else; RES is unchanged. On an idle voice,
or with count 0, nothing happens. -/
def Obligations.VrendFrame : Prop :=
  ∀ (s : State) (v : BitVec 4) (start count : BitVec 16) (vc : Voice),
    s.srv = true → s.voice? v = some vc → start.toNat + count.toNat ≤ s.cfg.blkmax →
    (∃ t, exec (.vrend v start count) s = .next t ∧ SameOtherVoices v s t ∧
      t.out.length = s.out.length ∧
      (∀ ch j, j < start.toNat ∨ start.toNat + count.toNat ≤ j →
        outRead t.out ch j = outRead s.out ch j) ∧
      t = { s with
        voices := t.voices, out := t.out, par := t.par, pend := t.pend, ctlPort := t.ctlPort
        badcmd := t.badcmd, draws := t.draws } ∧
      (s.pend = [] → s.ctlPort = [] →
        t.par = s.par ∧ t.pend = [] ∧ t.ctlPort = [] ∧ t.badcmd = s.badcmd)) ∧
    (vc.state = .idle ∨ count = 0 → exec (.vrend v start count) s = .next s)

/-- R240, R241: with no control write in flight, a window rendered in two pieces gives the same state
as the window rendered whole. -/
def Obligations.VrendWindowSplits : Prop :=
  ∀ (s t : State) (v : BitVec 4) (a n m : BitVec 16),
    s.pend = [] → s.ctlPort = [] → a.toNat + n.toNat + m.toNat ≤ s.cfg.blkmax →
    a.toNat + n.toNat + m.toNat < 65536 →
    exec (.vrend v a n) s = .next t →
    exec (.vrend v (a + n) m) t = exec (.vrend v a (n + m)) s

/-- R238, R74: the voice never reads the output buffer and never overwrites it: with other contents of
the buffer the same samples are added, and all other state comes out the same. -/
def Obligations.VrendAddsWhateverTheBufferHolds : Prop :=
  ∀ (s t : State) (v : BitVec 4) (start count : BitVec 16) (out : List Memory),
    (∀ m ∈ s.out, Memory.wf m) → (∀ m ∈ out, Memory.wf m) →
    out.length = s.out.length → exec (.vrend v start count) s = .next t →
    ∃ u, exec (.vrend v start count) { s with out := out } = .next u ∧
      u = { t with out := u.out } ∧
      ∀ ch j a b c, outRead s.out ch j = some a → outRead out ch j = some b →
        outRead t.out ch j = some c → outRead u.out ch j = some (b + (c - a))

/-! ### The arpeggiation clock -/

/-- R34: `nth(HELD, j)` runs through the held notes in ascending order, each once. -/
def Obligations.HeldNotesAscend : Prop :=
  ∀ h : BitVec 128, (heldNotes h).Pairwise (· < ·) ∧
    (∀ n : Note, n ∈ heldNotes h ↔ h.getLsbD n.val = true) ∧
    (∀ j, heldNth h j = (heldNotes h)[j]?) ∧ heldCount h = (heldNotes h).length

/-- R260 to R262, R264, R270: every `ABLOCK` takes the transport flags and position, empties EVIN, and
advances POS by n / qns, with the arpeggiator on or off; only the clock, the queues and BADCMD
change. -/
def Obligations.AblockAdvancesClock : Prop :=
  ∀ (s : State) (n : BitVec 16) (bpm : ℚ), s.srv = true →
    bpm = (if s.transport.tbpmv = true ∧ 0 < s.transport.tbpm then s.transport.tbpm
      else s.par.fbpm) →
    ∃ t, exec (.ablock n) s = .next t ∧
      t = { s with arp := t.arp, evin := [], evout := t.evout, badcmd := t.badcmd } ∧
      t.arp.pos = (if s.transport.tposv = true then s.transport.tpos else s.arp.pos) +
        (n.toNat : ℚ) / ((s.sr : ℚ) * 60 / bpm) ∧
      t.arp.wasPlaying = s.arp.playing ∧
      t.arp.playing = (if s.transport.tplayv = true then s.transport.tplay else s.arp.playing) ∧
      t.arp.held = heldAfter s.arp.held s.evin

/-- R261: after a block a note is held exactly when the last event for it in EVIN was a note-on, or it
has no event and was held before; offsets and velocities play no part. -/
def Obligations.HeldSetFollowsEvents : Prop :=
  ∀ (h : BitVec 128) (evs : List Event) (n : Note),
    (heldAfter h evs).getLsbD n.val =
      ((evs.reverse.find? fun ev => ev.note = n).map Event.on).getD (h.getLsbD n.val)

/-- R277: on a stop to start transition the block does the same whatever NIDX held before; a trigger of
the block, if any, plays nth(HELD, 0) (LAST holds it), and with no trigger NIDX is 0 at the end of
the block. -/
def Obligations.TransportRestartResetsCursor : Prop :=
  ∀ (s t : State) (n : BitVec 16) (pos qns : ℚ) (k : ℕ), s.srv = true →
    exec (.ablock n) s = .next t → t.arp.playing = true → t.arp.wasPlaying = false →
    pos = (if s.transport.tposv = true then s.transport.tpos else s.arp.pos) →
    qns = quarterSamples s.sr (tempo s.transport s.par) →
      exec (.ablock n) { s with arp := { s.arp with nidx := k } } = .next t ∧
      (s.par.arpon = true → triggerDist s.par pos qns < (n.toNat : ℚ) →
        t.arp.last = heldNth t.arp.held 0) ∧
      (s.par.arpon = false ∨ (n.toNat : ℚ) ≤ triggerDist s.par pos qns → t.arp.nidx = 0)

/-- R265 to R268: the one trigger of a block with the arpeggiator on. `p` is the least selected position
at or after the phase, `d` its distance in samples; it fires exactly when `d < n`, at offset
`floor(d)`: a note-off for LAST, if any, then a note-on for the note under the cursor reduced modulo
the live size, if any. R75, R260: `evs` are the events it pushes; those EVOUT has no room for are
dropped and set BADCMD, and NIDX and LAST advance all the same. R278: after a trigger with a note,
NIDX is a valid index. -/
def Obligations.AblockTriggers : Prop :=
  ∀ (s : State) (n : BitVec 16) (bpm qns pos p d : ℚ) (nidx step : ℕ) (notes : List Note)
    (offEv : List Event),
    s.srv = true → s.par.arpon = true →
    bpm = (if s.transport.tbpmv = true ∧ 0 < s.transport.tbpm then s.transport.tbpm
      else s.par.fbpm) →
    qns = (s.sr : ℚ) * 60 / bpm →
    pos = (if s.transport.tposv = true then s.transport.tpos else s.arp.pos) →
    nidx = (if (if s.transport.tplayv = true then s.transport.tplay else s.arp.playing) = true ∧
      s.arp.playing = false then 0 else s.arp.nidx) →
    step = 8 / s.par.arprate.rate →
    IsLeast { x : ℚ | ∃ k : ℕ, k ≤ 8 ∧ k % step = 0 ∧ x = (k : ℚ) / 8 ∧ Int.fract pos ≤ x } p →
    d = (p - Int.fract pos) * qns → notes = heldNotes (heldAfter s.arp.held s.evin) →
    offEv = (match s.arp.last with
      | none => []
      | some k => [{ off := ⌊d⌋.toNat, on := false, note := k, vel := 0 }]) →
    ∃ t evs, exec (.ablock n) s = .next t ∧
      t.evout = s.evout ++ evs.take (s.cfg.evqDepth - s.evout.length) ∧
      (t.badcmd = true ↔ s.badcmd = true ∨ s.cfg.evqDepth - s.evout.length < evs.length) ∧
      ((n.toNat : ℚ) ≤ d → evs = [] ∧ t.arp.nidx = nidx ∧ t.arp.last = s.arp.last) ∧
      (d < (n.toNat : ℚ) → notes = [] →
        evs = offEv ∧ t.arp.nidx = nidx ∧ t.arp.last = none) ∧
      (d < (n.toNat : ℚ) → ∀ k, notes[nidx % notes.length]? = some k →
        evs = offEv ++ [{ off := ⌊d⌋.toNat, on := true, note := k, vel := s.cfg.arpVel }] ∧
        t.arp.nidx = (nidx % notes.length + 1) % notes.length ∧
        t.arp.nidx < notes.length ∧ t.arp.last = some k)

/-- R276, R266: while the held set does not change, successive triggers play the held notes round
robin in ascending order from the cursor, wrapping at the set's size, and leave a reduced cursor. -/
def Obligations.TriggersPlayRoundRobin : Prop :=
  ∀ (s : State) (off k : ℕ), 0 < heldCount s.arp.held →
    ((fun u => State.startNext u off)^[k + 1] s).arp.last =
      heldNth s.arp.held ((s.arp.nidx + k) % heldCount s.arp.held) ∧
    ((fun u => State.startNext u off)^[k + 1] s).arp.nidx =
      (s.arp.nidx + k + 1) % heldCount s.arp.held ∧
    (heldNth s.arp.held ((s.arp.nidx + k) % heldCount s.arp.held)).isSome = true

/-- R271, R272, R75: with the arpeggiator off the events of EVIN are copied to EVOUT in order as far as
it has room, a dropped one sets BADCMD, and LAST keeps its value. -/
def Obligations.AblockPassesThrough : Prop :=
  ∀ (s : State) (n : BitVec 16), s.srv = true → s.par.arpon = false →
    ∃ t, exec (.ablock n) s = .next t ∧
      t.evout = s.evout ++ s.evin.take (s.cfg.evqDepth - s.evout.length) ∧
      (t.badcmd = true ↔
        s.badcmd = true ∨ s.cfg.evqDepth - s.evout.length < s.evin.length) ∧
      t.arp.last = s.arp.last ∧
      t.arp.nidx = (if (if s.transport.tplayv = true then s.transport.tplay
        else s.arp.playing) = true ∧ s.arp.playing = false then 0 else s.arp.nidx)

/-- R267: a trigger not yet due at the end of a block is n samples nearer in the next one: at a
distance d of at least n, advancing the position by n / qns leaves the distance d - n. -/
def Obligations.TriggerCarriesOver : Prop :=
  ∀ (p : Params) (pos qns : ℚ) (n : ℕ), 0 < qns → (n : ℚ) ≤ triggerDist p pos qns →
    triggerDist p (pos + (n : ℚ) / qns) qns = triggerDist p pos qns - (n : ℚ)

/-- R274, R275, R75: `EVPUSH` appends its event to EVIN, or drops it and sets BADCMD when EVIN is full;
`EVPOP` takes the head of EVOUT, or returns none and changes nothing else. -/
def Obligations.EvpushAppendsAndEvpopTakesHead : Prop :=
  (∀ (s : State) (on : Bool) (note : Note) (vel : Velocity) (off : Word),
    (s.evin.length < s.cfg.evqDepth → exec (.evpush on note vel off) s =
      .next { s with evin := s.evin ++ [{ off := off.toNat, on := on, note := note, vel := vel }] }) ∧
    (s.cfg.evqDepth ≤ s.evin.length →
      exec (.evpush on note vel off) s = .next { s with badcmd := true })) ∧
  (∀ s : State, s.evout = [] → exec .evpop s = .next { s with res := .none }) ∧
  (∀ (s : State) (ev : Event) (rest : List Event), s.evout = ev :: rest →
    exec .evpop s = .next { s with evout := rest, res := .event ev })

/-! ### System, parameters, transport, output -/

/-- R300: `NOP` does nothing; the all-zero word is a `NOP`; on the control port it is an invalid
command. -/
def Obligations.NopDoesNothing : Prop :=
  (∀ s : State, exec .nop s = .next s) ∧
  (∀ rest : List Word, decode (0x00000000 :: rest) = .instr .nop rest) ∧
  (∀ (s : State) (rest : List Word), s.ctlPort = 0x00000000 :: rest →
    s.ctlCommand = { s with ctlPort := rest, badcmd := true })

/-- R301, R58: `RESET` puts every register at the value R58 lists; the envelopes' latched parameters
are legal values (which ones R58 leaves open; log 13), OUT and PAR are as they were, and every
pending control write is discarded. -/
def Obligations.ResetCommandLeavesResetState : Prop :=
  ∀ s : State, ∃ t, exec .reset s = .next t ∧ t.voices.length = s.voices.length ∧
    (∀ vc ∈ t.voices,
      (∀ o, vc.osc o =
        { phase := 0, inc := 0, freq := 0, duty := 1 / 2, ca := 0, cd := 0, ch := 0, cr := 0, cs := 0
          shape := match o with
            | .tonalLow => s.cfg.tonalLowShape
            | .pulse1 => .pulse
            | .pulse2 => .pulse
            | .lfo => .sine }) ∧
      (∀ e, (vc.env e).stage = .idle ∧ (vc.env e).level = 0 ∧ (vc.env e).start = 0 ∧
        (vc.env e).cnt = 0 ∧ AdsrLegal (vc.env e).par) ∧
      vc.regs =
        { state := .idle, note := none, vel := 0, hold := 0, lastenv := 0
          fa := s.cfg.filtAInit, fb := s.cfg.filtBInit }) ∧
    t.srv = false ∧ t.badcmd = false ∧ t.res = .none ∧
    t.arp =
      { pos := 0, nidx := 0, last := none, playing := false, wasPlaying := false, held := 0 } ∧
    t.transport.tposv = false ∧ t.transport.tbpmv = false ∧ t.transport.tplayv = false ∧
    t.evin = [] ∧ t.evout = [] ∧ t.pend = [] ∧
    t.out = s.out ∧ t.par = s.par ∧ t.cfg = s.cfg

/-- R302: `PREPARE` stores the rate, at least 1, sets SRV, and recomputes every increment as
freq / SR; phases, envelopes and all other state stay. -/
def Obligations.PrepareSetsRateAndIncrements : Prop :=
  ∀ (s : State) (rate : Word), ∃ t, exec (.prepare rate) s = .next t ∧
    t.sr = max rate.toNat 1 ∧ t.srv = true ∧ t.voices.length = s.voices.length ∧
    (∀ v o, t.osc? v o =
      (s.osc? v o).map fun c => { c with inc := c.freq / ((max rate.toNat 1 : ℕ) : ℚ) }) ∧
    (∀ v e, t.env? v e = s.env? v e) ∧ (∀ v, t.regs? v = s.regs? v) ∧
    t = { s with voices := t.voices, sr := t.sr, srv := true }

/-- R305, R306, R72, R73, R79, with R41 to R56: `PWR` issued by RT stores the nearest legal value of
its register at once and touches no other register; `PRD` then returns it and changes only RES. -/
def Obligations.PwrStoresLegalValueAndPrdReadsIt : Prop :=
  (∀ (s : State) (k : ParIdx) (e : Word), ∃ t, exec (.pwr k e) s = .next t ∧
    parRead k t.par = parStored k e ∧ (∀ j, j ≠ k → parRead j t.par = parRead j s.par) ∧
    t = { s with par := t.par }) ∧
  (∀ (s : State) (k : ParIdx), exec (.prd k) s = .next { s with res := .num (parRead k s.par) })

/-- R309 to R312: `TPOS`, `TBPM` and `TPLAY` store their value and set its valid bit; `TCLR` clears the
valid bits its mask names and keeps the values; nothing else changes. -/
def Obligations.TransportCommandsSetAndClear : Prop :=
  ∀ s : State,
    (∀ x, exec (.tpos x) s = .next { s with
      transport := { s.transport with tpos := (x.toInt : ℚ) / 2 ^ 16, tposv := true } }) ∧
    (∀ x, exec (.tbpm x) s = .next { s with
      transport := { s.transport with tbpm := (x.toInt : ℚ) / 2 ^ 16, tbpmv := true } }) ∧
    (∀ b, exec (.tplay b) s = .next { s with
      transport := { s.transport with tplay := b, tplayv := true } }) ∧
    (∀ m : BitVec 3, exec (.tclr m) s = .next { s with
      transport := { s.transport with
        tposv := if m.getLsbD 0 = true then false else s.transport.tposv
        tbpmv := if m.getLsbD 1 = true then false else s.transport.tbpmv
        tplayv := if m.getLsbD 2 = true then false else s.transport.tplayv } })

/-- R313, R314, R74: `OUTCLR` makes every sample of every channel 0 and changes nothing else; `OUTRD`
of a legal channel and index returns the sample and changes only RES. -/
def Obligations.OutclrClearsAndOutrdReads : Prop :=
  (∀ s : State, ∃ t, exec .outclr s = .next t ∧ t.out.length = s.out.length ∧
    (∀ c i, c < s.out.length → outRead t.out c i = some 0) ∧ t = { s with out := t.out }) ∧
  (∀ (s : State) (c : BitVec 4) (i : BitVec 16) (x : ℚ),
    outRead s.out c.toNat i.toNat = some x → i.toNat < s.cfg.blkmax →
      exec (.outrd c i) s = .next { s with res := .num x })
end

