-- ==== Sys2Proof/Laws/State.lean ====
section
/-! SUPPORT. One lemma per field per update of State, Voice's units and its units' views, each true by
`rfl`: no later proof unfolds a record update. -/

namespace Sys2Proof.Machine

/-! ### Updates of State -/

@[simp] theorem State.setVoice_voices (s : State) (v : BitVec 4) (vc : Voice) :
    (s.setVoice v vc).voices = s.voices.set v.toNat vc := rfl

@[simp] theorem State.setVoice_sr (s : State) (v : BitVec 4) (vc : Voice) :
    (s.setVoice v vc).sr = s.sr := rfl

@[simp] theorem State.setVoice_srv (s : State) (v : BitVec 4) (vc : Voice) :
    (s.setVoice v vc).srv = s.srv := rfl

@[simp] theorem State.setVoice_badcmd (s : State) (v : BitVec 4) (vc : Voice) :
    (s.setVoice v vc).badcmd = s.badcmd := rfl

@[simp] theorem State.setVoice_res (s : State) (v : BitVec 4) (vc : Voice) :
    (s.setVoice v vc).res = s.res := rfl

@[simp] theorem State.setVoice_arp (s : State) (v : BitVec 4) (vc : Voice) :
    (s.setVoice v vc).arp = s.arp := rfl

@[simp] theorem State.setVoice_transport (s : State) (v : BitVec 4) (vc : Voice) :
    (s.setVoice v vc).transport = s.transport := rfl

@[simp] theorem State.setVoice_evin (s : State) (v : BitVec 4) (vc : Voice) :
    (s.setVoice v vc).evin = s.evin := rfl

@[simp] theorem State.setVoice_evout (s : State) (v : BitVec 4) (vc : Voice) :
    (s.setVoice v vc).evout = s.evout := rfl

@[simp] theorem State.setVoice_out (s : State) (v : BitVec 4) (vc : Voice) :
    (s.setVoice v vc).out = s.out := rfl

@[simp] theorem State.setVoice_par (s : State) (v : BitVec 4) (vc : Voice) :
    (s.setVoice v vc).par = s.par := rfl

@[simp] theorem State.setVoice_pend (s : State) (v : BitVec 4) (vc : Voice) :
    (s.setVoice v vc).pend = s.pend := rfl

@[simp] theorem State.setVoice_cfg (s : State) (v : BitVec 4) (vc : Voice) :
    (s.setVoice v vc).cfg = s.cfg := rfl

@[simp] theorem State.setVoice_cmdPort (s : State) (v : BitVec 4) (vc : Voice) :
    (s.setVoice v vc).cmdPort = s.cmdPort := rfl

@[simp] theorem State.setVoice_ctlPort (s : State) (v : BitVec 4) (vc : Voice) :
    (s.setVoice v vc).ctlPort = s.ctlPort := rfl

@[simp] theorem State.setVoice_draws (s : State) (v : BitVec 4) (vc : Voice) :
    (s.setVoice v vc).draws = s.draws := rfl

@[simp] theorem State.setRes_voices (s : State) (r : Result) :
    (s.setRes r).voices = s.voices := rfl

@[simp] theorem State.setRes_sr (s : State) (r : Result) :
    (s.setRes r).sr = s.sr := rfl

@[simp] theorem State.setRes_srv (s : State) (r : Result) :
    (s.setRes r).srv = s.srv := rfl

@[simp] theorem State.setRes_badcmd (s : State) (r : Result) :
    (s.setRes r).badcmd = s.badcmd := rfl

@[simp] theorem State.setRes_res (s : State) (r : Result) :
    (s.setRes r).res = r := rfl

@[simp] theorem State.setRes_arp (s : State) (r : Result) :
    (s.setRes r).arp = s.arp := rfl

@[simp] theorem State.setRes_transport (s : State) (r : Result) :
    (s.setRes r).transport = s.transport := rfl

@[simp] theorem State.setRes_evin (s : State) (r : Result) :
    (s.setRes r).evin = s.evin := rfl

@[simp] theorem State.setRes_evout (s : State) (r : Result) :
    (s.setRes r).evout = s.evout := rfl

@[simp] theorem State.setRes_out (s : State) (r : Result) :
    (s.setRes r).out = s.out := rfl

@[simp] theorem State.setRes_par (s : State) (r : Result) :
    (s.setRes r).par = s.par := rfl

@[simp] theorem State.setRes_pend (s : State) (r : Result) :
    (s.setRes r).pend = s.pend := rfl

@[simp] theorem State.setRes_cfg (s : State) (r : Result) :
    (s.setRes r).cfg = s.cfg := rfl

@[simp] theorem State.setRes_cmdPort (s : State) (r : Result) :
    (s.setRes r).cmdPort = s.cmdPort := rfl

@[simp] theorem State.setRes_ctlPort (s : State) (r : Result) :
    (s.setRes r).ctlPort = s.ctlPort := rfl

@[simp] theorem State.setRes_draws (s : State) (r : Result) :
    (s.setRes r).draws = s.draws := rfl

@[simp] theorem State.invalid_voices (s : State) :
    s.invalid.voices = s.voices := rfl

@[simp] theorem State.invalid_sr (s : State) :
    s.invalid.sr = s.sr := rfl

@[simp] theorem State.invalid_srv (s : State) :
    s.invalid.srv = s.srv := rfl

@[simp] theorem State.invalid_badcmd (s : State) :
    s.invalid.badcmd = true := rfl

@[simp] theorem State.invalid_res (s : State) :
    s.invalid.res = s.res := rfl

@[simp] theorem State.invalid_arp (s : State) :
    s.invalid.arp = s.arp := rfl

@[simp] theorem State.invalid_transport (s : State) :
    s.invalid.transport = s.transport := rfl

@[simp] theorem State.invalid_evin (s : State) :
    s.invalid.evin = s.evin := rfl

@[simp] theorem State.invalid_evout (s : State) :
    s.invalid.evout = s.evout := rfl

@[simp] theorem State.invalid_out (s : State) :
    s.invalid.out = s.out := rfl

@[simp] theorem State.invalid_par (s : State) :
    s.invalid.par = s.par := rfl

@[simp] theorem State.invalid_pend (s : State) :
    s.invalid.pend = s.pend := rfl

@[simp] theorem State.invalid_cfg (s : State) :
    s.invalid.cfg = s.cfg := rfl

@[simp] theorem State.invalid_cmdPort (s : State) :
    s.invalid.cmdPort = s.cmdPort := rfl

@[simp] theorem State.invalid_ctlPort (s : State) :
    s.invalid.ctlPort = s.ctlPort := rfl

@[simp] theorem State.invalid_draws (s : State) :
    s.invalid.draws = s.draws := rfl

/-! ### Units of a voice -/

@[simp] theorem Voice.osc_tonalLow (vc : Voice) : vc.osc .tonalLow = vc.tonalLow := rfl

@[simp] theorem Voice.osc_pulse1 (vc : Voice) : vc.osc .pulse1 = vc.pulse1 := rfl

@[simp] theorem Voice.osc_pulse2 (vc : Voice) : vc.osc .pulse2 = vc.pulse2 := rfl

@[simp] theorem Voice.osc_lfo (vc : Voice) : vc.osc .lfo = vc.lfo := rfl

@[simp] theorem Voice.env_main (vc : Voice) : vc.env .main = vc.envMain := rfl

@[simp] theorem Voice.env_auxA (vc : Voice) : vc.env .auxA = vc.envA := rfl

@[simp] theorem Voice.env_auxB (vc : Voice) : vc.env .auxB = vc.envB := rfl

@[simp] theorem Voice.osc_setOsc (vc : Voice) (o : OscIdx) (c : Oscillator) :
    (vc.setOsc o c).osc o = c := by cases o <;> rfl

theorem Voice.osc_setOsc_ne (vc : Voice) {o j : OscIdx} (c : Oscillator) (h : j ≠ o) :
    (vc.setOsc o c).osc j = vc.osc j := by cases o <;> cases j <;> first | rfl | exact absurd rfl h

@[simp] theorem Voice.env_setOsc (vc : Voice) (o : OscIdx) (c : Oscillator) (e : EnvIdx) :
    (vc.setOsc o c).env e = vc.env e := by cases o <;> rfl

@[simp] theorem Voice.env_setEnv (vc : Voice) (e : EnvIdx) (n : Envelope) :
    (vc.setEnv e n).env e = n := by cases e <;> rfl

theorem Voice.env_setEnv_ne (vc : Voice) {e j : EnvIdx} (n : Envelope) (h : j ≠ e) :
    (vc.setEnv e n).env j = vc.env j := by cases e <;> cases j <;> first | rfl | exact absurd rfl h

@[simp] theorem Voice.osc_setEnv (vc : Voice) (e : EnvIdx) (n : Envelope) (o : OscIdx) :
    (vc.setEnv e n).osc o = vc.osc o := by cases e <;> rfl

@[simp] theorem Voice.state_setOsc (vc : Voice) (o : OscIdx) (c : Oscillator) :
    (vc.setOsc o c).state = vc.state := by cases o <;> rfl

@[simp] theorem Voice.note_setOsc (vc : Voice) (o : OscIdx) (c : Oscillator) :
    (vc.setOsc o c).note = vc.note := by cases o <;> rfl

@[simp] theorem Voice.lastenv_setOsc (vc : Voice) (o : OscIdx) (c : Oscillator) :
    (vc.setOsc o c).lastenv = vc.lastenv := by cases o <;> rfl

@[simp] theorem Voice.state_setEnv (vc : Voice) (e : EnvIdx) (n : Envelope) :
    (vc.setEnv e n).state = vc.state := by cases e <;> rfl

@[simp] theorem Voice.note_setEnv (vc : Voice) (e : EnvIdx) (n : Envelope) :
    (vc.setEnv e n).note = vc.note := by cases e <;> rfl

@[simp] theorem Voice.lastenv_setEnv (vc : Voice) (e : EnvIdx) (n : Envelope) :
    (vc.setEnv e n).lastenv = vc.lastenv := by cases e <;> rfl

@[simp] theorem Voice.setOsc_osc (vc : Voice) (o : OscIdx) : vc.setOsc o (vc.osc o) = vc := by
  cases o <;> rfl

@[simp] theorem Voice.setEnv_env (vc : Voice) (e : EnvIdx) : vc.setEnv e (vc.env e) = vc := by
  cases e <;> rfl

@[simp] theorem Voice.osc_mapOscs (f : Oscillator → Oscillator) (vc : Voice) (o : OscIdx) :
    (vc.mapOscs f).osc o = f (vc.osc o) := by cases o <;> rfl

@[simp] theorem Voice.env_mapOscs (f : Oscillator → Oscillator) (vc : Voice) (e : EnvIdx) :
    (vc.mapOscs f).env e = vc.env e := by cases e <;> rfl

@[simp] theorem Voice.env_mapEnvs (f : Envelope → Envelope) (vc : Voice) (e : EnvIdx) :
    (vc.mapEnvs f).env e = f (vc.env e) := by cases e <;> rfl

@[simp] theorem Voice.osc_mapEnvs (f : Envelope → Envelope) (vc : Voice) (o : OscIdx) :
    (vc.mapEnvs f).osc o = vc.osc o := by cases o <;> rfl

/-! ### A voice of a state -/

theorem State.voice?_setVoice (s : State) (v w : BitVec 4) (vc : Voice) :
    (s.setVoice v vc).voice? w =
      if w = v then (s.voice? v).map (fun _ => vc) else s.voice? w := by
  unfold State.voice? State.setVoice
  rcases eq_or_ne w v with rfl | h
  · rcases Nat.lt_or_ge w.toNat s.voices.length with hl | hl <;> simp [hl]
  · have : v.toNat ≠ w.toNat := fun e => h (BitVec.eq_of_toNat_eq e.symm)
    simp [h, this]

theorem State.voice?_setVoice_self {s : State} {v : BitVec 4} {old : Voice} (vc : Voice)
    (h : s.voice? v = some old) : (s.setVoice v vc).voice? v = some vc := by
  simp [State.voice?_setVoice, h]

theorem State.voice?_setVoice_ne (s : State) {v w : BitVec 4} (vc : Voice) (h : w ≠ v) :
    (s.setVoice v vc).voice? w = s.voice? w := by simp [State.voice?_setVoice, h]

/-- Writing a voice with what it holds changes nothing. -/
theorem State.setVoice_same {s : State} {v : BitVec 4} {vc : Voice} (h : s.voice? v = some vc) :
    s.setVoice v vc = s := by
  obtain ⟨hl, he⟩ := List.getElem?_eq_some_iff.mp h
  unfold State.setVoice
  rw [← he, List.set_getElem_self]

theorem State.voice?_eq_none_iff (s : State) (v : BitVec 4) :
    s.voice? v = none ↔ s.voices.length ≤ v.toNat := List.getElem?_eq_none_iff

end Sys2Proof.Machine
end

