-- ==== Sys2Proof/Laws/Ops.lean ====
section
/-! SUPPORT. For each shared operation, once, everything it can do; and the canonical form of the
output buffer's channels. -/

namespace Sys2Proof.Machine

/-! ### The checks of R112 -/

/-- A command on a voice either finds its voice or is invalid. -/
theorem onVoice_cases {s : State} {v : BitVec 4} {k : Voice → StepOutcome State}
    {r : StepOutcome State} (h : onVoice s v k = r) :
    (∃ vc, s.voice? v = some vc ∧ k vc = r) ∨
      (s.voices.length ≤ v.toNat ∧ r = .next s.invalid) := by
  unfold onVoice at h
  split at h
  · exact .inl ⟨_, ‹_›, h⟩
  · exact .inr ⟨(State.voice?_eq_none_iff s v).mp ‹_›, h.symm⟩

theorem onVoice_some {s : State} {v : BitVec 4} {vc : Voice} (k : Voice → StepOutcome State)
    (h : s.voice? v = some vc) : onVoice s v k = k vc := by simp [onVoice, h]

theorem onVoice_none {s : State} {v : BitVec 4} (k : Voice → StepOutcome State)
    (h : s.voices.length ≤ v.toNat) : onVoice s v k = .next s.invalid := by
  simp [onVoice, (State.voice?_eq_none_iff s v).mpr h]

theorem oscIdxOf_none {o : BitVec 4} (h : 3 < o.toNat) : oscIdxOf o = none := by
  unfold oscIdxOf
  split <;> first | rfl | omega

theorem envIdxOf_none {e : BitVec 4} (h : 2 < e.toNat) : envIdxOf e = none := by
  unfold envIdxOf
  split <;> first | rfl | omega

/-- A command on an oscillator either finds its voice and oscillator or is invalid. -/
theorem onOsc_cases {s : State} {v o : BitVec 4} {k : Voice → OscIdx → StepOutcome State}
    {r : StepOutcome State} (h : onOsc s v o k = r) :
    (∃ vc i, s.voice? v = some vc ∧ oscIdxOf o = some i ∧ k vc i = r) ∨ r = .next s.invalid := by
  obtain ⟨vc, hv, hk⟩ | ⟨-, hr⟩ := onVoice_cases h
  · split at hk
    · exact .inl ⟨vc, _, hv, ‹_›, hk⟩
    · exact .inr hk.symm
  · exact .inr hr

theorem onOsc_some {s : State} {v o : BitVec 4} {vc : Voice} {i : OscIdx}
    (k : Voice → OscIdx → StepOutcome State) (h : s.voice? v = some vc) (ho : oscIdxOf o = some i) :
    onOsc s v o k = k vc i := by simp [onOsc, onVoice, h, ho]

/-- A command on an envelope either finds its voice and envelope or is invalid. -/
theorem onEnv_cases {s : State} {v e : BitVec 4} {k : Voice → EnvIdx → StepOutcome State}
    {r : StepOutcome State} (h : onEnv s v e k = r) :
    (∃ vc i, s.voice? v = some vc ∧ envIdxOf e = some i ∧ k vc i = r) ∨ r = .next s.invalid := by
  obtain ⟨vc, hv, hk⟩ | ⟨-, hr⟩ := onVoice_cases h
  · split at hk
    · exact .inl ⟨vc, _, hv, ‹_›, hk⟩
    · exact .inr hk.symm
  · exact .inr hr

theorem onEnv_some {s : State} {v e : BitVec 4} {vc : Voice} {i : EnvIdx}
    (k : Voice → EnvIdx → StepOutcome State) (h : s.voice? v = some vc) (he : envIdxOf e = some i) :
    onEnv s v e k = k vc i := by simp [onEnv, onVoice, h, he]

/-- A command that reads `SR` either runs with `SRV = 1` or is invalid. -/
theorem needRate_cases {s : State} {k r : StepOutcome State} (h : needRate s k = r) :
    (s.srv = true ∧ k = r) ∨ (s.srv = false ∧ r = .next s.invalid) := by
  unfold needRate at h
  split at h
  · exact .inl ⟨‹_›, h⟩
  · exact .inr ⟨Bool.eq_false_of_not_eq_true ‹_›, h.symm⟩

@[simp] theorem needRate_true {s : State} (k : StepOutcome State) (h : s.srv = true) :
    needRate s k = k := by simp [needRate, h]

/-! ### The output space -/

theorem Memory.read_eq_zero_of_lt {m : Memory} {i : Nat} (h : ∀ p ∈ m, i < p.1) :
    Memory.read m i = 0 := by
  induction m with
  | nil => rfl
  | cons p m ih =>
    have hp : i < p.1 := h p (List.mem_cons_self)
    have : i ≠ p.1 := hp.ne
    simp [Memory.read, this, ih fun q hq => h q (List.mem_cons_of_mem _ hq)]

/-- A read elsewhere is not changed by a write. -/
theorem Memory.read_write_ne (m : Memory) {i j : Nat} (x : Q) (h : j ≠ i) :
    Memory.read (Memory.write m i x) j = Memory.read m j := by
  induction m with
  | nil =>
    unfold Memory.write
    split <;> simp [Memory.read, h]
  | cons p m ih =>
    unfold Memory.write
    split
    · split <;> simp [Memory.read, h]
    · split
      · subst i
        split <;> simp [Memory.read, h]
      · simp [Memory.read, ih]

/-- A read of the sample just written gives the value written. -/
theorem Memory.read_write_self {m : Memory} (hm : Memory.wf m) (i : Nat) (x : Q) :
    Memory.read (Memory.write m i x) i = x := by
  induction m with
  | nil =>
    unfold Memory.write
    split <;> simp_all [Memory.read]
  | cons p m ih =>
    obtain ⟨hs, hz⟩ := hm
    obtain ⟨hp, hs⟩ := List.pairwise_cons.mp hs
    have hm : Memory.wf m := ⟨hs, fun q hq => hz q (List.mem_cons_of_mem _ hq)⟩
    unfold Memory.write
    split
    · split
      · have hne : i ≠ p.1 := by omega
        have := Memory.read_eq_zero_of_lt (m := m) (i := i) fun q hq => by
          have := hp q hq
          omega
        simp_all [Memory.read]
      · simp [Memory.read]
    · split
      · subst i
        split
        · rw [Memory.read_eq_zero_of_lt fun q hq => hp q hq]
          exact Eq.symm ‹_›
        · simp [Memory.read]
      · simp_all [Memory.read]

/-- Every entry a write leaves was there before or is the one written. -/
theorem Memory.mem_write {m : Memory} {i : Nat} {x : Q} {p : Nat × Q}
    (h : p ∈ Memory.write m i x) : p ∈ m ∨ (p = (i, x) ∧ x ≠ 0) := by
  induction m with
  | nil =>
    unfold Memory.write at h
    split at h <;> simp_all
  | cons q m ih =>
    unfold Memory.write at h
    split at h
    · split at h
      · exact .inl h
      · rcases List.mem_cons.mp h with rfl | h
        · exact .inr ⟨rfl, ‹_›⟩
        · exact .inl h
    · split at h
      · subst i
        split at h
        · exact .inl (List.mem_cons_of_mem _ h)
        · rcases List.mem_cons.mp h with rfl | h
          · exact .inr ⟨rfl, ‹_›⟩
          · exact .inl (List.mem_cons_of_mem _ h)
      · rcases List.mem_cons.mp h with rfl | h
        · exact .inl (List.mem_cons_self)
        · rcases ih h with h | h
          · exact .inl (List.mem_cons_of_mem _ h)
          · exact .inr h

/-- A write keeps the canonical form. -/
theorem Memory.wf_write {m : Memory} (hm : Memory.wf m) (i : Nat) (x : Q) :
    Memory.wf (Memory.write m i x) := by
  refine ⟨?_, fun p hp => ?_⟩
  · induction m with
    | nil =>
      unfold Memory.write
      split <;> simp
    | cons q m ih =>
      obtain ⟨hs, hz⟩ := hm
      obtain ⟨hq, hs'⟩ := List.pairwise_cons.mp hs
      have ih := ih ⟨hs', fun r hr => hz r (List.mem_cons_of_mem _ hr)⟩
      unfold Memory.write
      split
      · split
        · exact hs
        · refine List.pairwise_cons.mpr ⟨fun r hr => ?_, hs⟩
          rcases List.mem_cons.mp hr with rfl | hr
          · assumption
          · have := hq r hr
            change i < r.1
            omega
      · split
        · split
          · exact hs'
          · exact List.pairwise_cons.mpr ⟨hq, hs'⟩
        · refine List.pairwise_cons.mpr ⟨fun r hr => ?_, ih⟩
          rcases Memory.mem_write hr with hr | ⟨rfl, -⟩
          · exact hq r hr
          · change q.1 < i
            omega
  · rcases Memory.mem_write hp with hp | ⟨rfl, hx⟩
    · exact hm.2 p hp
    · exact hx

/-- `OutAdd` keeps the canonical form. -/
theorem Memory.wf_add {m : Memory} (hm : Memory.wf m) (i : Nat) (x : Q) :
    Memory.wf (Memory.add m i x) := Memory.wf_write hm _ _

/-- `OutAdd` adds to its sample and leaves every other sample alone (R74). -/
theorem Memory.read_add {m : Memory} (hm : Memory.wf m) (i j : Nat) (x : Q) :
    Memory.read (Memory.add m i x) j =
      if j = i then Memory.read m j + x else Memory.read m j := by
  split
  · subst j
    exact Memory.read_write_self hm _ _
  · exact Memory.read_write_ne _ _ ‹_›

/-- `OutAdd` into every channel keeps every channel's canonical form. -/
theorem outAddAll_wf {out : List Memory} (h : ∀ m ∈ out, Memory.wf m) (i : Nat) (x : Q) :
    ∀ m ∈ outAddAll out i x, Memory.wf m := by
  intro m hm
  obtain ⟨m', hm', rfl⟩ := List.mem_map.mp hm
  exact Memory.wf_add (h m' hm') i x

/-- `OutClr` leaves canonical channels. -/
theorem outClear_wf (out : List Memory) : ∀ m ∈ outClear out, Memory.wf m := by
  intro m hm
  obtain ⟨m', -, rfl⟩ := List.mem_map.mp hm
  exact ⟨List.Pairwise.nil, fun p hp => absurd hp (List.not_mem_nil)⟩

/-- The buffer at reset is canonical. -/
theorem reset_out_wf : ∀ m ∈ State.reset.out, Memory.wf m := by
  intro m hm
  rw [List.eq_of_mem_replicate hm]
  exact ⟨List.Pairwise.nil, fun p hp => absurd hp (List.not_mem_nil)⟩

@[simp] theorem outAddAll_length (out : List Memory) (i : Nat) (x : Q) :
    (outAddAll out i x).length = out.length := List.length_map ..

theorem outRead_outAddAll {out : List Memory} (h : ∀ m ∈ out, Memory.wf m) (i : Nat) (x : Q)
    (c j : Nat) :
    outRead (outAddAll out i x) c j =
      (outRead out c j).map fun q => if j = i then q + x else q := by
  unfold outRead outAddAll
  rw [List.getElem?_map]
  cases hc : out[c]? with
  | none => rfl
  | some m =>
    have := Memory.read_add (h m (List.mem_of_getElem? hc)) i j x
    simpa using this

theorem outRead_outAddAll_ne (out : List Memory) {i j : Nat} (x : Q) (c : Nat) (h : j ≠ i) :
    outRead (outAddAll out i x) c j = outRead out c j := by
  unfold outRead outAddAll
  rw [List.getElem?_map]
  cases out[c]? with
  | none => rfl
  | some m => simpa [Memory.add] using Memory.read_write_ne m (Memory.read m i + x) h

/-! ### The event queues -/

/-- `EvPush(EVOUT, ev)`: appended, or dropped with BADCMD set (R75). -/
theorem State.pushOut_cases (s : State) (ev : Event) :
    (s.evout.length < s.cfg.evqDepth ∧ s.pushOut ev = { s with evout := s.evout ++ [ev] }) ∨
      (s.cfg.evqDepth ≤ s.evout.length ∧ s.pushOut ev = { s with badcmd := true }) := by
  unfold State.pushOut
  split
  · exact .inl ⟨‹_›, rfl⟩
  · exact .inr ⟨by omega, rfl⟩

/-- `EvPush(EVIN, ev)`: appended, or dropped with BADCMD set (R75). -/
theorem State.pushIn_cases (s : State) (ev : Event) :
    (s.evin.length < s.cfg.evqDepth ∧ s.pushIn ev = { s with evin := s.evin ++ [ev] }) ∨
      (s.cfg.evqDepth ≤ s.evin.length ∧ s.pushIn ev = { s with badcmd := true }) := by
  unfold State.pushIn
  split
  · exact .inl ⟨‹_›, rfl⟩
  · exact .inr ⟨by omega, rfl⟩

/-- `EvPop(EVOUT)`: none from an empty queue, else the head (R75). -/
theorem State.popOut_cases (s : State) :
    (s.evout = [] ∧ s.popOut = (none, s)) ∨
      ∃ ev rest, s.evout = ev :: rest ∧ s.popOut = (some ev, { s with evout := rest }) := by
  unfold State.popOut
  split
  · exact .inl ⟨‹_›, rfl⟩
  · exact .inr ⟨_, _, ‹_›, rfl⟩

/-- Pushing a list of events onto EVOUT: as many as fit are appended, in order; BADCMD is set exactly
when one is dropped; nothing else changes (R75). -/
theorem State.foldl_pushOut (evs : List Event) (s : State) :
    ∃ b, evs.foldl State.pushOut s =
        { s with evout := s.evout ++ evs.take (s.cfg.evqDepth - s.evout.length), badcmd := b } ∧
      (b = true ↔ s.badcmd = true ∨ s.cfg.evqDepth - s.evout.length < evs.length) := by
  induction evs generalizing s with
  | nil => exact ⟨s.badcmd, by simp, by simp⟩
  | cons ev evs ih =>
    rw [List.foldl_cons]
    rcases s.pushOut_cases ev with ⟨hl, he⟩ | ⟨hl, he⟩ <;> rw [he]
    · obtain ⟨b, hs, hb⟩ := ih { s with evout := s.evout ++ [ev] }
      refine ⟨b, hs.trans ?_, hb.trans ?_⟩
      · have : s.cfg.evqDepth - s.evout.length =
            s.cfg.evqDepth - (s.evout.length + 1) + 1 := by omega
        simp [this]
      · refine or_congr Iff.rfl ?_
        simp only [List.length_append, List.length_cons, List.length_nil]
        omega
    · obtain ⟨b, hs, hb⟩ := ih { s with badcmd := true }
      have : s.cfg.evqDepth - s.evout.length = 0 := by omega
      exact ⟨b, hs.trans (by simp [this]), hb.trans (by simp [this])⟩

/-! ### Code tables -/

/-- `LFOSHAPE` (R55). -/
theorem lfoShape_eq (w : Fin 3) :
    lfoShape w = if w = 0 then .sine else if w = 1 then .tri else .pulse := by
  revert w
  decide

/-- `PWDEC` (R46). -/
theorem pwDec_eq (w : Fin 3) :
    pwDec w = if w = 0 then 1 / 8 else if w = 1 then 1 / 4 else 1 / 2 := by
  revert w
  decide +kernel

/-! ### The control agent and one sample of a voice -/

/-- What taking one command from the control port can do (R78, R100, R112 (b)): nothing, queue a
`PWR`, or consume an invalid command. -/
theorem State.ctlCommand_cases (s : State) :
    (decode s.ctlPort = .incomplete ∧ s.ctlCommand = s) ∨
    (∃ k e rest, decode s.ctlPort = .instr (.pwr k e) rest ∧
      s.ctlCommand = { s with
        ctlPort := rest
        pend := s.pend ++ [{ k := k, payload := e, delay := Config.ctlDelay s.draws }]
        draws := s.draws + 1 }) ∨
    (∃ rest, (∀ k e, decode s.ctlPort ≠ .instr (.pwr k e) rest) ∧
      s.ctlCommand = { s with ctlPort := rest, badcmd := true }) := by
  unfold State.ctlCommand
  split
  · exact .inl ⟨‹_›, rfl⟩
  · exact .inr (.inr ⟨_, fun _ _ h => by simp_all, rfl⟩)
  · exact .inr (.inl ⟨_, _, _, ‹_›, rfl⟩)
  · refine .inr (.inr ⟨_, fun k e h => ?_, rfl⟩)
    rename_i hne hd
    rw [h] at hd
    cases hd
    exact hne _ _ rfl

/-- What rendering one sample can do (R227): nothing on a voice that does not exist, else write that
voice, advance the draw counter, and add the sample, if there is one, into every channel. -/
theorem State.renderSample_cases (s : State) (v : BitVec 4) (i : Nat) :
    (s.voice? v = none ∧ s.renderSample v i = s) ∨
    ∃ vc r, s.voice? v = some vc ∧ r = vc.render s.cfg s.par s.sr s.draws i ∧
      ((r.sample = none ∧
        s.renderSample v i = { s.setVoice v r.voice with draws := r.draws }) ∨
      ∃ x, r.sample = some x ∧
        s.renderSample v i =
          { s.setVoice v r.voice with draws := r.draws, out := outAddAll s.out i x }) := by
  unfold State.renderSample
  split
  · exact .inl ⟨‹_›, rfl⟩
  · refine .inr ⟨_, _, ‹_›, rfl, ?_⟩
    simp only
    split
    · exact .inl ⟨‹_›, rfl⟩
    · exact .inr ⟨_, ‹_›, rfl⟩

end Sys2Proof.Machine
end

