-- ==== Sys2Proof/Laws/Legal.lean ====
section
/-! SUPPORT. The unit operations keep legal units legal (10_state.md R24, R27, R29, R36, R37, R40). -/

namespace Sys2Proof.Machine

theorem unit01_clamp (x : Q) : Unit01 (clampQ x 0 1) :=
  ⟨le_min (le_max_right _ _) zero_le_one, min_le_right _ _⟩

theorem frac_nonneg (x : Q) : 0 ≤ frac x := Int.fract_nonneg x

theorem frac_lt_one (x : Q) : frac x < 1 := Int.fract_lt_one x

/-! ### Oscillators -/

theorem Oscillator.Legal.advance {srv : Bool} {sr : Nat} {c : Oscillator} (h : c.Legal srv sr) :
    c.advance.Legal srv sr :=
  { h with phase_nonneg := frac_nonneg _, phase_lt_one := frac_lt_one _ }

theorem Oscillator.atReset_legal (shape : Shape) (srv : Bool) (sr : Nat) :
    (Oscillator.atReset shape).Legal srv sr := by
  constructor <;> norm_num [Oscillator.atReset, Unit01]

/-- What `OSETCY` writes keeps an oscillator legal. -/
theorem setCycle_legal {srv : Bool} {sr : Nat} {c c' : Oscillator} {j : BitVec 3} {x : Q}
    (h : c.Legal srv sr) (hc : setCycle j (clampQ x 0 1) c = some c') : c'.Legal srv sr := by
  unfold setCycle at hc
  have hx := unit01_clamp x
  split at hc
  · cases hc; exact { h with ca := hx }
  · cases hc; exact { h with cd := hx }
  · cases hc; exact { h with ch := hx }
  · cases hc; exact { h with cr := hx }
  · cases hc; exact { h with cs := hx }
  · cases hc

/-! ### Envelopes -/

theorem Adsr.legal_legal (a : Adsr) : AdsrLegal a.legal where
  attackTime := le_max_right _ _
  decayTime := le_max_right _ _
  sustainLevel := unit01_clamp a.sustainLevel
  releaseTime := le_max_right _ _

theorem setLatch_legal {a : Adsr} (h : AdsrLegal a) (j : BitVec 2) (x : Q) :
    AdsrLegal (setLatch j x a) := by
  unfold setLatch
  split
  · exact { h with attackTime := le_max_right _ _ }
  · exact { h with decayTime := le_max_right _ _ }
  · exact { h with sustainLevel := unit01_clamp x }
  · exact { h with releaseTime := le_max_right _ _ }

theorem Envelope.Legal.on {e : Envelope} (h : e.Legal) : e.on.Legal where
  level := h.level
  start := h.level
  idle_level := fun hs => nomatch hs
  par := h.par

theorem Envelope.Legal.off {e : Envelope} (h : e.Legal) : e.off.Legal := by
  unfold Envelope.off
  split
  · exact { level := h.level, start := h.level, idle_level := (fun hs => nomatch hs), par := h.par }
  · exact h

theorem Envelope.Legal.cut {e : Envelope} (h : e.Legal) : e.cut.Legal where
  level := ⟨le_rfl, zero_le_one⟩
  start := ⟨le_rfl, zero_le_one⟩
  idle_level := fun _ => rfl
  par := h.par

/-- A point of the segment from `x` to `y` stays in [0,1]. -/
theorem unit01_line {x y r : Q} (hx : Unit01 x) (hy : Unit01 y) (h0 : 0 ≤ r) (h1 : r ≤ 1) :
    Unit01 (x + (y - x) * r) := by
  obtain ⟨hx0, hx1⟩ := hx
  obtain ⟨hy0, hy1⟩ := hy
  constructor <;> nlinarith [mul_nonneg h0 hy0, mul_nonneg (sub_nonneg.mpr h1) hx0,
    mul_le_mul_of_nonneg_left hy1 h0, mul_le_mul_of_nonneg_left hx1 (sub_nonneg.mpr h1)]

theorem Envelope.Legal.tick {e : Envelope} (h : e.Legal) (sr : Nat) : (e.tick sr).Legal := by
  have unit_zero : Unit01 0 := ⟨le_rfl, zero_le_one⟩
  have unit_one : Unit01 1 := ⟨zero_le_one, le_rfl⟩
  have ratio : ∀ (c : Nat) (T : Q), ¬T ≤ (c : Q) → 0 ≤ (c : Q) / T ∧ (c : Q) / T ≤ 1 := by
    intro c T hT
    have hc : (0 : Q) ≤ c := Nat.cast_nonneg c
    have hT : (c : Q) < T := not_le.mp hT
    exact ⟨div_nonneg hc (hc.trans hT.le), div_le_one_of_le₀ hT.le (hc.trans hT.le)⟩
  unfold Envelope.tick
  split
  · exact { h with level := unit_zero, idle_level := fun _ => rfl }
  · unfold Envelope.tick.attackStep
    split
    · exact { level := unit_one, start := unit_one, idle_level := (fun hs => nomatch hs), par := h.par }
    · obtain ⟨h0, h1⟩ := ratio _ _ ‹_›
      refine { h with level := ?_, idle_level := fun hs => ?_ }
      · simpa only [mul_div_assoc] using unit01_line h.start unit_one h0 h1
      · simp_all
  · unfold Envelope.tick.decayStep
    split
    · exact { level := h.par.sustainLevel, start := h.par.sustainLevel
              idle_level := (fun hs => nomatch hs), par := h.par }
    · obtain ⟨h0, h1⟩ := ratio _ _ ‹_›
      refine { h with level := ?_, idle_level := fun hs => ?_ }
      · simpa only [mul_div_assoc] using unit01_line h.start h.par.sustainLevel h0 h1
      · simp_all
  · refine { h with level := h.par.sustainLevel, idle_level := fun hs => ?_ }
    simp_all
  · unfold Envelope.tick.releaseStep
    split
    · exact { level := unit_zero, start := unit_zero, idle_level := fun _ => rfl, par := h.par }
    · obtain ⟨h0, h1⟩ := ratio _ _ ‹_›
      refine { h with level := ?_, idle_level := fun hs => ?_ }
      · have := unit01_line h.start unit_zero h0 h1
        rwa [zero_sub, neg_mul, ← sub_eq_add_neg, ← mul_one_sub] at this
      · simp_all

/-! ### Parameter registers -/

theorem fmtR_bounds (e : Word) : -32768 ≤ fmtR e ∧ fmtR e < 32768 := by
  have h0 : (-2147483648 : Int) ≤ e.toInt := by have := BitVec.le_toInt e; norm_num at this; exact this
  have h1 : e.toInt < 2147483648 := by have := BitVec.toInt_lt (x := e); norm_num at this; exact this
  have h0 : (-2147483648 : Q) ≤ e.toInt := by exact_mod_cast h0
  have h1 : (e.toInt : Q) < 2147483648 := by exact_mod_cast h1
  unfold fmtR
  constructor <;> linarith

theorem parWrite_legal {p : Params} (h : p.Legal) (k : ParIdx) (e : Word) :
    (parWrite k e p).Legal := by
  obtain ⟨h0, h1⟩ := fmtR_bounds e
  have time : 0 ≤ max (fmtR e) 0 ∧ max (fmtR e) 0 < 32768 :=
    ⟨le_max_right _ _, max_lt h1 (by norm_num)⟩
  cases k
  case att => exact { h with att := time }
  case dec => exact { h with dec := time }
  case sus => exact { h with sus := unit01_clamp _ }
  case rel => exact { h with rel := time }
  case pitch => exact { h with pitch := by simp only [parWrite, clampI]; omega }
  case div => exact { h with div := by simp only [parWrite, clampI]; omega }
  case bits => exact { h with bits := by simp only [parWrite, clampI]; omega }
  case lfoamt => exact { h with lfoamt := ⟨h0, h1⟩ }
  case lforate => exact { h with lforate := time }
  case fbpm => exact { h with fbpm := ⟨le_max_right _ _, max_lt h1 (by norm_num)⟩ }
  all_goals exact { h with }

/-! ### Queues and the output space -/

theorem Memory.Legal.add {b : Nat} {m : Memory} (h : Memory.Legal b m) {i : Nat} (hi : i < b)
    (x : Q) : Memory.Legal b (Memory.add m i x) := by
  refine ⟨Memory.wf_add h.1 i x, fun p hp => ?_⟩
  rcases Memory.mem_write hp with hp | ⟨rfl, -⟩
  · exact h.2 p hp
  · exact hi

theorem QueueLegal.append {d : Nat} {q : List Event} {ev : Event} (h : QueueLegal d q)
    (hl : q.length < d) (ho : ev.off < 2 ^ 32) : QueueLegal d (q ++ [ev]) := by
  refine ⟨by simpa using hl, fun e he => ?_⟩
  rcases List.mem_append.mp he with he | he
  · exact h.2 e he
  · rw [List.mem_singleton.mp he]; exact ho

end Sys2Proof.Machine
end

