-- ==== Sys2Proof/Laws/Numbers.lean ====
section
/-! SUPPORT. What the spec assumes of `SIN2PI` and `EXP2` (00_scope.md R7), by name, and what follows
for the quantiser (43_bitcrusher_decimator.md R202). -/

namespace Sys2Proof.Machine

/-- `EXP2(n) = 2^n` at every integer (R7). -/
theorem exp2_int (n : Int) : exp2 (n : Q) = (2 : Q) ^ n := by simp [exp2]

/-- The hypothesis of R202: `EXP2(x) >= 2` for `x >= 1`. -/
theorem exp2_ge_two {x : Q} (h : 1 ≤ x) : 2 ≤ exp2 x := by
  unfold exp2
  split
  · have hx : ((x.num : Int) : Q) = x := Rat.den_eq_one_iff x |>.mp ‹_›
    have hn : (1 : Int) ≤ x.num := by
      rw [← hx] at h
      exact_mod_cast h
    calc (2 : Q) = 2 ^ (1 : Int) := by norm_num
      _ ≤ 2 ^ x.num := zpow_le_zpow_right₀ (by norm_num) hn
  · exact le_max_right _ _

/-- `EXP2(x) > 0` (R7). -/
theorem exp2_pos (x : Q) : 0 < exp2 x := by
  unfold exp2
  split
  · exact zpow_pos (by norm_num) _
  · split
    · exact lt_of_lt_of_le (by norm_num) (le_max_right _ _)
    · split
      · assumption
      · exact one_pos

/-- `-1 <= SIN2PI(x) <= 1` on [0,1) (R7). -/
theorem sin2pi_bounds {x : Q} (h0 : 0 ≤ x) (h1 : x < 1) : -1 ≤ sin2pi x ∧ sin2pi x ≤ 1 := by
  have clamped (y : Q) : -1 ≤ clampQ y (-1) 1 ∧ clampQ y (-1) 1 ≤ 1 :=
    ⟨le_min (le_max_right _ _) (by norm_num), min_le_right _ _⟩
  unfold sin2pi
  have hx : 0 ≤ x ∧ x < 1 := ⟨h0, h1⟩
  simp only [hx, and_self, if_true]
  by_cases h : x = 0
  · norm_num [h]
  rw [if_neg h]
  by_cases h : x = 1 / 4
  · norm_num [h]
  rw [if_neg h]
  by_cases h : x = 1 / 2
  · norm_num [h]
  rw [if_neg h]
  by_cases h : x = 3 / 4
  · norm_num [h]
  rw [if_neg h]
  by_cases h : x = 1 / 12 ∨ x = 5 / 12
  · rw [if_pos h]
    norm_num
  rw [if_neg h]
  by_cases h : x = 7 / 12 ∨ x = 11 / 12
  · rw [if_pos h]
    norm_num
  rw [if_neg h]
  exact clamped _

/-- The effective depth lies in [1,24] (R201). -/
theorem effDepth_bounds (p : Params) (m : Q) : 1 ≤ effDepth p m ∧ effDepth p m ≤ 24 :=
  ⟨le_min (le_max_right _ _) (by norm_num), min_le_right _ _⟩

/-- The quantiser never divides by zero (R202). -/
theorem one_le_crushSteps (p : Params) (m : Q) : 1 ≤ crushSteps p m := by
  have := exp2_ge_two (effDepth_bounds p m).1
  unfold crushSteps
  linarith

end Sys2Proof.Machine
end

