-- ==== Sys2Proof/Laws/PerInstr.lean ====
section
/-! SUPPORT. The per-instruction family `EncodeLength`: a command's encoding has the number of
extension words that the top two bits of its first word announce (30_encoding.md R102). -/

namespace Sys2Proof.Laws.EncodeLength

/-- The encoding is the command word and as many extension words as it announces. -/
def Statement (i : Sys2Proof.Instr) : Prop :=
  (encode i).length = 1 + nextField ((encode i).headD 0)

/-- The extension-word count of a command word is the top of its opcode. -/
theorem nextField_commandWord (opc : BitVec 8) (v s : BitVec 4) (imm : BitVec 16) :
    nextField (commandWord opc v s imm) = (opc.extractLsb' 6 2).toNat := by
  have h : (commandWord opc v s imm).extractLsb' 30 2 = opc.extractLsb' 6 2 := by
    unfold commandWord
    ext i hi
    simp only [BitVec.getElem_extractLsb', BitVec.getLsbD_append]
    simp (disch := omega) only [if_neg]
    congr 1
    omega
  exact congrArg BitVec.toNat h

theorem nop : Statement .nop := by
  simp [Statement, encode, nextField_commandWord]

theorem reset : Statement .reset := by
  simp [Statement, encode, nextField_commandWord]

theorem outclr : Statement .outclr := by
  simp [Statement, encode, nextField_commandWord]

theorem outrd (c : BitVec 4) (index : BitVec 16) : Statement (.outrd c index) := by
  simp [Statement, encode, nextField_commandWord]

theorem prd (k : ParIdx) : Statement (.prd k) := by
  simp [Statement, encode, nextField_commandWord]

theorem tclr (mask : BitVec 3) : Statement (.tclr mask) := by
  simp [Statement, encode, nextField_commandWord]

theorem tplay (play : Bool) : Statement (.tplay play) := by
  simp [Statement, encode, nextField_commandWord]

theorem osetsh (v o : BitVec 4) (code : BitVec 3) : Statement (.osetsh v o code) := by
  simp [Statement, encode, nextField_commandWord]

theorem oproc (v o : BitVec 4) : Statement (.oproc v o) := by
  simp [Statement, encode, nextField_commandWord]

theorem eon (v e : BitVec 4) : Statement (.eon v e) := by
  simp [Statement, encode, nextField_commandWord]

theorem eoff (v e : BitVec 4) : Statement (.eoff v e) := by
  simp [Statement, encode, nextField_commandWord]

theorem etick (v e : BitVec 4) : Statement (.etick v e) := by
  simp [Statement, encode, nextField_commandWord]

theorem eact (v e : BitVec 4) : Statement (.eact v e) := by
  simp [Statement, encode, nextField_commandWord]

theorem vstart (v : BitVec 4) (note : Note) (vel : Velocity) : Statement (.vstart v note vel) := by
  simp [Statement, encode, nextField_commandWord]

theorem vstop (v : BitVec 4) (tail : Bool) : Statement (.vstop v tail) := by
  simp [Statement, encode, nextField_commandWord]

theorem ablock (n : BitVec 16) : Statement (.ablock n) := by
  simp [Statement, encode, nextField_commandWord]

theorem evpop : Statement .evpop := by
  simp [Statement, encode, nextField_commandWord]

theorem prepare (rate : Word) : Statement (.prepare rate) := by
  simp [Statement, encode, nextField_commandWord]

theorem pwr (k : ParIdx) (payload : Word) : Statement (.pwr k payload) := by
  simp [Statement, encode, nextField_commandWord]

theorem tpos (x : Word) : Statement (.tpos x) := by
  simp [Statement, encode, nextField_commandWord]

theorem tbpm (x : Word) : Statement (.tbpm x) := by
  simp [Statement, encode, nextField_commandWord]

theorem osetf (v o : BitVec 4) (f : Word) : Statement (.osetf v o f) := by
  simp [Statement, encode, nextField_commandWord]

theorem osetp (v o : BitVec 4) (p : Word) : Statement (.osetp v o p) := by
  simp [Statement, encode, nextField_commandWord]

theorem osetdw (v o : BitVec 4) (d : Word) : Statement (.osetdw v o d) := by
  simp [Statement, encode, nextField_commandWord]

theorem osetcy (v o : BitVec 4) (j : BitVec 3) (x : Word) : Statement (.osetcy v o j x) := by
  simp [Statement, encode, nextField_commandWord]

theorem eset (v e : BitVec 4) (j : BitVec 2) (x : Word) : Statement (.eset v e j x) := by
  simp [Statement, encode, nextField_commandWord]

theorem vrend (v : BitVec 4) (start count : BitVec 16) : Statement (.vrend v start count) := by
  simp [Statement, encode, nextField_commandWord]

theorem dhold (v : BitVec 4) (index : BitVec 16) (s : Word) : Statement (.dhold v index s) := by
  simp [Statement, encode, nextField_commandWord]

theorem evpush (on : Bool) (note : Note) (vel : Velocity) (off : Word) :
    Statement (.evpush on note vel off) := by
  simp [Statement, encode, nextField_commandWord]

theorem crush (s m : Word) : Statement (.crush s m) := by
  simp [Statement, encode, nextField_commandWord]

end Sys2Proof.Laws.EncodeLength
end

