-- ==== Sys2Proof/Tests/Slice0.lean ====
section
/-! SUPPORT. The model's own tests: ill-formed terms are refused, words of the spec decode, one-step
tests whose expected values are the spec's vectors (95_test_vectors.md, cited by V number) or its
rules' examples, and for every obligation with hypotheses a witness that meets them. -/

namespace Sys2Proof.Tests

open Sys2Proof.Machine

-- One test after the other: checked side by side, their kernel evaluations want too many threads.
set_option Elab.async false

/-! ### A small machine -/

/-- Latched parameters: times 1/2, 1/2, 1/4 s, level 1/2 (V10). -/
def tAdsr : Adsr where
  attackTime := 1 / 2
  decayTime := 1 / 2
  sustainLevel := 1 / 2
  releaseTime := 1 / 4

/-- A small instance: 16 samples, queues of 4. -/
def tCfg (low : Shape) : Cfg where
  blkmax := 16
  evqDepth := 4
  tuneA4 := 440
  tonalLowShape := low
  noteStartPhase := some 0
  arpVel := 127
  percNoteA := 36
  percNoteB := 38
  percNoteGen := 42
  percEnvA := tAdsr
  percEnvB := tAdsr
  filtAInit := []
  filtBInit := []
  crushNoise := false

/-- Two voices as after reset, two channels, `SR = 8`. -/
def tState (low : Shape) : State where
  voices := List.replicate 2 (Voice.atReset (tCfg low) tAdsr tAdsr tAdsr)
  sr := 8
  srv := true
  badcmd := false
  res := .none
  arp := Arp.atReset
  transport := Transport.atReset
  evin := []
  evout := []
  out := [[], []]
  par := Params.atPowerOn
  pend := []
  cfg := tCfg low
  cmdPort := []
  ctlPort := []
  draws := 0

/-- The machine with oscillator 0 of voice 0 changed. -/
def tOsc (f : Oscillator → Oscillator) : State :=
  (tState .tri).setVoice 0 ((Voice.atReset (tCfg .tri) tAdsr tAdsr tAdsr).setOsc .tonalLow
    (f (Oscillator.atReset .tri)))

/-- The machine with envelope 0 of voice 0 in a given stage, `start = 1/2`. -/
def tEnv (stage : Stage) (level start : Q) (cnt : Nat) (par : Adsr) : State :=
  (tState .tri).setVoice 0 ((Voice.atReset (tCfg .tri) tAdsr tAdsr tAdsr).setEnv .main
    { stage := stage, level := level, start := start, cnt := cnt, par := par })

/-- The machine with changed parameter registers. -/
def tPar (f : Params → Params) : State := { tState .tri with par := f Params.atPowerOn }

/-- A playing voice: a note in Attack at level 1/4 of a four-tick attack. -/
def tPlaying (note : Note) : Voice :=
  { Voice.atReset (tCfg .tri) tAdsr tAdsr tAdsr with
    envMain := { stage := .attack, level := 1 / 4, start := 0, cnt := 1, par := tAdsr }
    state := .playing, note := some note, lastenv := 1 / 4 }

/-- The machine with a given voice 0, in a mode. -/
def tPlayVoice (mode : Fin 3) (vc : Voice) (f : Params → Params) : State :=
  (tPar fun p => { f p with mode := mode }).setVoice 0 vc

/-- The machine with voice 0 playing in a mode. -/
def tPlay (mode : Fin 3) (note : Note) (f : Params → Params) : State :=
  tPlayVoice mode (tPlaying note) f

/-- The machine with notes held, the arpeggiator on and a position. -/
def tArp (held : BitVec 128) (pos : Q) (f : Arp → Arp) : State :=
  { tPar fun p => { p with arpon := true, fbpm := 60 } with
    arp := f { Arp.atReset with held := held, pos := pos } }

/-- The next state, if there is one. -/
def ran (i : Instr) (s : State) : Option State :=
  match exec i s with
  | .next t => some t
  | .fault _ => none
  | .refused _ => none

/-- What `RES` holds after a command. -/
def resAfter (i : Instr) (s : State) : Option Result := (ran i s).map State.res

/-- A register of oscillator 0 of voice 0 after a command. -/
def oscAfter {α : Type} (f : Oscillator → α) (i : Instr) (s : State) : Option α :=
  (ran i s).bind fun t => (t.osc? 0 .tonalLow).map f

/-- A register of envelope 0 of voice 0 after a command. -/
def envAfter {α : Type} (f : Envelope → α) (i : Instr) (s : State) : Option α :=
  (ran i s).bind fun t => (t.env? 0 .main).map f

/-! ### WellFormed: one ill-formed term for each check -/

theorem test_oscillator_4_is_ill_formed : (Instr.oproc 0 4).wellFormed = false := by decide

theorem test_oscillator_3_is_well_formed : (Instr.oproc 15 3).wellFormed = true := by decide

theorem test_envelope_3_is_ill_formed : (Instr.eon 0 3).wellFormed = false := by decide

theorem test_shape_code_4_is_ill_formed : (Instr.osetsh 0 0 4).wellFormed = false := by decide

theorem test_cycle_selector_5_is_ill_formed : (Instr.osetcy 0 0 5 0).wellFormed = false := by decide

theorem test_ill_formed_is_invalid :
    ran (.oproc 0 4) (tState .tri) = some (tState .tri).invalid := by decide +kernel

/-! ### Decode: words of the programs P1 to P6 and of the rules' examples -/

theorem test_decode_nop : decode [0x00000000] = .instr .nop [] := by decide

theorem test_decode_reset : decode [0x01000000] = .instr .reset [] := by decide

theorem test_decode_outclr : decode [0x02000000] = .instr .outclr [] := by decide

theorem test_decode_outrd : decode [0x03010004] = .instr (.outrd 1 4) [] := by decide

theorem test_decode_prd : decode [0x0400000A] = .instr (.prd .div) [] := by decide

theorem test_decode_tclr : decode [0x05000007] = .instr (.tclr 7) [] := by decide

theorem test_decode_tplay : decode [0x06000001] = .instr (.tplay true) [] := by decide

theorem test_decode_osetsh : decode [0x08030003] = .instr (.osetsh 0 3 3) [] := by decide

theorem test_decode_oproc : decode [0x09800000] = .instr (.oproc 8 0) [] := by decide

theorem test_decode_eon : decode [0x10030000] = .instr (.eon 0 3) [] := by decide

theorem test_decode_eoff : decode [0x11000000] = .instr (.eoff 0 0) [] := by decide

theorem test_decode_etick : decode [0x12000000] = .instr (.etick 0 0) [] := by decide

theorem test_decode_eact : decode [0x13000000] = .instr (.eact 0 0) [] := by decide

theorem test_decode_vstart : decode [0x18006445] = .instr (.vstart 0 69 100) [] := by decide

theorem test_decode_vstop : decode [0x19000001] = .instr (.vstop 0 true) [] := by decide

theorem test_decode_ablock : decode [0x20000258] = .instr (.ablock 600) [] := by decide

theorem test_decode_evpop : decode [0x21000000] = .instr .evpop [] := by decide

theorem test_decode_prepare :
    decode [0x40000000, 0x0000BB80] = .instr (.prepare 48000) [] := by decide

theorem test_decode_pwr :
    decode [0x4100000F, 0x00780000] = .instr (.pwr .fbpm 0x00780000) [] := by decide

theorem test_decode_tpos : decode [0x42000000, 0x00006000] = .instr (.tpos 0x6000) [] := by decide

theorem test_decode_tbpm :
    decode [0x43000000, 0x00780000] = .instr (.tbpm 0x00780000) [] := by decide

theorem test_decode_osetf :
    decode [0x48020000, 0x2EE00000] = .instr (.osetf 0 2 0x2EE00000) [] := by decide

theorem test_decode_osetp :
    decode [0x49A10000, 0x10000000] = .instr (.osetp 10 1 0x10000000) [] := by decide

theorem test_decode_osetdw :
    decode [0x4A010000, 0x20000000] = .instr (.osetdw 0 1 0x20000000) [] := by decide

theorem test_decode_osetcy :
    decode [0x4B030004, 0x20000000] = .instr (.osetcy 0 3 4 0x20000000) [] := by decide

theorem test_decode_eset :
    decode [0x50000003, 0x00004000] = .instr (.eset 0 0 3 0x4000) [] := by decide

theorem test_decode_vrend :
    decode [0x58000000, 0x000C0004] = .instr (.vrend 0 12 4) [] := by decide

theorem test_decode_dhold :
    decode [0x59000003, 0x40000000] = .instr (.dhold 0 3 0x40000000) [] := by decide

theorem test_decode_evpush :
    decode [0x6000E443, 0x00000000] = .instr (.evpush true 67 100 0) [] := by decide

theorem test_decode_crush :
    decode [0x80000000, 0x20000000, 0xC0000000] = .instr (.crush 0x20000000 0xC0000000) [] := by
  decide

/-- R111, V51: a reserved opcode consumes the extension words it announces. -/
theorem test_decode_reserved :
    decode [0xC1000000, 1, 2, 3, 0x00000000] = .reserved 0xC1 [0x00000000] := by decide

/-- R103: a command whose extension word has not arrived. -/
theorem test_decode_incomplete : decode [0x40000000] = .incomplete := by decide

theorem test_decode_table_word :
    decodeTableWord 64 0x0000BB8040000000 = some (.prepare 48000) := by decide

theorem test_encode_evpush : encode (.evpush true 60 100 0) = [0x6000E43C, 0] := by decide

/-- R108: the packing of P4's second-block note-on. -/
theorem test_pack_event :
    packEvent (some { off := 400, on := true, note := 64, vel := 127 }) =
      (0x8000FF40, 0x00000190) := by decide

/-! ### Oscillator -/

/-- R142 in V5: SR = 8, 18 Hz gives inc = 9/4. -/
theorem test_osetf : oscAfter (fun c => (c.freq, c.inc, c.phase)) (.osetf 0 0 0x00120000)
    (tState .tri) = some (18, 9 / 4, 0) := by decide +kernel

/-- R112 (f): `OSETF` before any `PREPARE`. -/
theorem test_osetf_needs_rate :
    ran (.osetf 0 0 0) { tState .tri with srv := false } =
      some { tState .tri with srv := false, badcmd := true } := by decide +kernel

/-- V9: -1/8 stores 7/8. -/
theorem test_osetp : oscAfter (fun c => c.phase) (.osetp 0 0 0xF8000000) (tState .tri) =
    some (7 / 8) := by decide +kernel

theorem test_osetsh : oscAfter (fun c => c.shape) (.osetsh 0 0 1) (tState .tri) = some .sine := by
  decide +kernel

/-- V9: 3/2 stores 1. -/
theorem test_osetdw : oscAfter (fun c => c.duty) (.osetdw 0 0 0x60000000) (tState .tri) = some 1 := by
  decide +kernel

theorem test_osetcy : oscAfter (fun c => (c.ca, c.cd, c.ch, c.cr, c.cs)) (.osetcy 0 0 3 0x08000000)
    (tState .tri) = some (0, 0, 0, 1 / 8, 0) := by decide +kernel

/-- V6: the first output at inc = -1/8. -/
theorem test_oproc : resAfter (.oproc 0 0) (tOsc fun c => { c with inc := -1 / 8 }) =
    some (.num (1 / 8)) := by decide +kernel

/-- V9: the fifth output, at phase 5/16. -/
theorem test_oproc_cyc : resAfter (.oproc 0 0) (tOsc fun c =>
    { c with
      shape := .cyc, phase := 1 / 4, inc := 1 / 16
      ca := 1 / 4, cd := 1 / 4, ch := 1 / 4, cr := 1 / 8, cs := 1 / 2 }) =
    some (.num (7 / 8)) := by decide +kernel

/-! ### Envelope -/

theorem test_eset : envAfter (fun e => e.par.sustainLevel) (.eset 0 0 2 0x00018000)
    (tState .tri) = some 1 := by decide +kernel

/-- V11: a second attack starts at 1/4. -/
theorem test_eon : envAfter (fun e => (e.stage, e.start, e.cnt)) (.eon 0 0)
    (tEnv .release (1 / 4) (1 / 2) 2 tAdsr) = some (.attack, 1 / 4, 0) := by decide +kernel

/-- V15: `EOFF` during release restarts it. -/
theorem test_eoff : envAfter (fun e => (e.stage, e.start, e.cnt)) (.eoff 0 0)
    (tEnv .release (1 / 4) (1 / 2) 2 tAdsr) = some (.release, 1 / 4, 0) := by decide +kernel

/-- V16: `EOFF` in Idle changes nothing. -/
theorem test_eoff_idle : ran (.eoff 0 0) (tState .tri) = some (tState .tri) := by decide +kernel

/-- V10: the fourth tick of a four-tick attack. -/
theorem test_etick : envAfter (fun e => (e.level, e.stage)) (.etick 0 0)
    (tEnv .attack (3 / 4) 0 3 tAdsr) = some (1, .decay) := by decide +kernel

/-- V10: the first tick of a two-tick release from 1/2. -/
theorem test_etick_release : resAfter (.etick 0 0) (tEnv .release (1 / 2) (1 / 2) 0 tAdsr) =
    some (.num (1 / 4)) := by decide +kernel

theorem test_eact : resAfter (.eact 0 0) (tEnv .sustain (1 / 2) (1 / 2) 0 tAdsr) =
    some (.bool true) := by decide +kernel

/-! ### Crusher and decimator -/

/-- V26: a tie rounds away from zero; the sample -1/6 needs no format, so the function is tested. -/
theorem test_crush_tie : crush { Params.atPowerOn with bits := 2 } (-1 / 6) 0 = -1 / 3 := by
  decide +kernel

/-- V24: depth 2 + (1/2) * 2. -/
theorem test_crush : resAfter (.crush 0x20000000 0x20000000)
    (tPar fun p => { p with bits := 2, lfoamt := 2 }) = some (.num (4 / 7)) := by decide +kernel

/-- V31: an index that is no multiple of DIV returns the held value. -/
theorem test_dhold_held : resAfter (.dhold 0 1 0x20000000) (tPar fun p => { p with div := 3 }) =
    some (.num 0) := by decide +kernel

theorem test_dhold : (ran (.dhold 0 3 0x40000000) (tPar fun p => { p with div := 3 })).bind
    (fun t => (t.voice? 0).map Voice.hold) = some 1 := by decide +kernel

/-! ### Voice -/

/-- V35 with SR = 8: note 81 at 880 Hz. -/
theorem test_vstart : oscAfter (fun c => (c.freq, c.inc)) (.vstart 0 81 1) (tState .tri) =
    some (880, 110) := by decide +kernel

/-- V36: a hard cut. -/
theorem test_vstop : (ran (.vstop 0 false) (tPlay 0 69 id)).bind (fun t => t.voice? 0) =
    some (Voice.atReset (tCfg .tri) tAdsr tAdsr tAdsr) := by decide +kernel

/-- R227, R237, R238: TRI at phase 0 is 1/4, times level 1/2, crushed with 15 steps: rnd(15/8) / 15,
into both channels. -/
theorem test_vrend : (ran (.vrend 0 2 1) (tPlay 0 69 fun p => { p with bits := 4 })).map
    (fun t => (outRead t.out 0 2, outRead t.out 1 2, outRead t.out 0 3)) =
      some (some (2 / 15), some (2 / 15), some 0) := by decide +kernel

/-- V51: the window ends after BLKMAX. -/
theorem test_vrend_window : ran (.vrend 0 15 2) (tPlay 0 69 id) =
    some (tPlay 0 69 id).invalid := by decide +kernel

/-- R55: `LFOSHAPE(0) = SINE`, `LFOSHAPE(1) = TRI`, `LFOSHAPE(2) = PULSE`. -/
theorem test_lfo_shape_table : (lfoShape 0, lfoShape 1, lfoShape 2) = (.sine, .tri, .pulse) := by
  decide

/-- R46: `PWDEC(0) = 1/8`, `PWDEC(1) = 1/4`, `PWDEC(2) = 1/2`. -/
theorem test_pw_dec_table : (pwDec 0, pwDec 1, pwDec 2) = (1 / 8, 1 / 4, 1 / 2) := by
  decide +kernel

/-! ### Arpeggiation clock -/

/-- V38 block 1 scaled to SR = 8 at 60 BPM: qns = 8, the next position 1/8 is one sample away. -/
theorem test_ablock : (ran (.ablock 2) { tArp 0 0 id with
      par := { (tArp 0 0 id).par with arprate := .eight }
      arp := { (tArp 0 0 id).arp with
        held := (1 <<< 60) ||| (1 <<< 64), pos := 1 / 16, nidx := 1, last := some 60 } }).map
    (fun t => (t.evout, t.arp.nidx, t.arp.pos)) =
      some ([{ off := 0, on := false, note := 60, vel := 0 },
        { off := 0, on := true, note := 64, vel := 127 }], 0, 5 / 16) := by decide +kernel

/-- R75, R260: on a full EVOUT the trigger's note-on is dropped, and NIDX and LAST advance. -/
theorem test_ablock_full : (ran (.ablock 1) { tArp (1 <<< 60) 0 id with
      evout := List.replicate 4 { off := 0, on := true, note := 1, vel := 1 } }).map
    (fun t => (t.evout.length, t.badcmd, t.arp.last)) = some (4, true, some 60) := by
  decide +kernel

/-- R75: the fifth event does not fit. -/
theorem test_evpush_full : (ran (.evpush true 60 100 0) { tState .tri with
      evin := List.replicate 4 { off := 0, on := true, note := 1, vel := 1 } }).map
    (fun t => (t.evin.length, t.badcmd)) = some (4, true) := by decide +kernel

theorem test_evpop : resAfter .evpop { tState .tri with
    evout := [{ off := 400, on := false, note := 60, vel := 0 },
      { off := 400, on := true, note := 64, vel := 127 }] } =
    some (.event { off := 400, on := false, note := 60, vel := 0 }) := by decide +kernel

/-! ### System, parameters, transport, output -/

theorem test_reset_clears : (ran .reset { tState .tri with badcmd := true, evin := [] }).map
    (fun t => (t.badcmd, t.srv, t.res, t.arp)) = some (false, false, .none, Arp.atReset) := by
  decide +kernel

/-- V52: rate 0 stores 1. -/
theorem test_prepare : oscAfter (fun c => (c.freq, c.inc)) (.prepare 2)
    (tOsc fun c => { c with freq := 6, inc := 3 / 4 }) = some (6, 3) := by decide +kernel

theorem test_prepare_zero : (ran (.prepare 0) (tState .tri)).map State.sr = some 1 := by
  decide +kernel

/-- V50: ARPRATE 3 stores 2. -/
theorem test_pwr : (ran (.pwr .arprate 3) (tState .tri)).map (fun t => parRead .arprate t.par) =
    some 2 := by decide +kernel

/-- V50: PITCH -20 stores -12. -/
theorem test_pwr_pitch : (ran (.pwr .pitch 0xFFFFFFEC) (tState .tri)).map (fun t => t.par.pitch) =
    some (-12) := by decide +kernel

theorem test_prd : resAfter (.prd .div) (tState .tri) = some (.num 1) := by decide +kernel

theorem test_tpos : (ran (.tpos 0x00006000) (tState .tri)).map (fun t =>
    (t.transport.tpos, t.transport.tposv)) = some (3 / 8, true) := by decide +kernel

theorem test_tbpm : (ran (.tbpm 0x00780000) (tState .tri)).map (fun t =>
    (t.transport.tbpm, t.transport.tbpmv)) = some (120, true) := by decide +kernel

theorem test_tplay : (ran (.tplay true) (tState .tri)).map (fun t =>
    (t.transport.tplay, t.transport.tplayv)) = some (true, true) := by decide +kernel

theorem test_tclr : (ran (.tclr 2) { tState .tri with
      transport := { Transport.atReset with tposv := true, tbpm := 7, tbpmv := true } }).map
    (fun t => (t.transport.tposv, t.transport.tbpmv, t.transport.tbpm)) =
      some (true, false, 7) := by decide +kernel

theorem test_outclr : (ran .outclr { tState .tri with out := [[(3, 1 / 2)], []] }).map State.out =
    some [[], []] := by decide +kernel

theorem test_outrd : resAfter (.outrd 1 5) { tState .tri with out := [[], [(5, 1 / 3)]] } =
    some (.num (1 / 3)) := by decide +kernel

theorem test_outrd_no_channel :
    ran (.outrd 2 5) (tState .tri) = some (tState .tri).invalid := by decide +kernel

/-! ### The step -/

/-- The word of `NOP` put at the head of the command port runs as the next step. -/
theorem test_step_fetches :
    step ((tState .tri).withFetchWord 32 0) = .next (tState .tri) := by rfl

/-- A control write already due is seen by the command of the same step (R77). -/
theorem test_step_control_write_first :
    (match step ({ tState .tri with
        pend := [{ k := .div, payload := 5, delay := 0 }] }.withFetchWord 32 0x0400000A) with
      | .next t => some (t.res, t.pend)
      | .fault _ => none
      | .refused _ => none) = some (.num 5, []) := by decide +kernel

/-! ### Witnesses: for every obligation with hypotheses, a state and operands that meet them -/

/-- A voice as after reset is legal. -/
theorem atReset_legal (low : Shape) :
    (Voice.atReset (tCfg low) tAdsr tAdsr tAdsr).Legal true 8 where
  osc o := by cases o <;> exact Oscillator.atReset_legal _ _ _
  env e := by
    cases e <;> constructor <;>
      norm_num [Voice.env, Voice.atReset, Envelope.atReset, Unit01] <;> constructor <;>
      norm_num [tAdsr, Unit01]
  idle_iff := by simp [Voice.atReset]
  lastenv := by norm_num [Voice.atReset, Unit01]

/-- The small machine is legal. -/
theorem tState_inv (low : Shape) : (tState low).Inv where
  nv := ⟨Nat.le_add_left _ _, Nat.le_add_left 2 14⟩
  nch := ⟨Nat.le_add_left _ _, Nat.le_add_left 2 14⟩
  cfg := by
    constructor <;> simp [tState, tCfg] <;> first | decide | (constructor <;> norm_num [tAdsr, Unit01])
  sr := Nat.le_add_left 1 7
  voices vc hv := by
    rw [List.eq_of_mem_replicate hv]
    exact atReset_legal low
  par := by constructor <;> norm_num [tState, Params.atPowerOn, Unit01]
  evin := ⟨Nat.zero_le _, fun _ h => nomatch h⟩
  evout := ⟨Nat.zero_le _, fun _ h => nomatch h⟩
  out m hm := by
    rw [show m = [] by simpa [tState] using hm]
    exact ⟨⟨List.Pairwise.nil, fun _ h => nomatch h⟩, fun _ h => nomatch h⟩

/-- Too few words; just enough, with a defined opcode and with reserved ones beside defined ones. -/
theorem witness_DecodeConsumesWholeCommand :
    ([0] : List Word).length < (0x80000000 : Word).toNat / 2 ^ 30 ∧
    (0x80000000 : Word).toNat / 2 ^ 30 ≤ ([0, 0] : List Word).length ∧
    0x80 = (0x80000000 : Word).toNat / 2 ^ 24 ∧
    0x07 = (0x07FFFFFF : Word).toNat / 2 ^ 24 ∧
    (0x07FFFFFF : Word).toNat / 2 ^ 30 ≤ ([] : List Word).length ∧
    0xC1 = (0xC1000000 : Word).toNat / 2 ^ 24 ∧
    (0xC1000000 : Word).toNat / 2 ^ 30 ≤ ([0, 0, 0] : List Word).length := by decide

theorem witness_ReservedBitsIgnored :
    (0x04FFFFFA : Word) &&& usedBits ((0x04FFFFFA : Word).toNat / 2 ^ 24) =
      0x0400000A &&& usedBits ((0x04FFFFFA : Word).toNat / 2 ^ 24) := by decide

theorem witness_StepRunsDecodedCommand :
    decode { tState .tri with cmdPort := [0x09000000, 7] }.cmdPort = .instr (.oproc 0 0) [7] := by
  decide

theorem witness_IncompleteWaitsAndReservedIsInvalid :
    decode (tState .tri).cmdPort = .incomplete ∧
    decode { tState .tri with cmdPort := [0x61000000, 0, 7] }.cmdPort = .reserved 0x61 [7] := by
  decide

theorem witness_StepKeepsInv :
    ({ tState .tri with cmdPort := [0x09000000] } : State).Inv ∧
    ∃ t, step { tState .tri with cmdPort := [0x09000000] } = .next t :=
  ⟨{ tState_inv .tri with }, _, rfl⟩

/-- Each condition of R112 (c) to (g) at its boundary: voice 2 of 2, oscillator 4, envelope 3, shape
code 4, selector 5, channel 2 of 2, index 16 of 16, a window one sample too long, no sample rate. -/
theorem witness_InvalidCommandOnlySetsBadcmd :
    InvalidCommand (tState .tri) (.outrd 2 0) ∧ InvalidCommand (tState .tri) (.outrd 0 16) ∧
    InvalidCommand (tState .tri) (.osetsh 2 0 0) ∧ InvalidCommand (tState .tri) (.osetsh 0 4 0) ∧
    InvalidCommand (tState .tri) (.osetsh 0 0 4) ∧ InvalidCommand (tState .tri) (.osetcy 0 0 5 0) ∧
    InvalidCommand (tState .tri) (.eon 0 3) ∧ InvalidCommand (tState .tri) (.vrend 0 1 16) ∧
    InvalidCommand { tState .tri with srv := false } (.ablock 1) ∧
    (Instr.oproc 0 4).wellFormed = false := by
  simp [InvalidCommand, tState, tCfg, Instr.wellFormed, oscFieldOk]

theorem witness_BadcmdStaysSet :
    { tState .tri with badcmd := true }.badcmd = true ∧
    (∃ t, exec .reset { tState .tri with badcmd := true } = .next t) ∧
    ∃ t, exec (.oproc 0 0) { tState .tri with badcmd := true } = .next t :=
  ⟨rfl, ⟨_, rfl⟩, _, rfl⟩

theorem witness_BadcmdIsNeverRead : ∃ t, exec (.oproc 0 4) (tState .tri) = .next t := ⟨_, rfl⟩

theorem witness_VoicesAreIsolated :
    voiceNamed (.oproc 0 0) = some 0 ∧ (1 : BitVec 4) ≠ 0 ∧
    ∃ t, exec (.oproc 0 0) (tState .tri) = .next t := ⟨rfl, by decide, _, rfl⟩

/-- A `PWR` and a `NOP` with reserved bits set, a reserved opcode, an incomplete `PWR`. -/
theorem witness_CtlCommandQueuesOrIsInvalid :
    decode { tState .tri with ctlPort := [0x41FFFFFA, 5, 9] }.ctlPort = .instr (.pwr .div 5) [9] ∧
    (∀ k e, Instr.nop ≠ .pwr k e) ∧
    decode { tState .tri with ctlPort := [0x00ABCDEF, 9] }.ctlPort = .instr .nop [9] ∧
    decode { tState .tri with ctlPort := [0x61000000, 0, 9] }.ctlPort = .reserved 0x61 [9] ∧
    decode { tState .tri with ctlPort := [0x4100000A] }.ctlPort = .incomplete :=
  ⟨by decide, fun _ _ => nofun, by decide, by decide, by decide⟩

/-- For the last clause: an idle control port, with three writes to one register pending. -/
theorem witness_CtlWritesBecomeVisible :
    ({ tState .tri with
        pend := [⟨.div, 5, 0⟩, ⟨.div, 6, 2⟩, ⟨.div, 7, 0⟩] } : State).ctlPort = [] ∧
    ({ tState .tri with
        pend := [⟨.div, 5, 0⟩, ⟨.div, 6, 2⟩, ⟨.div, 7, 0⟩] } : State).pendOf .div = [5, 6, 7] := by
  decide

/-- For `OSETF`, `OSETP`, `OSETSH`, `OSETDW`: an oscillator exists and `SRV = 1`. -/
theorem witness_oscillator_commands :
    (tState .tri).srv = true ∧
    (tState .tri).osc? 1 .lfo = some (Oscillator.atReset .sine) := ⟨rfl, rfl⟩

/-- For `OSETCY`: the value 3/2 becomes 1, and every selector has its register. -/
theorem witness_OsetcySetsCycleRegister :
    (tState .tri).osc? 0 .tonalLow = some (Oscillator.atReset .tri) ∧
    (1 : ℚ) = min (max (((0x60000000 : Word).toInt : ℚ) / 2 ^ 30) 0) 1 ∧
    ((0 : BitVec 3) = 0 ∧ (4 : BitVec 3) = 4) := by decide +kernel

/-- An oscillator with an ADSR-shaped cycle of four fifths. -/
def tCyc (phase : Q) : Oscillator :=
  { Oscillator.atReset .cyc with
    phase := phase, ca := 1 / 5, cd := 1 / 5, ch := 1 / 5, cr := 1 / 5, cs := 1 / 2 }

/-- For `OPROC`: all four shapes, and the cycle at the start of each of its five segments. -/
theorem witness_OprocAdvancesAndReturnsSample :
    (∀ sh, (tOsc fun _ => Oscillator.atReset sh).osc? 0 .tonalLow =
      some (Oscillator.atReset sh) ∧ (Oscillator.atReset sh).shape = sh) ∧
    (∀ φ ∈ [(0 : ℚ), 1 / 5, 2 / 5, 3 / 5, 4 / 5],
      (tOsc fun _ => tCyc φ).osc? 0 .tonalLow = some (tCyc φ) ∧
        φ = Int.fract ((tCyc φ).phase + (tCyc φ).inc) ∧ (tCyc φ).shape = .cyc) := by
  refine ⟨fun sh => ⟨rfl, rfl⟩, fun φ hφ => ⟨rfl, ?_, rfl⟩⟩
  have h : 0 ≤ φ ∧ φ < 1 := by
    simp only [List.mem_cons, List.not_mem_nil, or_false] at hφ
    rcases hφ with rfl | rfl | rfl | rfl | rfl <;> norm_num
  simpa [tCyc, Oscillator.atReset] using (Int.fract_eq_self.mpr h).symm

theorem witness_OprocOutputRanges (sh : Shape) :
    (tState sh).Inv ∧ ∃ c t x, (tState sh).osc? 0 .tonalLow = some c ∧ c.shape = sh ∧
      exec (.oproc 0 (oscNum .tonalLow)) (tState sh) = .next t ∧ t.res = .num x :=
  ⟨tState_inv sh, _, _, _, rfl, rfl, rfl, rfl⟩

/-- For `ESET`, `EON`, `EOFF`, `EACT`: an envelope in Idle and one that is active. -/
theorem witness_envelope_commands :
    (tState .tri).env? 1 .auxB = some (Envelope.atReset tAdsr) ∧
    (Envelope.atReset tAdsr).stage = .idle ∧
    (tEnv .decay (3 / 4) 1 2 tAdsr).env? 0 .main = some ⟨.decay, 3 / 4, 1, 2, tAdsr⟩ ∧
    (1 / 2 : ℚ) = ((0x8000 : Word).toInt : ℚ) / 2 ^ 16 := by decide +kernel

/-- The tick that completes a four-tick attack, and one that does not. -/
theorem witness_EtickInAttack :
    (tEnv .attack (3 / 4) 0 3 tAdsr).srv = true ∧
    (tEnv .attack (3 / 4) 0 3 tAdsr).env? 0 .main = some ⟨.attack, 3 / 4, 0, 3, tAdsr⟩ ∧
    (tEnv .attack (1 / 2) 0 2 tAdsr).env? 0 .main = some ⟨.attack, 1 / 2, 0, 2, tAdsr⟩ ∧
    (4 : ℚ) = tAdsr.attackTime * (8 : ℕ) ∧ (4 : ℚ) ≤ ((3 + 1 : ℕ) : ℚ) ∧
    ((2 + 1 : ℕ) : ℚ) < 4 := by decide +kernel

theorem witness_EtickInDecay :
    (tEnv .decay (5 / 8) 1 3 tAdsr).srv = true ∧
    (tEnv .decay (5 / 8) 1 3 tAdsr).env? 0 .main = some ⟨.decay, 5 / 8, 1, 3, tAdsr⟩ ∧
    (tEnv .decay (3 / 4) 1 2 tAdsr).env? 0 .main = some ⟨.decay, 3 / 4, 1, 2, tAdsr⟩ ∧
    (4 : ℚ) = tAdsr.decayTime * (8 : ℕ) ∧ (4 : ℚ) ≤ ((3 + 1 : ℕ) : ℚ) ∧
    ((2 + 1 : ℕ) : ℚ) < 4 := by decide +kernel

theorem witness_EtickInSustainAndIdle :
    (tEnv .sustain (1 / 2) 1 0 tAdsr).srv = true ∧
    (tEnv .sustain (1 / 2) 1 0 tAdsr).env? 0 .main = some ⟨.sustain, 1 / 2, 1, 0, tAdsr⟩ ∧
    (tState .tri).srv = true ∧
    (tState .tri).env? 0 .main = some ⟨.idle, 0, 0, 0, tAdsr⟩ := by decide +kernel

theorem witness_EtickInRelease :
    (tEnv .release (1 / 4) (1 / 2) 1 tAdsr).srv = true ∧
    (tEnv .release (1 / 4) (1 / 2) 1 tAdsr).env? 0 .main =
      some ⟨.release, 1 / 4, 1 / 2, 1, tAdsr⟩ ∧
    (tEnv .release (1 / 2) (1 / 2) 0 tAdsr).env? 0 .main =
      some ⟨.release, 1 / 2, 1 / 2, 0, tAdsr⟩ ∧
    (2 : ℚ) = tAdsr.releaseTime * (8 : ℕ) ∧ (2 : ℚ) ≤ ((1 + 1 : ℕ) : ℚ) ∧
    ((0 + 1 : ℕ) : ℚ) < 2 := by decide +kernel

/-- An envelope on the line of each moving stage, one tick from its end. -/
theorem witness_EnvelopeLevelIsContinuous :
    (∀ e ∈ [(⟨.attack, 3 / 4, 0, 3, tAdsr⟩ : Envelope), ⟨.decay, 5 / 8, 1, 3, tAdsr⟩,
        ⟨.release, 1 / 4, 1 / 2, 1, tAdsr⟩],
      e.Legal ∧ e.OnLine 8 ∧ 1 ≤ e.par.attackTime * ((8 : ℕ) : ℚ) ∧
        1 ≤ e.par.decayTime * ((8 : ℕ) : ℚ) ∧ 1 ≤ e.par.releaseTime * ((8 : ℕ) : ℚ)) := by
  intro e he
  have hp : AdsrLegal tAdsr := by constructor <;> norm_num [tAdsr, Unit01]
  simp only [List.mem_cons, List.not_mem_nil, or_false] at he
  rcases he with rfl | rfl | rfl <;>
    refine ⟨⟨by norm_num [Unit01], by norm_num [Unit01], nofun, hp⟩, ?_⟩ <;>
    norm_num [Envelope.OnLine, tAdsr]

theorem witness_CrushReturnsQuantised :
    (1 : ℚ) = exp2 (min (max (((tState .tri).par.bits : ℚ) +
      ((0 : Word).toInt : ℚ) / 2 ^ 30 * (tState .tri).par.lfoamt) 1) 24) - 1 := by decide +kernel

/-- Two ties, one of each sign. -/
theorem witness_RoundingIsNearestTiesAway :
    |rnd (1 / 2) - 1 / 2| = 1 / 2 ∧ |rnd (-3 / 2) - (-3 / 2)| = 1 / 2 := by decide +kernel

theorem witness_CrushErrorBound : effDepth { Params.atPowerOn with bits := 24 } 0 = 24 := by
  decide +kernel

theorem witness_CrushFixedPoints :
    effDepth { Params.atPowerOn with bits := 2 } 0 = ((2 : ℕ) : ℚ) ∧
    crushSteps { Params.atPowerOn with bits := 2 } 0 = ((3 : ℤ) : ℚ) ∧
    24 ≤ { Params.atPowerOn with bits := 24 }.bits ∧
    (0 : ℚ) * { Params.atPowerOn with bits := 24 }.lfoamt = 0 ∧ (1 : ℚ) ≤ 1 := by decide +kernel

theorem witness_DholdHoldsOrReturnsHeld :
    (tPar fun p => { p with div := 2 }).voice? 1 =
      some (Voice.atReset (tCfg .tri) tAdsr tAdsr tAdsr) ∧
    (1 / 2 : ℚ) = ((0x20000000 : Word).toInt : ℚ) / 2 ^ 30 ∧
    (2 : BitVec 16).toNat % (tPar fun p => { p with div := 2 }).par.div = 0 ∧
    (1 : BitVec 16).toNat % (tPar fun p => { p with div := 2 }).par.div ≠ 0 := by decide +kernel

theorem witness_VstartStartsNote :
    (tState .tri).srv = true ∧
    (tState .tri).voice? 0 = some (Voice.atReset (tCfg .tri) tAdsr tAdsr tAdsr) ∧
    (440 : ℚ) = (tState .tri).cfg.tuneA4 * exp2 ((((69 : Note).val : ℚ) - 69) / 12) *
      exp2 (((tState .tri).par.pitch : ℚ) / 12) ∧
    (∀ x : ℚ, (fun _ : ℚ => (0 : ℚ)) x =
      match (tState .tri).cfg.noteStartPhase with | none => x | some y => y) :=
  ⟨rfl, rfl, by decide +kernel, fun _ => rfl⟩

theorem witness_VstopReleasesOrCuts :
    (tPlay 0 69 id).voice? 0 = some (tPlaying 69) ∧ (tPlaying 69).state = .playing ∧
    (tState .tri).voice? 0 = some (Voice.atReset (tCfg .tri) tAdsr tAdsr tAdsr) ∧
    (Voice.atReset (tCfg .tri) tAdsr tAdsr tAdsr).state = .idle := by decide +kernel

/-- What the three one-sample statements ask of the state before they branch. -/
def SampleHyps (s : State) (vc : Voice) (i : BitVec 16) (mode : Fin 3) : Prop :=
  (∀ m ∈ s.out, Memory.wf m) ∧ s.srv = true ∧ s.voice? 0 = some vc ∧ vc.state = .playing ∧
    i.toNat + 1 ≤ s.cfg.blkmax ∧ s.par.mode = mode

/-- They hold of the machine playing a voice, at the last index of its buffer. -/
theorem sampleHyps_tPlayVoice (mode : Fin 3) (vc : Voice) (f : Params → Params)
    (hv : vc.state = .playing) : SampleHyps (tPlayVoice mode vc f) vc 15 mode := by
  refine ⟨fun m hm => ?_, rfl, rfl, hv, le_rfl, rfl⟩
  rw [show m = [] by simpa [tPlayVoice, tPar, tState] using hm]
  exact ⟨List.Pairwise.nil, fun _ h => nomatch h⟩

theorem witness_VrendTonalLowSample : SampleHyps (tPlay 0 69 id) (tPlaying 69) 15 0 :=
  sampleHyps_tPlayVoice _ _ _ rfl

/-- The voice of the third clause: the level does not rise above the previous sample's. -/
def tFalling : Voice := { tPlaying 69 with lastenv := 1 / 2 }

/-- Equal widths; unequal widths with a rising level; unequal widths with a level that does not
rise. -/
theorem witness_VrendTonalPulseSample :
    (SampleHyps (tPlay 1 69 id) (tPlaying 69) 15 1 ∧
      (tPlay 1 69 id).par.pw1 = (tPlay 1 69 id).par.pw2) ∧
    (SampleHyps (tPlay 1 69 fun p => { p with pw1 := 2 }) (tPlaying 69) 15 1 ∧
      (2 : Fin 3) ≠ 0 ∧ (tPlaying 69).lastenv < ((tPlaying 69).envMain.tick 8).level) ∧
    (SampleHyps (tPlayVoice 1 tFalling fun p => { p with pw1 := 2 }) tFalling 15 1 ∧
      (2 : Fin 3) ≠ 0 ∧ (tFalling.envMain.tick 8).level ≤ tFalling.lastenv) :=
  ⟨⟨sampleHyps_tPlayVoice _ _ _ rfl, rfl⟩,
    ⟨sampleHyps_tPlayVoice _ _ _ rfl, by decide, by decide +kernel⟩,
    sampleHyps_tPlayVoice _ _ _ rfl, by decide, by decide +kernel⟩

/-- The four branches on the note. -/
theorem witness_VrendPercussiveSample :
    (∀ note : Note, SampleHyps (tPlay 2 note id) (tPlaying note) 15 2) ∧
    (tPlaying 36).note = some (tPlay 2 36 id).cfg.percNoteA ∧
    (tPlaying 38).note = some (tPlay 2 38 id).cfg.percNoteB ∧
    (tPlaying 42).note = some (tPlay 2 42 id).cfg.percNoteGen ∧
    (tPlaying 60).note ≠ some (tPlay 2 60 id).cfg.percNoteA ∧
    (tPlaying 60).note ≠ some (tPlay 2 60 id).cfg.percNoteB ∧
    (tPlaying 60).note ≠ some (tPlay 2 60 id).cfg.percNoteGen :=
  ⟨fun _ => sampleHyps_tPlayVoice _ _ _ rfl, by decide +kernel⟩

theorem witness_VrendFrame :
    (tPlay 0 69 id).srv = true ∧ (tPlay 0 69 id).voice? 0 = some (tPlaying 69) ∧
    (0 : BitVec 16).toNat + (16 : BitVec 16).toNat ≤ (tPlay 0 69 id).cfg.blkmax ∧
    (tPlay 0 69 id).pend = [] ∧ (tPlay 0 69 id).ctlPort = [] ∧
    (tState .tri).voice? 0 = some (Voice.atReset (tCfg .tri) tAdsr tAdsr tAdsr) ∧
    (Voice.atReset (tCfg .tri) tAdsr tAdsr tAdsr).state = .idle := by decide +kernel

theorem witness_VrendWindowSplits :
    (tPlay 0 69 id).pend = [] ∧ (tPlay 0 69 id).ctlPort = [] ∧
    (0 : BitVec 16).toNat + (2 : BitVec 16).toNat + (14 : BitVec 16).toNat ≤
      (tPlay 0 69 id).cfg.blkmax ∧
    (0 : BitVec 16).toNat + (2 : BitVec 16).toNat + (14 : BitVec 16).toNat < 65536 ∧
    (ran (.vrend 0 0 2) (tPlay 0 69 id)).isSome = true := by decide +kernel

theorem witness_VrendAddsWhateverTheBufferHolds :
    (∀ m ∈ (tPlay 0 69 id).out, Memory.wf m) ∧
    (∀ m ∈ ([[(3, 1 / 2)], []] : List Memory), Memory.wf m) ∧
    ([[(3, 1 / 2)], []] : List Memory).length = (tPlay 0 69 id).out.length ∧
    (ran (.vrend 0 0 2) (tPlay 0 69 id)).isSome = true ∧
    outRead (tPlay 0 69 id).out 1 3 = some 0 ∧
    outRead ([[(3, 1 / 2)], []] : List Memory) 0 3 = some (1 / 2) := by decide +kernel

/-- With the host's tempo and without it. -/
theorem witness_AblockAdvancesClock :
    (tArp 0 0 id).srv = true ∧
    (60 : ℚ) = (if (tArp 0 0 id).transport.tbpmv = true ∧ 0 < (tArp 0 0 id).transport.tbpm then
      (tArp 0 0 id).transport.tbpm else (tArp 0 0 id).par.fbpm) := by decide +kernel

/-- With a trigger (block of one sample) and without one (empty block, the boundary). -/
theorem witness_TransportRestartResetsCursor :
    (tArp (1 <<< 60) 0 id).srv = true ∧
    ((ran (.ablock 1) { tArp (1 <<< 60) 0 id with
      transport := { Transport.atReset with tplay := true, tplayv := true } }).map fun t =>
        (t.arp.playing, t.arp.wasPlaying)) = some (true, false) ∧
    (tArp (1 <<< 60) 0 id).par.arpon = true ∧
    triggerDist (tArp (1 <<< 60) 0 id).par 0 8 < ((1 : BitVec 16).toNat : ℚ) ∧
    ((0 : BitVec 16).toNat : ℚ) ≤ triggerDist (tArp (1 <<< 60) 0 id).par 0 8 := by decide +kernel

/-- At position 0 the next trigger is at distance 0: it does not fire in an empty block, it fires in
a block of one sample, with no note held and with note 60 held after an earlier note; and with one
place free in EVOUT and with none. -/
theorem witness_AblockTriggers :
    (tArp 0 0 id).srv = true ∧ (tArp 0 0 id).par.arpon = true ∧
    (8 : ℕ) = 8 / (tArp 0 0 id).par.arprate.rate ∧
    (8 : ℚ) = ((tArp 0 0 id).sr : ℚ) * 60 / (tArp 0 0 id).par.fbpm ∧
    IsLeast { x : ℚ | ∃ k : ℕ, k ≤ 8 ∧ k % 8 = 0 ∧ x = (k : ℚ) / 8 ∧ Int.fract (0 : ℚ) ≤ x } 0 ∧
    (0 : ℚ) = (0 - Int.fract 0) * 8 ∧
    ((0 : BitVec 16).toNat : ℚ) ≤ 0 ∧ (0 : ℚ) < ((1 : BitVec 16).toNat : ℚ) ∧
    [] = heldNotes (heldAfter (tArp 0 0 id).arp.held (tArp 0 0 id).evin) ∧
    ([60] : List Note) = heldNotes (heldAfter
      (tArp (1 <<< 60) 0 fun a => { a with last := some 64 }).arp.held []) ∧
    ([60] : List Note)[0 % ([60] : List Note).length]? = some 60 ∧
    (tArp 0 0 id).cfg.evqDepth - (List.replicate 3 (⟨0, true, 60, 100⟩ : Event)).length = 1 ∧
    (tArp 0 0 id).cfg.evqDepth - (List.replicate 4 (⟨0, true, 60, 100⟩ : Event)).length = 0 := by
  refine ⟨rfl, rfl, by decide, by decide +kernel, ⟨⟨0, by norm_num⟩, ?_⟩, by norm_num,
    by simp, by simp, by decide +kernel, by decide +kernel, by decide, rfl, rfl⟩
  rintro x ⟨k, -, -, rfl, -⟩
  positivity

theorem witness_TriggersPlayRoundRobin :
    0 < heldCount (tArp ((1 <<< 60) ||| (1 <<< 64)) 0 id).arp.held := by decide +kernel

theorem witness_AblockPassesThrough :
    (tState .tri).srv = true ∧ (tState .tri).par.arpon = false := by decide

/-- At position 1/2 with one trigger per quarter note of 8 samples: four samples to go. -/
theorem witness_TriggerCarriesOver :
    (0 : ℚ) < 8 ∧ ((4 : ℕ) : ℚ) ≤ triggerDist Params.atPowerOn (1 / 2) 8 := by decide +kernel

theorem witness_EvpushAppendsAndEvpopTakesHead :
    (tState .tri).evin.length < (tState .tri).cfg.evqDepth ∧
    (tState .tri).cfg.evqDepth ≤ { tState .tri with
      evin := List.replicate 4 ⟨0, true, 60, 100⟩ }.evin.length ∧
    (tState .tri).evout = [] ∧
    { tState .tri with evout := [⟨0, true, 60, 100⟩] }.evout = ⟨0, true, 60, 100⟩ :: [] := by
  decide

theorem witness_NopDoesNothing :
    { tState .tri with ctlPort := [0x00000000, 9] }.ctlPort = 0x00000000 :: [9] := rfl

theorem witness_OutclrClearsAndOutrdReads :
    (1 : ℕ) < (tState .tri).out.length ∧
    outRead (tState .tri).out (1 : BitVec 4).toNat (15 : BitVec 16).toNat = some 0 ∧
    (15 : BitVec 16).toNat < (tState .tri).cfg.blkmax := by decide +kernel

end Sys2Proof.Tests
end

section
/-! PROOFS. Rounding (00_scope.md R8) and the quantiser's fixed points (43_bitcrusher_decimator.md
R203). `rnd` is Mathlib's `round` on the non-negatives and its odd extension below, so its distance
from x is that of `round |x|` from |x|; the quantiser inherits oddness and its fixed points from it. -/

namespace Sys2Proof.Machine

/-! ### `rnd` -/

theorem rnd_of_nonneg {x : Q} (h : 0 ≤ x) : rnd x = (round x : ℤ) := by
  rw [rnd, if_pos h, floorQ, round_eq]
  rfl

/-- `rnd` is odd (R8). -/
theorem rnd_neg (x : Q) : rnd (-x) = -rnd x := by
  rcases lt_trichotomy x 0 with h | rfl | h
  · simp [rnd, h.le, h.not_ge]
  · simp [rnd_of_nonneg]
  · simp [rnd, h.le, h.not_ge]

theorem rnd_of_nonpos {x : Q} (h : x ≤ 0) : rnd x = -(round (-x) : ℤ) := by
  rw [← rnd_of_nonneg (neg_nonneg.mpr h), rnd_neg, neg_neg]

theorem exists_int_rnd (x : Q) : ∃ z : ℤ, rnd x = z := by
  rcases le_total 0 x with h | h
  · exact ⟨round x, rnd_of_nonneg h⟩
  · exact ⟨-round (-x), by rw [rnd_of_nonpos h, Int.cast_neg]⟩

/-- An integer is its own rounding. -/
@[simp] theorem rnd_intCast (z : ℤ) : rnd (z : Q) = z := by
  rcases le_total 0 (z : Q) with h | h
  · rw [rnd_of_nonneg h, round_intCast]
  · have negated : round (-(z : Q)) = -z := by rw [← Int.cast_neg, round_intCast]
    rw [rnd_of_nonpos h, negated, Int.cast_neg, neg_neg]

theorem rnd_nonneg {x : Q} (h : 0 ≤ x) : 0 ≤ rnd x := by
  rw [rnd_of_nonneg h, round_eq]
  exact_mod_cast Int.floor_nonneg.mpr (by linarith)

/-- The size of the rounding is the rounding of the size. -/
theorem abs_rnd (x : Q) : |rnd x| = rnd (|x|) := by
  rcases le_total 0 x with h | h
  · rw [abs_of_nonneg h, abs_of_nonneg (rnd_nonneg h)]
  · rw [abs_of_nonpos h, ← abs_neg, ← rnd_neg, abs_of_nonneg (rnd_nonneg (neg_nonneg.mpr h))]

/-- The rounding error has the size it has at |x|. -/
theorem abs_rnd_sub (x : Q) : |rnd x - x| = |rnd (|x|) - (|x|)| := by
  rcases le_total 0 x with h | h
  · rw [abs_of_nonneg h]
  · rw [abs_of_nonpos h, rnd_neg, neg_sub_neg, abs_sub_comm]

theorem abs_rnd_sub_le (x : Q) : |rnd x - x| ≤ 1 / 2 := by
  rw [abs_rnd_sub, rnd_of_nonneg (abs_nonneg x), abs_sub_comm]
  exact abs_sub_round |x|

/-- Among the non-negatives the rounding falls short by less than 1/2. -/
theorem sub_half_lt_rnd {x : Q} (h : 0 ≤ x) : x - 1 / 2 < rnd x := by
  rw [rnd_of_nonneg h, round_eq]
  linarith [Int.lt_floor_add_one (x + 1 / 2)]

/-- A tie goes away from zero: at distance 1/2 the rounding of |x| can only lie above |x|. -/
theorem abs_lt_abs_rnd_of_tie {x : Q} (tie : |rnd x - x| = 1 / 2) : |x| < |rnd x| := by
  rw [abs_rnd_sub] at tie
  rw [abs_rnd]
  have above := sub_half_lt_rnd (abs_nonneg x)
  rcases abs_choice (rnd (|x|) - |x|) with h | h <;> linarith

/-- Settles O34: `round |x|` is nearest, and odd extension carries that to every x. -/
theorem roundingIsNearestTiesAway : Obligations.RoundingIsNearestTiesAway := fun x =>
  ⟨exists_int_rnd x, abs_rnd_sub_le x, abs_lt_abs_rnd_of_tie, rnd_neg x⟩

/-! ### The quantiser's fixed points -/

theorem crush_neg (p : Params) (x m : Q) : crush p (-x) m = -crush p x m := by
  rw [crush, crush, neg_mul, rnd_neg, neg_div]

theorem crush_zero (p : Params) (m : Q) : crush p 0 m = 0 := by
  have rnd_zero : rnd 0 = 0 := by exact_mod_cast rnd_intCast 0
  rw [crush, zero_mul, rnd_zero, zero_div]

/-- Full scale lies on the grid when the step count is an integer (R203). -/
theorem crush_one_of_int_steps {p : Params} {m : Q} {z : ℤ} (h : crushSteps p m = z) :
    crush p 1 m = 1 := by
  have nonzero : crushSteps p m ≠ 0 := (zero_lt_one.trans_le (one_le_crushSteps p m)).ne'
  rw [crush, one_mul, h, rnd_intCast, ← h, div_self nonzero]

theorem crushSteps_of_nat_depth {p : Params} {m : Q} {b : ℕ} (h : effDepth p m = b) :
    crushSteps p m = 2 ^ b - 1 := by
  have two_pow : exp2 (b : Q) = 2 ^ b := by exact_mod_cast exp2_int b
  rw [crushSteps, h, two_pow]

/-- A base depth of 24 or more, unmodulated, is clamped to 24 (R201, C2). -/
theorem effDepth_of_deep_base {p : Params} {m : Q} (deep : 24 ≤ p.bits) (still : m * p.lfoamt = 0) :
    effDepth p m = (24 : ℕ) := by
  have base : (24 : Q) ≤ p.bits := by exact_mod_cast deep
  rw [effDepth, clampQ, still, add_zero, max_eq_left (by linarith), min_eq_right base]
  norm_cast

/-- Settles O36: oddness and the integer fixed points of `rnd`, and R7's properties of EXP2. -/
theorem crushFixedPoints : Obligations.CrushFixedPoints := by
  refine ⟨fun p s m => ⟨crush_zero p m, crush_neg p s m, fun z hz => ?_,
    fun b => crushSteps_of_nat_depth, fun deep still => ?_⟩,
    exp2_int, exp2_pos, fun x => exp2_ge_two⟩
  · have one := crush_one_of_int_steps hz
    exact ⟨one, by rw [crush_neg, one]⟩
  · exact crushSteps_of_nat_depth (effDepth_of_deep_base deep still)

end Sys2Proof.Machine
end

section
/-! PROOFS. Every step keeps a legal state legal (10_state.md R24, R27, R29 (a), R30, R36, R37, R40),
and the state after power-on is one (R58). Legality goes bottom up: the operations on a voice, the
writes to the state, the control agent's point, the arpeggiator's block, one rendered sample; a command
is then one of these under the checks of 30_encoding.md R112. -/

namespace Sys2Proof.Machine

/-! ### Legal voices -/

section Voices

variable {srv : Bool} {sr : Nat} {vc : Voice}

theorem Oscillator.Legal.setDuty {c : Oscillator} (h : c.Legal srv sr) {d : Q} (hd : Unit01 d) :
    Oscillator.Legal srv sr { c with duty := d } :=
  { h with duty := hd }

theorem Oscillator.Legal.setShape {c : Oscillator} (h : c.Legal srv sr) (shape : Shape) :
    Oscillator.Legal srv sr { c with shape := shape } :=
  { h with }

theorem Oscillator.Legal.setPhase {c : Oscillator} (h : c.Legal srv sr) (x : Q) :
    Oscillator.Legal srv sr { c with phase := frac x } :=
  { h with phase_nonneg := frac_nonneg x, phase_lt_one := frac_lt_one x }

/-- A frequency written together with its increment keeps R24 (b). -/
theorem Oscillator.Legal.setFreq {c : Oscillator} (h : c.Legal srv sr) (f : Q) :
    Oscillator.Legal srv sr { c with freq := f, inc := f / (sr : Q) } :=
  { h with inc_eq := fun _ => rfl }

theorem Envelope.Legal.setPar {e : Envelope} (h : e.Legal) {a : Adsr} (ha : AdsrLegal a) :
    Envelope.Legal { e with par := a } :=
  { h with par := ha }

theorem Voice.Legal.setOsc (h : vc.Legal srv sr) (o : OscIdx) {c : Oscillator}
    (hc : c.Legal srv sr) : (vc.setOsc o c).Legal srv sr where
  osc j := by
    rcases eq_or_ne j o with rfl | hj
    · rwa [Voice.osc_setOsc]
    · rw [Voice.osc_setOsc_ne vc c hj]
      exact h.osc j
  env e := by
    rw [Voice.env_setOsc]
    exact h.env e
  idle_iff := by simpa using h.idle_iff
  lastenv := by simpa using h.lastenv

theorem Voice.Legal.setEnv (h : vc.Legal srv sr) (e : EnvIdx) {n : Envelope} (hn : n.Legal) :
    (vc.setEnv e n).Legal srv sr where
  osc o := by
    rw [Voice.osc_setEnv]
    exact h.osc o
  env j := by
    rcases eq_or_ne j e with rfl | hj
    · rwa [Voice.env_setEnv]
    · rw [Voice.env_setEnv_ne vc n hj]
      exact h.env j
  idle_iff := by simpa using h.idle_iff
  lastenv := by simpa using h.lastenv

theorem Voice.Legal.mapEnvs (h : vc.Legal srv sr) {f : Envelope → Envelope}
    (hf : ∀ {e : Envelope}, e.Legal → (f e).Legal) : (vc.mapEnvs f).Legal srv sr where
  osc o := by
    rw [Voice.osc_mapEnvs]
    exact h.osc o
  env e := by
    rw [Voice.env_mapEnvs]
    exact hf (h.env e)
  idle_iff := h.idle_iff
  lastenv := h.lastenv

/-- `PREPARE` recomputes every increment for its rate (R302), which is what R24 (b) asks. -/
theorem Voice.Legal.setRate (h : vc.Legal srv sr) (rate : Nat) :
    (vc.mapOscs fun c => { c with inc := c.freq / (rate : Q) }).Legal true rate where
  osc o := by
    rw [Voice.osc_mapOscs]
    exact { h.osc o with inc_eq := fun _ => rfl }
  env e := by
    rw [Voice.env_mapOscs]
    exact h.env e
  idle_iff := h.idle_iff
  lastenv := h.lastenv

theorem Envelope.atReset_legal {a : Adsr} (h : AdsrLegal a) : (Envelope.atReset a).Legal where
  level := ⟨le_rfl, zero_le_one⟩
  start := ⟨le_rfl, zero_le_one⟩
  idle_level := fun _ => rfl
  par := h

theorem Voice.atReset_legal (c : Cfg) {main a b : Adsr} (hm : AdsrLegal main) (ha : AdsrLegal a)
    (hb : AdsrLegal b) (srv : Bool) (sr : Nat) : (Voice.atReset c main a b).Legal srv sr where
  osc o := by cases o <;> exact Oscillator.atReset_legal _ _ _
  env
    | .main => Envelope.atReset_legal hm
    | .auxA => Envelope.atReset_legal ha
    | .auxB => Envelope.atReset_legal hb
  idle_iff := ⟨fun _ => rfl, fun _ => rfl⟩
  lastenv := ⟨le_rfl, zero_le_one⟩

/-! ### Starting, stopping and rendering a voice -/

theorem Oscillator.Legal.startNote {c : Oscillator} (h : c.Legal srv sr) {cfg : Cfg}
    (hc : CfgLegal cfg) (f : Q) (shape : Shape) :
    (c.startNote f (f / (sr : Q)) shape cfg.noteStartPhase).Legal srv sr := by
  unfold Oscillator.startNote
  cases hφ : cfg.noteStartPhase with
  | none => exact { h with inc_eq := fun _ => rfl }
  | some φ =>
    obtain ⟨phase_nonneg, phase_lt_one⟩ := hc.noteStartPhase φ hφ
    exact { h with inc_eq := fun _ => rfl, phase_nonneg, phase_lt_one }

theorem Voice.Legal.startNote (h : vc.Legal srv sr) {c : Cfg} (hc : CfgLegal c) {p : Params}
    (hp : p.Legal) (note : Note) (vel : Velocity) :
    (vc.startNote c p sr note vel).Legal srv sr where
  osc
    | .tonalLow => (h.osc .tonalLow).startNote hc _ _
    | .pulse1 => (h.osc .pulse1).startNote hc _ _
    | .pulse2 => (h.osc .pulse2).startNote hc _ _
    | .lfo => h.osc .lfo
  env
    | .main => ((h.env .main).setPar ⟨hp.att.1, hp.dec.1, hp.sus, hp.rel.1⟩).on
    | .auxA => ((h.env .auxA).setPar hc.percEnvA).on
    | .auxB => ((h.env .auxB).setPar hc.percEnvB).on
  idle_iff := by simp [Voice.startNote]
  lastenv := h.lastenv

theorem Voice.Legal.stopNote (h : vc.Legal srv sr) (tail : Bool) :
    (vc.stopNote tail).Legal srv sr := by
  cases tail with
  | true => exact h.mapEnvs Envelope.Legal.off
  | false =>
    exact { h.mapEnvs Envelope.Legal.cut with
      idle_iff := ⟨fun _ => rfl, fun _ => rfl⟩
      lastenv := ⟨le_rfl, zero_le_one⟩ }

theorem Voice.Legal.decim (h : vc.Legal srv sr) (div i : Nat) (x : Q) :
    (vc.decim div i x).2.Legal srv sr := by
  unfold Voice.decim
  split
  · exact h
  · exact { h with }

theorem Voice.Legal.stepMain (h : vc.Legal srv sr) (rate : Nat) :
    (vc.stepMain rate).Legal srv sr :=
  have ticked := (h.env .main).tick rate
  { h.setEnv .main ticked with lastenv := ticked.level }

theorem Voice.Legal.stepLfo (h : vc.Legal srv sr) (p : Params) : (vc.stepLfo p sr).Legal srv sr :=
  h.setOsc .lfo (((h.osc .lfo).setShape (lfoShape p.lfowave)).setFreq p.lforate).advance

theorem pwDec_unit01 (w : Fin 3) : Unit01 (pwDec w) := by
  rw [pwDec_eq]
  split
  · norm_num [Unit01]
  · split <;> norm_num [Unit01]

theorem sourceLow_legal (h : vc.Legal srv sr) (lvl : Q) (draws : Nat) :
    (sourceLow vc lvl draws).voice.Legal srv sr :=
  h.setOsc .tonalLow (h.osc .tonalLow).advance

theorem sourcePulse_legal (h : vc.Legal srv sr) (p : Params) (lvl : Q) (inAtk : Bool)
    (draws : Nat) : (sourcePulse p vc lvl inAtk draws).voice.Legal srv sr :=
  have first := ((h.osc .pulse1).setDuty (pwDec_unit01 p.pw1)).advance
  have second := ((h.osc .pulse2).setDuty (pwDec_unit01 p.pw2)).advance
  (h.setOsc .pulse1 first).setOsc .pulse2 second

theorem sourcePerc_legal (h : vc.Legal srv sr) (c : Cfg) (rate : Nat) (lvl : Q) (draws : Nat) :
    (sourcePerc c rate vc lvl draws).voice.Legal srv sr := by
  unfold sourcePerc
  split
  · exact { h.setEnv .auxA ((h.env .auxA).tick rate) with }
  · split
    · exact { h.setEnv .auxB ((h.env .auxB).tick rate) with }
    · split <;> exact h

theorem sourceOf_legal (h : vc.Legal srv sr) (c : Cfg) (p : Params) (rate : Nat) (lvl : Q)
    (inAtk : Bool) (draws : Nat) : (sourceOf c p rate vc lvl inAtk draws).voice.Legal srv sr := by
  unfold sourceOf
  split
  · exact sourceLow_legal h lvl draws
  · exact sourcePulse_legal h p lvl inAtk draws
  · exact sourcePerc_legal h c rate lvl draws

theorem Voice.Legal.stepEnd (h : vc.Legal srv sr) : vc.stepEnd.Legal srv sr := by
  unfold Voice.stepEnd
  split
  · exact h
  · exact { h with idle_iff := ⟨fun _ => rfl, fun _ => rfl⟩ }

theorem Voice.Legal.render (h : vc.Legal srv sr) (c : Cfg) (p : Params) (draws i : Nat) :
    (vc.render c p sr draws i).voice.Legal srv sr := by
  have source := sourceOf_legal ((h.stepMain sr).stepLfo p) c p sr (vc.stepMain sr).lastenv
    (risesFrom vc.lastenv (vc.stepMain sr).lastenv) draws
  unfold Voice.render
  simp only
  split
  · exact source.stepEnd
  · exact (source.decim _ _ _).stepEnd

end Voices

/-! ### Writes to the state -/

section Writes

variable {s : State} {v : BitVec 4} {vc : Voice}

theorem State.Inv.voice (h : s.Inv) (hv : s.voice? v = some vc) : vc.Legal s.srv s.sr :=
  h.voices vc (List.mem_of_getElem? hv)

theorem State.Inv.invalid (h : s.Inv) : s.invalid.Inv := { h with }

theorem State.Inv.setRes (h : s.Inv) (r : Result) : (s.setRes r).Inv := { h with }

theorem State.Inv.setVoice (h : s.Inv) (v : BitVec 4) (hvc : vc.Legal s.srv s.sr) :
    (s.setVoice v vc).Inv :=
  { h with
    nv := by simpa using h.nv
    voices := fun u hu => by
      rcases List.mem_or_eq_of_mem_set hu with old | rfl
      · exact h.voices u old
      · exact hvc }

theorem State.Inv.setOsc (h : s.Inv) (v : BitVec 4) (hvc : vc.Legal s.srv s.sr) (i : OscIdx)
    {c : Oscillator} (hc : c.Legal s.srv s.sr) : (s.setVoice v (vc.setOsc i c)).Inv :=
  h.setVoice v (hvc.setOsc i hc)

theorem State.Inv.setEnv (h : s.Inv) (v : BitVec 4) (hvc : vc.Legal s.srv s.sr) (i : EnvIdx)
    {n : Envelope} (hn : n.Legal) : (s.setVoice v (vc.setEnv i n)).Inv :=
  h.setVoice v (hvc.setEnv i hn)

theorem State.Inv.pushIn (h : s.Inv) {ev : Event} (ho : ev.off < 2 ^ 32) : (s.pushIn ev).Inv := by
  rcases s.pushIn_cases ev with ⟨room, he⟩ | ⟨-, he⟩ <;> rw [he]
  · exact { h with evin := h.evin.append room ho }
  · exact { h with }

theorem State.Inv.pushOut (h : s.Inv) {ev : Event} (ho : ev.off < 2 ^ 32) :
    (s.pushOut ev).Inv := by
  rcases s.pushOut_cases ev with ⟨room, he⟩ | ⟨-, he⟩ <;> rw [he]
  · exact { h with evout := h.evout.append room ho }
  · exact { h with }

theorem State.Inv.outAddAll (h : s.Inv) {i : Nat} (hi : i < s.cfg.blkmax) (x : Q) :
    ({ s with out := outAddAll s.out i x } : State).Inv :=
  { h with
    nch := by simpa using h.nch
    out := fun m hm => by
      obtain ⟨m', hm', rfl⟩ := List.mem_map.mp hm
      exact (h.out m' hm').add hi x }

theorem State.Inv.outClear (h : s.Inv) : ({ s with out := outClear s.out } : State).Inv :=
  { h with
    nch := by simpa [Machine.outClear] using h.nch
    out := fun m hm => by
      refine ⟨outClear_wf s.out m hm, ?_⟩
      obtain ⟨_, -, rfl⟩ := List.mem_map.mp hm
      exact fun _ hp => absurd hp List.not_mem_nil }

end Writes

theorem QueueLegal.nil (d : Nat) : QueueLegal d [] := ⟨Nat.zero_le d, fun _ h => nomatch h⟩

/-! ### The control agent's point -/

theorem makeVisible_legal (ws : List Pending) (blocked : List ParIdx) {p : Params} (h : p.Legal) :
    (makeVisible ws blocked p).1.Legal := by
  induction ws generalizing blocked p with
  | nil => exact h
  | cons w ws ih =>
    unfold makeVisible
    split
    · exact ih blocked (parWrite_legal h w.k w.payload)
    · exact ih (w.k :: blocked) h

/-- What may differ after the control agent has acted (60_exceptions.md R350). -/
def CtlFrame (s t : State) : Prop :=
  t = { s with
    par := t.par, pend := t.pend, ctlPort := t.ctlPort, badcmd := t.badcmd, draws := t.draws }

theorem CtlFrame.trans {s t u : State} (hst : CtlFrame s t) (htu : CtlFrame t u) :
    CtlFrame s u :=
  Eq.trans htu (by rw [hst])

theorem CtlFrame.cfg {s t : State} (h : CtlFrame s t) : t.cfg = s.cfg := by rw [h]

theorem CtlFrame.voices {s t : State} (h : CtlFrame s t) : t.voices = s.voices := by rw [h]

theorem ctlFrame_ctlCommand (s : State) : CtlFrame s s.ctlCommand := by
  obtain ⟨-, he⟩ | ⟨_, _, _, -, he⟩ | ⟨_, -, he⟩ := s.ctlCommand_cases <;> rw [he] <;> rfl

theorem ctlFrame_ctlCommands (n : Nat) (s : State) : CtlFrame s (State.ctlCommands n s) := by
  induction n generalizing s with
  | zero => rfl
  | succ n ih => exact (ctlFrame_ctlCommand s).trans (ih s.ctlCommand)

theorem ctlFrame_ctlIssue (s : State) : CtlFrame s s.ctlIssue := by
  unfold State.ctlIssue
  split
  · rfl
  · exact CtlFrame.trans (t := { s with draws := s.draws + 1 }) rfl (ctlFrame_ctlCommands _ _)

theorem ctlFrame_ctlPoint (s : State) : CtlFrame s s.ctlPoint :=
  (ctlFrame_ctlIssue s).trans rfl

@[simp] theorem State.ctlPoint_cfg (s : State) : s.ctlPoint.cfg = s.cfg :=
  (ctlFrame_ctlPoint s).cfg

@[simp] theorem State.ctlPoint_voices (s : State) : s.ctlPoint.voices = s.voices :=
  (ctlFrame_ctlPoint s).voices

theorem State.Inv.ctlCommand {s : State} (h : s.Inv) : s.ctlCommand.Inv := by
  obtain ⟨-, he⟩ | ⟨_, _, _, -, he⟩ | ⟨_, -, he⟩ := s.ctlCommand_cases <;> rw [he]
  · exact h
  · exact { h with }
  · exact { h with }

theorem State.Inv.ctlCommands (n : Nat) {s : State} (h : s.Inv) : (State.ctlCommands n s).Inv := by
  induction n generalizing s with
  | zero => exact h
  | succ n ih => exact ih h.ctlCommand

theorem State.Inv.ctlIssue {s : State} (h : s.Inv) : s.ctlIssue.Inv := by
  unfold State.ctlIssue
  split
  · exact h
  · exact State.Inv.ctlCommands _ { h with }

theorem State.Inv.ctlPoint {s : State} (h : s.Inv) : s.ctlPoint.Inv :=
  { h.ctlIssue with par := makeVisible_legal _ _ h.ctlIssue.par }

/-! ### The arpeggiator's block -/

theorem State.Inv.foldl_pushOut {evs : List Event} (ho : ∀ ev ∈ evs, ev.off < 2 ^ 32) {s : State}
    (h : s.Inv) : (evs.foldl State.pushOut s).Inv := by
  induction evs generalizing s with
  | nil => exact h
  | cons ev evs ih =>
    exact ih (fun e he => ho e (List.mem_cons_of_mem _ he)) (h.pushOut (ho ev List.mem_cons_self))

theorem State.Inv.stopLast {s : State} (h : s.Inv) {off : Nat} (ho : off < 2 ^ 32) :
    (s.stopLast off).Inv := by
  unfold State.stopLast
  split
  · exact h
  · exact h.pushOut ho

theorem State.Inv.startNext {s : State} (h : s.Inv) {off : Nat} (ho : off < 2 ^ 32) :
    (s.startNext off).Inv := by
  unfold State.startNext
  simp only
  split
  · exact { h with }
  · exact { h.pushOut (ev := { off := off, on := true, note := _, vel := s.cfg.arpVel }) ho with }

/-- A trigger before the end of a block of `n` samples has its offset below `n` (R265). -/
theorem floor_toNat_lt {d : Q} {n : Nat} (h : d < n) (hn : 0 < n) : d.floor.toNat < n := by
  have : d.floor < (n : Int) := Int.floor_lt.mpr (by exact_mod_cast h)
  omega

theorem State.Inv.trigger {s : State} (h : s.Inv) (n : BitVec 16) (qns : Q) :
    (s.trigger n.toNat qns).Inv := by
  unfold State.trigger
  simp only
  split
  case isTrue before =>
    have ho : (triggerDist s.par s.arp.pos qns).floor.toNat < 2 ^ 32 :=
      floor_toNat_lt (n := 2 ^ 32) (before.trans (by exact_mod_cast (by omega))) (by omega)
    exact (h.stopLast ho).startNext ho
  case isFalse => exact h

theorem State.Inv.blockEvents {s : State} (h : s.Inv) (n : BitVec 16) (qns : Q) :
    (s.blockEvents n.toNat qns).Inv := by
  unfold State.blockEvents
  split
  · exact h.trigger n qns
  · exact State.Inv.foldl_pushOut h.evin.2 h

theorem State.Inv.blockBegin {s : State} (h : s.Inv) : s.blockBegin.Inv := { h with }

theorem State.Inv.blockEnd {s : State} (h : s.Inv) (n : Nat) (qns : Q) : (s.blockEnd n qns).Inv :=
  { h with evin := QueueLegal.nil _ }

/-! ### Rendering -/

theorem State.Inv.renderSample {s : State} (h : s.Inv) (v : BitVec 4) {i : Nat}
    (hi : i < s.cfg.blkmax) : (s.renderSample v i).Inv := by
  obtain ⟨-, he⟩ | ⟨vc, r, hv, rfl, ⟨-, he⟩ | ⟨x, -, he⟩⟩ := s.renderSample_cases v i <;> rw [he]
  · exact h
  · exact { h.setVoice v ((h.voice hv).render _ _ _ _) with }
  · exact { (h.setVoice v ((h.voice hv).render _ _ _ _)).outAddAll hi x with }

@[simp] theorem State.renderSample_cfg (s : State) (v : BitVec 4) (i : Nat) :
    (s.renderSample v i).cfg = s.cfg := by
  obtain ⟨-, he⟩ | ⟨_, _, -, -, ⟨-, he⟩ | ⟨_, -, he⟩⟩ := s.renderSample_cases v i <;> rw [he] <;> rfl

theorem State.Inv.renderRun (v : BitVec 4) (n i : Nat) {s : State} (h : s.Inv)
    (hi : i + n ≤ s.cfg.blkmax) : (State.renderRun v n i s).Inv := by
  induction n generalizing i s with
  | zero => exact h
  | succ n ih =>
    have sample := h.renderSample v (i := i) (by omega)
    unfold State.renderRun
    split
    · exact sample
    · refine ih (i + 1) sample.ctlPoint ?_
      rw [State.ctlPoint_cfg, State.renderSample_cfg]
      omega

/-! ### Commands -/

/-- If the outcome is a next state, that state is legal. -/
def EndsLegal (r : StepOutcome State) : Prop := ∀ t, r = .next t → t.Inv

section Commands

variable {s : State}

theorem State.Inv.endsLegal (h : s.Inv) : EndsLegal (.next s) := by
  rintro _ ⟨⟩
  exact h

theorem State.Inv.onVoice (h : s.Inv) {v : BitVec 4} {k : Voice → StepOutcome State}
    (hk : ∀ vc : Voice, vc.Legal s.srv s.sr → EndsLegal (k vc)) : EndsLegal (onVoice s v k) := by
  intro t ht
  obtain ⟨vc, hv, hr⟩ | ⟨-, hr⟩ := onVoice_cases ht
  · exact hk vc (h.voice hv) t hr
  · exact h.invalid.endsLegal t hr.symm

theorem State.Inv.onOsc (h : s.Inv) {v o : BitVec 4} {k : Voice → OscIdx → StepOutcome State}
    (hk : ∀ (vc : Voice) (i : OscIdx), vc.Legal s.srv s.sr → EndsLegal (k vc i)) :
    EndsLegal (onOsc s v o k) := by
  intro t ht
  obtain ⟨vc, i, hv, -, hr⟩ | hr := onOsc_cases ht
  · exact hk vc i (h.voice hv) t hr
  · exact h.invalid.endsLegal t hr.symm

theorem State.Inv.onEnv (h : s.Inv) {v e : BitVec 4} {k : Voice → EnvIdx → StepOutcome State}
    (hk : ∀ (vc : Voice) (i : EnvIdx), vc.Legal s.srv s.sr → EndsLegal (k vc i)) :
    EndsLegal (onEnv s v e k) := by
  intro t ht
  obtain ⟨vc, i, hv, -, hr⟩ | hr := onEnv_cases ht
  · exact hk vc i (h.voice hv) t hr
  · exact h.invalid.endsLegal t hr.symm

theorem State.Inv.needRate (h : s.Inv) {k : StepOutcome State} (hk : EndsLegal k) :
    EndsLegal (needRate s k) := by
  intro t ht
  obtain ⟨-, hr⟩ | ⟨-, hr⟩ := needRate_cases ht
  · exact hk t hr
  · exact h.invalid.endsLegal t hr.symm

theorem execOsetsh_legal (h : s.Inv) (v o : BitVec 4) (code : BitVec 3) :
    EndsLegal (execOsetsh v o code s) :=
  h.onOsc fun vc i hvc => by
    split
    · exact (h.setOsc v hvc i ((hvc.osc i).setShape _)).endsLegal
    · exact h.invalid.endsLegal

theorem execOsetcy_legal (h : s.Inv) (v o : BitVec 4) (j : BitVec 3) (x : Word) :
    EndsLegal (execOsetcy v o j x s) :=
  h.onOsc fun vc i hvc => by
    split
    · exact (h.setOsc v hvc i (setCycle_legal (hvc.osc i) ‹_›)).endsLegal
    · exact h.invalid.endsLegal

theorem execVstop_legal (h : s.Inv) (v : BitVec 4) (tail : Bool) :
    EndsLegal (execVstop v tail s) :=
  h.onVoice fun vc hvc => by
    split
    · exact (h.setVoice v (hvc.stopNote tail)).endsLegal
    · exact h.endsLegal

theorem execVrend_legal (h : s.Inv) (v : BitVec 4) (start count : BitVec 16) :
    EndsLegal (execVrend v start count s) :=
  h.needRate <| h.onVoice fun vc hvc => by
    split
    · exact h.invalid.endsLegal
    · split
      · exact (State.Inv.renderRun v _ _ h (by omega)).endsLegal
      · exact h.endsLegal

theorem execAblock_legal (h : s.Inv) (n : BitVec 16) : EndsLegal (execAblock n s) :=
  h.needRate <| ((h.blockBegin.blockEvents n _).blockEnd n.toNat _).endsLegal

theorem execEvpop_of_nil (hq : s.evout = []) : execEvpop s = .next (s.setRes .none) := by
  simp [execEvpop, State.popOut, hq]

theorem execEvpop_of_cons {ev : Event} {rest : List Event} (hq : s.evout = ev :: rest) :
    execEvpop s = .next (State.setRes { s with evout := rest } (.event ev)) := by
  simp [execEvpop, State.popOut, hq]

theorem execEvpop_legal (h : s.Inv) : EndsLegal (execEvpop s) := by
  cases hq : s.evout with
  | nil =>
    rw [execEvpop_of_nil hq]
    exact (h.setRes _).endsLegal
  | cons ev rest =>
    rw [execEvpop_of_cons hq]
    obtain ⟨len, off⟩ := hq ▸ h.evout
    have tail : QueueLegal s.cfg.evqDepth rest :=
      ⟨(Nat.le_succ _).trans len, fun e he => off e (List.mem_cons_of_mem _ he)⟩
    exact (State.Inv.setRes (s := { s with evout := rest }) { h with evout := tail } _).endsLegal

theorem execOutrd_legal (h : s.Inv) (c : BitVec 4) (index : BitVec 16) :
    EndsLegal (execOutrd c index s) := by
  unfold execOutrd
  split
  · exact h.invalid.endsLegal
  · split
    · exact (h.setRes _).endsLegal
    · exact h.invalid.endsLegal

@[simp] theorem resetVoices_length (c : Cfg) (n k : Nat) : (resetVoices c n k).length = k := by
  induction k generalizing n with
  | zero => rfl
  | succ k ih => simp [resetVoices, ih]

theorem latchDraw_legal (n : Nat) : AdsrLegal (latchDraw n) := Adsr.legal_legal _

theorem resetVoices_legal (c : Cfg) (n k : Nat) (srv : Bool) (sr : Nat) :
    ∀ vc ∈ resetVoices c n k, vc.Legal srv sr := by
  induction k generalizing n with
  | zero => exact fun _ hv => nomatch hv
  | succ k ih =>
    refine List.forall_mem_cons.mpr ⟨?_, ih (n + 12)⟩
    exact Voice.atReset_legal c (latchDraw_legal _) (latchDraw_legal _) (latchDraw_legal _) srv sr

theorem State.Inv.afterReset (h : s.Inv) : s.afterReset.Inv :=
  { h with
    nv := by simpa [State.afterReset] using h.nv
    sr := le_rfl
    voices := resetVoices_legal _ _ _ _ _
    evin := QueueLegal.nil _
    evout := QueueLegal.nil _ }

theorem execPrepare_legal (h : s.Inv) (rate : Word) : EndsLegal (execPrepare rate s) :=
  State.Inv.endsLegal
    { h with
      nv := by simpa using h.nv
      sr := le_max_right _ _
      voices := fun vc hv => by
        obtain ⟨old, hold, rfl⟩ := List.mem_map.mp hv
        exact (h.voices old hold).setRate _ }

/-- Every command keeps a legal state legal. -/
theorem exec_legal (h : s.Inv) (i : Instr) : EndsLegal (exec i s) := by
  cases i with
  | nop => exact h.endsLegal
  | reset => exact h.afterReset.endsLegal
  | outclr => exact h.outClear.endsLegal
  | outrd c index => exact execOutrd_legal h c index
  | prd k => exact (h.setRes _).endsLegal
  | tclr mask => exact State.Inv.endsLegal { h with }
  | tplay play => exact State.Inv.endsLegal { h with }
  | osetsh v o code => exact execOsetsh_legal h v o code
  | oproc v o =>
    exact h.onOsc fun vc i hvc => ((h.setOsc v hvc i (hvc.osc i).advance).setRes _).endsLegal
  | eon v e => exact h.onEnv fun vc i hvc => (h.setEnv v hvc i (hvc.env i).on).endsLegal
  | eoff v e => exact h.onEnv fun vc i hvc => (h.setEnv v hvc i (hvc.env i).off).endsLegal
  | etick v e =>
    exact h.needRate <| h.onEnv fun vc i hvc =>
      ((h.setEnv v hvc i ((hvc.env i).tick s.sr)).setRes _).endsLegal
  | eact v e => exact h.onEnv fun vc i hvc => (h.setRes _).endsLegal
  | vstart v note vel =>
    exact h.needRate <| h.onVoice fun vc hvc =>
      (h.setVoice v (hvc.startNote h.cfg h.par note vel)).endsLegal
  | vstop v tail => exact execVstop_legal h v tail
  | ablock n => exact execAblock_legal h n
  | evpop => exact execEvpop_legal h
  | prepare rate => exact execPrepare_legal h rate
  | pwr k payload => exact State.Inv.endsLegal { h with par := parWrite_legal h.par k payload }
  | tpos x => exact State.Inv.endsLegal { h with }
  | tbpm x => exact State.Inv.endsLegal { h with }
  | osetf v o f =>
    exact h.needRate <| h.onOsc fun vc i hvc =>
      (h.setOsc v hvc i ((hvc.osc i).setFreq (fmtR f))).endsLegal
  | osetp v o p =>
    exact h.onOsc fun vc i hvc => (h.setOsc v hvc i ((hvc.osc i).setPhase _)).endsLegal
  | osetdw v o d =>
    exact h.onOsc fun vc i hvc =>
      (h.setOsc v hvc i ((hvc.osc i).setDuty (unit01_clamp _))).endsLegal
  | osetcy v o j x => exact execOsetcy_legal h v o j x
  | eset v e j x =>
    exact h.onEnv fun vc i hvc =>
      (h.setEnv v hvc i ((hvc.env i).setPar (setLatch_legal (hvc.env i).par j _))).endsLegal
  | vrend v start count => exact execVrend_legal h v start count
  | dhold v index x =>
    exact h.onVoice fun vc hvc => ((h.setVoice v (hvc.decim _ _ _)).setRes _).endsLegal
  | evpush on note vel off => exact (h.pushIn off.isLt).endsLegal
  | crush x m => exact (h.setRes _).endsLegal

theorem runDecoded_legal (h : s.Inv) (d : Decoded) : EndsLegal (s.runDecoded d) := by
  cases d with
  | incomplete => exact h.endsLegal
  | reserved opc rest => exact State.Inv.endsLegal { h with }
  | instr i rest => exact exec_legal (s := { s with cmdPort := rest }) { h with } i

end Commands

/-- Settles O7: the control agent's point keeps the state legal, and so does the command after it. -/
theorem stepKeepsInv : Obligations.StepKeepsInv := fun _ t h ht =>
  runDecoded_legal h.ctlPoint _ t ht

/-! ### Power-on -/

theorem Cfg.default_legal : CfgLegal Cfg.default where
  blkmax := ⟨by decide, le_rfl⟩
  evqDepth := by decide
  tuneA4 := by norm_num [Cfg.default]
  noteStartPhase := by
    rintro _ ⟨⟩
    exact ⟨le_rfl, zero_lt_one⟩
  percNotes :=
    ⟨Config.percNotes.a_ne_b, Config.percNotes.a_ne_gen, Config.percNotes.b_ne_gen⟩
  percEnvA := Adsr.legal_legal _
  percEnvB := Adsr.legal_legal _

theorem latchAtPowerOn_legal : AdsrLegal latchAtPowerOn where
  attackTime := le_rfl
  decayTime := le_rfl
  sustainLevel := ⟨le_rfl, zero_le_one⟩
  releaseTime := le_rfl

theorem Params.atPowerOn_legal : Params.atPowerOn.Legal := by
  constructor <;> norm_num [Params.atPowerOn, Unit01]

/-- Settles O8: the values of R58 and R5 and those the model chose are in their ranges. -/
theorem resetIsLegal : Obligations.ResetIsLegal where
  nv := by decide
  nch := by decide
  cfg := Cfg.default_legal
  sr := le_rfl
  voices vc hv := by
    rw [List.eq_of_mem_replicate hv]
    exact Voice.atReset_legal _ latchAtPowerOn_legal latchAtPowerOn_legal latchAtPowerOn_legal _ _
  par := Params.atPowerOn_legal
  evin := QueueLegal.nil _
  evout := QueueLegal.nil _
  out m hm := by
    refine ⟨reset_out_wf m hm, ?_⟩
    rw [List.eq_of_mem_replicate hm]
    exact fun _ hp => nomatch hp

end Sys2Proof.Machine
end

section
/-! PROOFS. One command run from two states: BADCMD is sticky and never read (10_state.md R31,
60_exceptions.md R342), and a command on one voice is isolated from every other voice (10_state.md
R28). Both compare a command's outcomes from a state and from a changed copy of it; `Related` is that
comparison, and the checks of 30_encoding.md R112 carry it from a command's body to the command. -/

namespace Sys2Proof.Machine

/-! ### Related outcomes -/

/-- Both outcomes are next states, related by `R`. -/
def Related (R : State → State → Prop) (r r' : StepOutcome State) : Prop :=
  ∃ t t', r = .next t ∧ r' = .next t' ∧ R t t'

section Checks

variable {R : State → State → Prop} {s s' : State} {v : BitVec 4}

theorem Related.next {t t' : State} (h : R t t') : Related R (.next t) (.next t') :=
  ⟨t, t', rfl, rfl, h⟩

theorem Related.needRate {k k' : StepOutcome State} (srv : s'.srv = s.srv)
    (invalid : R s.invalid s'.invalid) (hk : Related R k k') :
    Related R (needRate s k) (needRate s' k') := by
  unfold Machine.needRate
  rw [srv]
  split
  · exact hk
  · exact .next invalid

theorem Related.onVoice {k k' : Voice → StepOutcome State} (voice : s'.voice? v = s.voice? v)
    (invalid : R s.invalid s'.invalid) (hk : ∀ vc, Related R (k vc) (k' vc)) :
    Related R (onVoice s v k) (onVoice s' v k') := by
  unfold Machine.onVoice
  rw [voice]
  split
  · exact hk _
  · exact .next invalid

theorem Related.onOsc {o : BitVec 4} {k k' : Voice → OscIdx → StepOutcome State}
    (voice : s'.voice? v = s.voice? v) (invalid : R s.invalid s'.invalid)
    (hk : ∀ vc i, Related R (k vc i) (k' vc i)) :
    Related R (onOsc s v o k) (onOsc s' v o k') :=
  .onVoice voice invalid fun vc => by
    split
    · exact hk vc _
    · exact .next invalid

theorem Related.onEnv {e : BitVec 4} {k k' : Voice → EnvIdx → StepOutcome State}
    (voice : s'.voice? v = s.voice? v) (invalid : R s.invalid s'.invalid)
    (hk : ∀ vc i, Related R (k vc i) (k' vc i)) :
    Related R (onEnv s v e k) (onEnv s' v e k') :=
  .onVoice voice invalid fun vc => by
    split
    · exact hk vc _
    · exact .next invalid

end Checks

/-! ### Raising BADCMD

`State.invalid` raises the bit and does nothing else. Every operation commutes with it: raising the
bit first is the same as raising it afterwards. So the bit is not read, and once set it stays. -/

theorem State.invalid_of_badcmd {s : State} (h : s.badcmd = true) : s.invalid = s := by
  unfold State.invalid
  rw [← h]

@[simp] theorem State.pushIn_invalid (s : State) (ev : Event) :
    s.invalid.pushIn ev = (s.pushIn ev).invalid := by
  unfold State.pushIn
  rw [State.invalid_evin, State.invalid_cfg]
  split <;> rfl

@[simp] theorem State.pushOut_invalid (s : State) (ev : Event) :
    s.invalid.pushOut ev = (s.pushOut ev).invalid := by
  unfold State.pushOut
  rw [State.invalid_evout, State.invalid_cfg]
  split <;> rfl

theorem State.foldl_pushOut_invalid (evs : List Event) (s : State) :
    evs.foldl State.pushOut s.invalid = (evs.foldl State.pushOut s).invalid := by
  induction evs generalizing s with
  | nil => rfl
  | cons ev evs ih => rw [List.foldl_cons, State.pushOut_invalid, ih, List.foldl_cons]

@[simp] theorem State.stopLast_invalid (s : State) (off : Nat) :
    s.invalid.stopLast off = (s.stopLast off).invalid := by
  unfold State.stopLast
  rw [State.invalid_arp]
  split
  · rfl
  · rw [State.pushOut_invalid]

@[simp] theorem State.startNext_invalid (s : State) (off : Nat) :
    s.invalid.startNext off = (s.startNext off).invalid := by
  unfold State.startNext
  simp only [State.invalid_arp, State.invalid_cfg, State.pushOut_invalid]
  split <;> rfl

@[simp] theorem State.blockEvents_invalid (s : State) (n : Nat) (qns : Q) :
    s.invalid.blockEvents n qns = (s.blockEvents n qns).invalid := by
  unfold State.blockEvents State.trigger
  simp only [State.invalid_arp, State.invalid_par, State.invalid_evin, State.stopLast_invalid,
    State.startNext_invalid, State.foldl_pushOut_invalid]
  split
  · split <;> rfl
  · rfl

@[simp] theorem State.ctlCommand_invalid (s : State) :
    s.invalid.ctlCommand = s.ctlCommand.invalid := by
  unfold State.ctlCommand
  rw [State.invalid_ctlPort]
  split <;> rfl

theorem State.ctlCommands_invalid (n : Nat) (s : State) :
    State.ctlCommands n s.invalid = (State.ctlCommands n s).invalid := by
  induction n generalizing s with
  | zero => rfl
  | succ n ih => rw [State.ctlCommands, State.ctlCommand_invalid, ih, State.ctlCommands]

@[simp] theorem State.ctlPoint_invalid (s : State) : s.invalid.ctlPoint = s.ctlPoint.invalid := by
  have issue : s.invalid.ctlIssue = s.ctlIssue.invalid := by
    unfold State.ctlIssue
    rw [State.invalid_ctlPort]
    split
    · rfl
    · exact State.ctlCommands_invalid _ { s with draws := s.draws + 1 }
  rw [State.ctlPoint, issue]
  rfl

@[simp] theorem State.renderSample_invalid (s : State) (v : BitVec 4) (i : Nat) :
    s.invalid.renderSample v i = (s.renderSample v i).invalid := by
  have voice : s.invalid.voice? v = s.voice? v := rfl
  unfold State.renderSample
  rw [voice]
  split
  · rfl
  · simp only [State.invalid_cfg, State.invalid_par, State.invalid_sr, State.invalid_draws]
    split <;> rfl

theorem State.renderRun_invalid (v : BitVec 4) (n i : Nat) (s : State) :
    State.renderRun v n i s.invalid = (State.renderRun v n i s).invalid := by
  induction n generalizing i s with
  | zero => rfl
  | succ n ih =>
    have playing (t : State) : t.invalid.voicePlaying v = t.voicePlaying v := rfl
    simp only [State.renderRun, State.renderSample_invalid, State.ctlPoint_invalid, playing, ih]
    split <;> rfl

/-- The second state is the first with BADCMD raised. -/
def Raised (t t' : State) : Prop := t' = t.invalid

section Badcmd

variable (s : State)

theorem execOutrd_invalid (c : BitVec 4) (index : BitVec 16) :
    Related Raised (execOutrd c index s) (execOutrd c index s.invalid) := by
  unfold execOutrd
  rw [State.invalid_out, State.invalid_cfg]
  split
  · exact .next rfl
  · split <;> exact .next rfl

theorem execOsetsh_invalid (v o : BitVec 4) (code : BitVec 3) :
    Related Raised (execOsetsh v o code s) (execOsetsh v o code s.invalid) :=
  .onOsc rfl rfl fun vc i => by split <;> exact .next rfl

theorem execOsetcy_invalid (v o : BitVec 4) (j : BitVec 3) (x : Word) :
    Related Raised (execOsetcy v o j x s) (execOsetcy v o j x s.invalid) :=
  .onOsc rfl rfl fun vc i => by split <;> exact .next rfl

theorem execVstop_invalid (v : BitVec 4) (tail : Bool) :
    Related Raised (execVstop v tail s) (execVstop v tail s.invalid) :=
  .onVoice rfl rfl fun vc => by split <;> exact .next rfl

theorem execVrend_invalid (v : BitVec 4) (start count : BitVec 16) :
    Related Raised (execVrend v start count s) (execVrend v start count s.invalid) :=
  .needRate rfl rfl <| .onVoice rfl rfl fun vc => by
    rw [State.invalid_cfg]
    split
    · exact .next rfl
    · split
      · exact .next (State.renderRun_invalid v _ _ s)
      · exact .next rfl

theorem execAblock_invalid (n : BitVec 16) :
    Related Raised (execAblock n s) (execAblock n s.invalid) :=
  .needRate rfl rfl <| .next <|
    congrArg (State.blockEnd · n.toNat _) (State.blockEvents_invalid s.blockBegin n.toNat _)

theorem execEvpop_invalid : Related Raised (execEvpop s) (execEvpop s.invalid) := by
  cases hq : s.evout with
  | nil =>
    rw [execEvpop_of_nil hq, execEvpop_of_nil (s := s.invalid) hq]
    exact .next rfl
  | cons ev rest =>
    rw [execEvpop_of_cons hq, execEvpop_of_cons (s := s.invalid) hq]
    exact .next rfl

/-- Every command but `RESET` does the same with BADCMD raised before it. -/
theorem exec_invalid {i : Instr} (hi : i ≠ .reset) :
    Related Raised (exec i s) (exec i s.invalid) := by
  cases i with
  | reset => exact absurd rfl hi
  | outrd c index => exact execOutrd_invalid s c index
  | osetsh v o code => exact execOsetsh_invalid s v o code
  | osetcy v o j x => exact execOsetcy_invalid s v o j x
  | vstop v tail => exact execVstop_invalid s v tail
  | vrend v start count => exact execVrend_invalid s v start count
  | ablock n => exact execAblock_invalid s n
  | evpop => exact execEvpop_invalid s
  | evpush on note vel off => exact .next (s.pushIn_invalid _)
  | oproc | osetp | osetdw => exact .onOsc rfl rfl fun _ _ => .next rfl
  | osetf => exact .needRate rfl rfl <| .onOsc rfl rfl fun _ _ => .next rfl
  | eon | eoff | eact | eset => exact .onEnv rfl rfl fun _ _ => .next rfl
  | etick => exact .needRate rfl rfl <| .onEnv rfl rfl fun _ _ => .next rfl
  | vstart => exact .needRate rfl rfl <| .onVoice rfl rfl fun _ => .next rfl
  | dhold => exact .onVoice rfl rfl fun _ => .next rfl
  | nop | outclr | prd | tclr | tplay | prepare | pwr | tpos | tbpm | crush => exact .next rfl

end Badcmd

/-- Settles O11: a state with BADCMD set is its own raised copy, so the state after is too. -/
theorem badcmdStaysSet : Obligations.BadcmdStaysSet := by
  intro i s t set ht
  by_cases hi : i = .reset
  · subst hi
    cases ht
    exact .inl ⟨rfl, rfl⟩
  · obtain ⟨u, _, hu, hu', rfl⟩ := exec_invalid s hi
    rw [State.invalid_of_badcmd set, ht] at hu'
    cases hu'
    exact .inr ⟨hi, rfl⟩

/-- Settles O12: two states that differ in BADCMD have the same raised copy, and so have the states
after. -/
theorem badcmdIsNeverRead : Obligations.BadcmdIsNeverRead := by
  intro i s t b ht
  by_cases hi : i = .reset
  · subst hi
    cases ht
    exact ⟨false, rfl⟩
  · obtain ⟨u, _, hu, hraised, rfl⟩ := exec_invalid s hi
    obtain ⟨u', _, hu', hraised', rfl⟩ := exec_invalid { s with badcmd := b } hi
    cases ht.symm.trans hu
    have raised : t.invalid = u'.invalid := Host.Outcome.next.inj (hraised.symm.trans hraised')
    have same : u' = { t with badcmd := u'.badcmd } :=
      (congrArg (fun r : State => { r with badcmd := u'.badcmd }) raised).symm
    exact ⟨u'.badcmd, hu'.trans (congrArg _ same)⟩

/-! ### Another voice's contents

Every operation on voice `v` commutes with replacing the contents of another voice `w`, and leaves
every voice but `v` as it was. -/

theorem SameOtherVoices.refl (v : BitVec 4) (s : State) : SameOtherVoices v s s :=
  ⟨rfl, fun _ _ => rfl⟩

theorem SameOtherVoices.trans {v : BitVec 4} {s t u : State} (hst : SameOtherVoices v s t)
    (htu : SameOtherVoices v t u) : SameOtherVoices v s u :=
  ⟨htu.1.trans hst.1, fun w hw => (htu.2 w hw).trans (hst.2 w hw)⟩

/-- `SameOtherVoices` speaks of the voices alone. -/
theorem SameOtherVoices.of_voices {v : BitVec 4} {s t : State} (h : t.voices = s.voices) :
    SameOtherVoices v s t :=
  ⟨congrArg List.length h, fun w _ => congrArg (·[w.toNat]?) h⟩

theorem sameOtherVoices_setVoice (s : State) (v : BitVec 4) (vc : Voice) :
    SameOtherVoices v s (s.setVoice v vc) :=
  ⟨by simp, fun _ hw => State.voice?_setVoice_ne s vc hw⟩

theorem sameOtherVoices_renderSample (s : State) (v : BitVec 4) (i : Nat) :
    SameOtherVoices v s (s.renderSample v i) := by
  obtain ⟨-, he⟩ | ⟨_, _, -, -, ⟨-, he⟩ | ⟨_, -, he⟩⟩ := s.renderSample_cases v i <;> rw [he]
  · exact .refl v s
  · exact sameOtherVoices_setVoice s v _
  · exact sameOtherVoices_setVoice s v _

theorem sameOtherVoices_renderRun (v : BitVec 4) (n i : Nat) (s : State) :
    SameOtherVoices v s (State.renderRun v n i s) := by
  induction n generalizing i s with
  | zero => exact .refl v s
  | succ n ih =>
    have sample := sameOtherVoices_renderSample s v i
    unfold State.renderRun
    split
    · exact sample
    · exact (sample.trans (.of_voices (State.ctlPoint_voices _))).trans (ih _ _)

theorem State.setVoice_comm (s : State) {v w : BitVec 4} (h : w ≠ v) (vc u : Voice) :
    (s.setVoice w vc).setVoice v u = (s.setVoice v u).setVoice w vc := by
  have : w.toNat ≠ v.toNat := fun e => h (BitVec.eq_of_toNat_eq e)
  unfold State.setVoice
  simp only [List.set_comm _ _ this]

@[simp] theorem State.ctlCommand_setVoice (s : State) (w : BitVec 4) (vc : Voice) :
    (s.setVoice w vc).ctlCommand = s.ctlCommand.setVoice w vc := by
  unfold State.ctlCommand
  rw [State.setVoice_ctlPort]
  split <;> rfl

theorem State.ctlCommands_setVoice (n : Nat) (s : State) (w : BitVec 4) (vc : Voice) :
    State.ctlCommands n (s.setVoice w vc) = (State.ctlCommands n s).setVoice w vc := by
  induction n generalizing s with
  | zero => rfl
  | succ n ih => rw [State.ctlCommands, State.ctlCommand_setVoice, ih, State.ctlCommands]

@[simp] theorem State.ctlPoint_setVoice (s : State) (w : BitVec 4) (vc : Voice) :
    (s.setVoice w vc).ctlPoint = s.ctlPoint.setVoice w vc := by
  have issue : (s.setVoice w vc).ctlIssue = s.ctlIssue.setVoice w vc := by
    unfold State.ctlIssue
    rw [State.setVoice_ctlPort]
    split
    · rfl
    · exact State.ctlCommands_setVoice _ { s with draws := s.draws + 1 } w vc
  rw [State.ctlPoint, issue]
  rfl

section Isolation

variable (s : State) {v w : BitVec 4} (hne : w ≠ v) (vc : Voice)
include hne

theorem State.renderSample_setVoice (i : Nat) :
    (s.setVoice w vc).renderSample v i = (s.renderSample v i).setVoice w vc := by
  unfold State.renderSample
  rw [State.voice?_setVoice_ne s vc hne.symm]
  split
  · rfl
  · simp only [State.setVoice_cfg, State.setVoice_par, State.setVoice_sr, State.setVoice_draws,
      State.setVoice_out, State.setVoice_comm s hne]
    split <;> rfl

theorem State.renderRun_setVoice (n i : Nat) :
    State.renderRun v n i (s.setVoice w vc) = (State.renderRun v n i s).setVoice w vc := by
  induction n generalizing i s with
  | zero => rfl
  | succ n ih =>
    have playing (t : State) : (t.setVoice w vc).voicePlaying v = t.voicePlaying v := by
      rw [State.voicePlaying, State.voice?_setVoice_ne t vc hne.symm, State.voicePlaying]
    simp only [State.renderRun, State.renderSample_setVoice s hne, State.ctlPoint_setVoice, playing,
      ih]
    split <;> rfl

end Isolation

/-- The second state is the first with `vc` for voice `w`; the first differs from `s` in no voice but
`v`. -/
def Isolated (s : State) (v w : BitVec 4) (vc : Voice) (t t' : State) : Prop :=
  t' = t.setVoice w vc ∧ SameOtherVoices v s t

section IsolatedCommands

variable {s : State} {v w : BitVec 4} {vc : Voice}

theorem Isolated.self : Isolated s v w vc s (s.setVoice w vc) := ⟨rfl, .refl v s⟩

theorem Isolated.invalid : Isolated s v w vc s.invalid (s.setVoice w vc).invalid :=
  ⟨rfl, .of_voices rfl⟩

theorem Isolated.setRes {t t' : State} (h : Isolated s v w vc t t') (r : Result) :
    Isolated s v w vc (t.setRes r) (t'.setRes r) := by
  obtain ⟨rfl, frame⟩ := h
  exact ⟨rfl, frame⟩

theorem Isolated.setVoice (hne : w ≠ v) (u : Voice) :
    Isolated s v w vc (s.setVoice v u) ((s.setVoice w vc).setVoice v u) :=
  ⟨State.setVoice_comm s hne vc u, sameOtherVoices_setVoice s v u⟩

theorem Isolated.renderRun (hne : w ≠ v) (n i : Nat) :
    Isolated s v w vc (State.renderRun v n i s) (State.renderRun v n i (s.setVoice w vc)) :=
  ⟨State.renderRun_setVoice s hne vc n i, sameOtherVoices_renderRun v n i s⟩

variable (hne : w ≠ v)
include hne

theorem execOsetsh_isolated (o : BitVec 4) (code : BitVec 3) :
    Related (Isolated s v w vc) (execOsetsh v o code s) (execOsetsh v o code (s.setVoice w vc)) :=
  .onOsc (State.voice?_setVoice_ne s vc hne.symm) .invalid fun u i => by
    split
    · exact .next (.setVoice hne _)
    · exact .next .invalid

theorem execOsetcy_isolated (o : BitVec 4) (j : BitVec 3) (x : Word) :
    Related (Isolated s v w vc) (execOsetcy v o j x s) (execOsetcy v o j x (s.setVoice w vc)) :=
  .onOsc (State.voice?_setVoice_ne s vc hne.symm) .invalid fun u i => by
    split
    · exact .next (.setVoice hne _)
    · exact .next .invalid

theorem execVstop_isolated (tail : Bool) :
    Related (Isolated s v w vc) (execVstop v tail s) (execVstop v tail (s.setVoice w vc)) :=
  .onVoice (State.voice?_setVoice_ne s vc hne.symm) .invalid fun u => by
    split
    · exact .next (.setVoice hne _)
    · exact .next .self

theorem execVrend_isolated (start count : BitVec 16) :
    Related (Isolated s v w vc) (execVrend v start count s)
      (execVrend v start count (s.setVoice w vc)) :=
  .needRate rfl .invalid <|
    .onVoice (State.voice?_setVoice_ne s vc hne.symm) .invalid fun u => by
      rw [State.setVoice_cfg]
      split
      · exact .next .invalid
      · split
        · exact .next (.renderRun hne _ _)
        · exact .next .self

/-- Every command on voice `v` does the same with any other contents of voice `w`. -/
theorem exec_isolated {i : Instr} (hv : voiceNamed i = some v) :
    Related (Isolated s v w vc) (exec i s) (exec i (s.setVoice w vc)) := by
  have voice : (s.setVoice w vc).voice? v = s.voice? v := State.voice?_setVoice_ne s vc hne.symm
  cases i <;> cases hv
  case osetsh => exact execOsetsh_isolated hne _ _
  case osetcy => exact execOsetcy_isolated hne _ _ _
  case vstop => exact execVstop_isolated hne _
  case vrend => exact execVrend_isolated hne _ _
  case oproc => exact .onOsc voice .invalid fun _ _ => .next (.setRes (.setVoice hne _) _)
  case osetp | osetdw => exact .onOsc voice .invalid fun _ _ => .next (.setVoice hne _)
  case osetf =>
    exact .needRate rfl .invalid <| .onOsc voice .invalid fun _ _ => .next (.setVoice hne _)
  case eon | eoff | eset => exact .onEnv voice .invalid fun _ _ => .next (.setVoice hne _)
  case eact => exact .onEnv voice .invalid fun _ _ => .next (.setRes .self _)
  case etick =>
    exact .needRate rfl .invalid <| .onEnv voice .invalid fun _ _ =>
      .next (.setRes (.setVoice hne _) _)
  case vstart =>
    exact .needRate rfl .invalid <| .onVoice voice .invalid fun _ => .next (.setVoice hne _)
  case dhold => exact .onVoice voice .invalid fun _ => .next (.setRes (.setVoice hne _) _)

end IsolatedCommands

/-- Settles O13: the outcomes from a state and from its copy with `vc` for voice `w` stay copies. -/
theorem voicesAreIsolated : Obligations.VoicesAreIsolated := by
  intro i s t v w vc hv hne ht
  obtain ⟨u, _, hu, hu', rfl, frame⟩ := exec_isolated hne hv
  cases ht.symm.trans hu
  exact ⟨hu', frame⟩

end Sys2Proof.Machine
end

section
/-! PROOFS. The held-note set (10_state.md R34). -/

namespace Sys2Proof.Machine

/-- Settles O46: the held notes are those of 0..127, in that order, whose bit is set. -/
theorem heldNotesAscend : Obligations.HeldNotesAscend := by
  intro h
  have ascending : (heldNotes h).Pairwise (· < ·) := (List.pairwise_lt_finRange 128).filter _
  have mem_iff (n : Note) : n ∈ heldNotes h ↔ h.getLsbD n.val = true := by simp [heldNotes]
  exact ⟨ascending, mem_iff, fun _ => rfl, rfl⟩

end Sys2Proof.Machine
end

section
/-! PROOFS. What a read of a parameter register returns after a write (20_memory.md R72, R73;
10_state.md R57). -/

namespace Sys2Proof.Machine

theorem legalSel_cast (w : Int) : ((legalSel w).val : Q) = min (max (w : Q) 0) 2 := by
  have value : ((legalSel w).val : Int) = min (max w 0) 2 := by
    unfold legalSel
    split_ifs
    · change (0 : Int) = _; omega
    · change (1 : Int) = _; omega
    · change (2 : Int) = _; omega
  exact_mod_cast congrArg (Int.cast (R := Q)) value

theorem clampI_cast (x lo hi : Int) : (clampI x lo hi : Q) = min (max (x : Q) lo) hi := by
  simp [clampI]

theorem clampI_toNat_cast {x lo hi : Int} (hlo : 0 ≤ lo) (hhi : 0 ≤ hi) :
    ((clampI x lo hi).toNat : Q) = min (max (x : Q) lo) hi := by
  have nonneg : 0 ≤ clampI x lo hi := le_min (le_max_of_le_right hlo) hhi
  rw [← clampI_cast, ← Int.cast_natCast, Int.toNat_of_nonneg nonneg]

theorem legalRate_cast (w : Int) :
    ((legalRate w).rate : Q) =
      if w < 2 then 1 else if w < 4 then 2 else if w < 8 then 4 else 8 := by
  have below_two : w ≤ 1 ↔ w < 2 := by omega
  have below_four : w ≤ 3 ↔ w < 4 := by omega
  have below_eight : w ≤ 7 ↔ w < 8 := by omega
  unfold legalRate
  simp only [below_two, below_four, below_eight]
  split_ifs <;> simp [ArpRate.rate]

/-- A register reads back as its row of R57 says. -/
theorem parRead_parWrite_same (k : ParIdx) (e : Word) (p : Params) :
    parRead k (parWrite k e p) = parStored k e := by
  have scale : fmtR e = (e.toInt : Q) / 2 ^ 16 := by norm_num [fmtR]
  cases k
  case mode | pw1 | pw2 | lfowave => exact legalSel_cast _
  case pitch => exact (clampI_cast _ _ _).trans (by norm_num [parStored, fmtI32])
  case div =>
    exact (clampI_toNat_cast (by decide) (by decide)).trans (by norm_num [parStored, fmtI32])
  case bits =>
    exact (clampI_toNat_cast (by decide) (by decide)).trans (by norm_num [parStored, fmtI32])
  case arprate => exact legalRate_cast _
  case arpon =>
    change (if decide (0 < e.toInt) = true then (1 : Q) else 0) = if e.toInt ≤ 0 then 0 else 1
    simp only [decide_eq_true_eq, ← not_lt, ite_not]
  case lfoamt => exact scale
  case sus => exact congrArg (fun x => clampQ x 0 1) scale
  case att | dec | rel | lforate => exact congrArg (max · 0) scale
  case fbpm => exact congrArg (max · 1) scale

/-- No two registers share a field. -/
theorem parRead_parWrite_ne {j k : ParIdx} (h : j ≠ k) (e : Word) (p : Params) :
    parRead j (parWrite k e p) = parRead j p := by
  cases k <;> cases j <;> trivial

end Sys2Proof.Machine
end

section
/-! PROOFS. The control agent's commands and the visibility of its writes (20_memory.md R77,
R78). -/

namespace Sys2Proof.Machine

/-! ### One command of the control port -/

theorem State.ctlCommand_of_incomplete {s : State} (h : decode s.ctlPort = .incomplete) :
    s.ctlCommand = s := by
  simp only [State.ctlCommand, h]

theorem State.ctlCommand_of_reserved {s : State} {opc : BitVec 8} {rest : List Word}
    (h : decode s.ctlPort = .reserved opc rest) :
    s.ctlCommand = { s with ctlPort := rest, badcmd := true } := by
  simp only [State.ctlCommand, h]
  rfl

theorem State.ctlCommand_of_pwr {s : State} {k : ParIdx} {e : Word} {rest : List Word}
    (h : decode s.ctlPort = .instr (.pwr k e) rest) :
    s.ctlCommand = { s with
      ctlPort := rest
      pend := s.pend ++ [{ k := k, payload := e, delay := Config.ctlDelay s.draws }]
      draws := s.draws + 1 } := by
  simp only [State.ctlCommand, h]

theorem State.ctlCommand_of_not_pwr {s : State} {i : Instr} {rest : List Word}
    (hi : ∀ k e, i ≠ .pwr k e) (h : decode s.ctlPort = .instr i rest) :
    s.ctlCommand = { s with ctlPort := rest, badcmd := true } := by
  unfold State.ctlCommand
  rw [h]
  cases i
  case pwr k e => exact absurd rfl (hi k e)
  all_goals rfl

/-! ### The writes to one register -/

/-- The payloads of the writes to register `k` in a list of pending writes, in issue order. -/
def writesTo (k : ParIdx) (ws : List Pending) : List Word :=
  (ws.filter fun w => w.k = k).map fun w => w.payload

theorem State.pendOf_eq (s : State) (k : ParIdx) : s.pendOf k = writesTo k s.pend := rfl

theorem writesTo_cons_same (w : Pending) (ws : List Pending) :
    writesTo w.k (w :: ws) = w.payload :: writesTo w.k ws := by
  simp [writesTo]

theorem writesTo_cons_ne {k : ParIdx} {w : Pending} (h : w.k ≠ k) (ws : List Pending) :
    writesTo k (w :: ws) = writesTo k ws := by
  simp [writesTo, h]

theorem writesTo_append (k : ParIdx) (ws us : List Pending) :
    writesTo k (ws ++ us) = writesTo k ws ++ writesTo k us := by
  simp [writesTo]

theorem writesTo_mono (k : ParIdx) {ws us : List Pending} (h : ws <+: us) :
    writesTo k ws <+: writesTo k us :=
  (h.filter _).map _

/-- Settles O15: the four answers of the decoder, one equation of `ctlCommand` for each. -/
theorem ctlCommandQueuesOrIsInvalid : Obligations.CtlCommandQueuesOrIsInvalid := by
  refine ⟨fun s k e rest h => ?_, fun s i rest hi h => State.ctlCommand_of_not_pwr hi h,
    fun s opc rest h => State.ctlCommand_of_reserved h,
    fun s h => State.ctlCommand_of_incomplete h⟩
  have queued (j : ParIdx) : s.ctlCommand.pendOf j =
      s.pendOf j ++ writesTo j [{ k := k, payload := e, delay := Config.ctlDelay s.draws }] := by
    rw [State.pendOf_eq, State.pendOf_eq, State.ctlCommand_of_pwr h]
    exact writesTo_append j _ _
  refine ⟨?_, fun j hj => ?_, ?_⟩
  · rw [queued k]
    exact congrArg (s.pendOf k ++ ·) (writesTo_cons_same _ [])
  · rw [queued j, writesTo_cons_ne hj.symm]
    exact List.append_nil _
  · rw [State.ctlCommand_of_pwr h]

/-! ### Issue order (R78 (a)) -/

theorem State.ctlCommand_pend_extends (s : State) : s.pend <+: s.ctlCommand.pend := by
  obtain ⟨-, he⟩ | ⟨_, _, _, -, he⟩ | ⟨_, -, he⟩ := s.ctlCommand_cases <;> rw [he]
  exact List.prefix_append _ _

theorem State.ctlCommands_pend_extends (n : Nat) (s : State) :
    s.pend <+: (State.ctlCommands n s).pend := by
  induction n generalizing s with
  | zero => exact List.prefix_rfl
  | succ n ih => exact s.ctlCommand_pend_extends.trans (ih s.ctlCommand)

theorem State.ctlIssue_pend_extends (s : State) : s.pend <+: s.ctlIssue.pend := by
  unfold State.ctlIssue
  split
  · exact List.prefix_rfl
  · exact State.ctlCommands_pend_extends _ { s with draws := s.draws + 1 }

theorem State.ctlCommands_par (n : Nat) (s : State) : (State.ctlCommands n s).par = s.par := by
  induction n generalizing s with
  | zero => rfl
  | succ n ih =>
    have command : s.ctlCommand.par = s.par := by
      obtain ⟨-, he⟩ | ⟨_, _, _, -, he⟩ | ⟨_, -, he⟩ := s.ctlCommand_cases <;> rw [he]
    exact (ih s.ctlCommand).trans command

theorem State.ctlIssue_par (s : State) : s.ctlIssue.par = s.par := by
  unfold State.ctlIssue
  split
  · rfl
  · exact State.ctlCommands_par _ _

theorem makeVisible_of_ready {w : Pending} {blocked : List ParIdx} (h : w.delay = 0 ∧ w.k ∉ blocked)
    (ws : List Pending) (p : Params) :
    makeVisible (w :: ws) blocked p = makeVisible ws blocked (parWrite w.k w.payload p) :=
  if_pos h

theorem makeVisible_of_kept {w : Pending} {blocked : List ParIdx}
    (h : ¬(w.delay = 0 ∧ w.k ∉ blocked)) (ws : List Pending) (p : Params) :
    makeVisible (w :: ws) blocked p =
      ((makeVisible ws (w.k :: blocked) p).1,
        { w with delay := w.delay - 1 } :: (makeVisible ws (w.k :: blocked) p).2) :=
  if_neg h

/-- What a register holding `v` holds after writes of `es` to it, in order. -/
def storedLast (k : ParIdx) (es : List Word) (v : Q) : Q := (es.getLast?.map (parStored k)).getD v

theorem storedLast_cons (k : ParIdx) (e : Word) (es : List Word) (v : Q) :
    storedLast k (e :: es) v = storedLast k es (parStored k e) := by
  simp only [storedLast, List.getLast?_cons]
  cases es.getLast? <;> rfl

/-- One pass makes the oldest writes to each register visible, none to a blocked register. -/
theorem makeVisible_oldest_first (k : ParIdx) (ws : List Pending) (blocked : List ParIdx)
    (p : Params) :
    ∃ n, (k ∈ blocked → n = 0) ∧
      writesTo k (makeVisible ws blocked p).2 = (writesTo k ws).drop n ∧
      parRead k (makeVisible ws blocked p).1 =
        storedLast k ((writesTo k ws).take n) (parRead k p) := by
  induction ws generalizing blocked p with
  | nil => exact ⟨0, fun _ => rfl, rfl, rfl⟩
  | cons w ws ih =>
    by_cases ready : w.delay = 0 ∧ w.k ∉ blocked
    · rw [makeVisible_of_ready ready]
      obtain ⟨n, none_blocked, left, value⟩ := ih blocked (parWrite w.k w.payload p)
      by_cases hk : w.k = k
      · subst hk
        refine ⟨n + 1, fun hb => absurd hb ready.2, ?_, ?_⟩
        · rw [left, writesTo_cons_same, List.drop_succ_cons]
        · rw [value, writesTo_cons_same, List.take_succ_cons, storedLast_cons,
            parRead_parWrite_same]
      · rw [parRead_parWrite_ne (Ne.symm hk)] at value
        rw [writesTo_cons_ne hk]
        exact ⟨n, none_blocked, left, value⟩
    · rw [makeVisible_of_kept ready]
      obtain ⟨n, none_blocked, left, value⟩ := ih (w.k :: blocked) p
      by_cases hk : w.k = k
      · subst hk
        obtain rfl : n = 0 := none_blocked List.mem_cons_self
        refine ⟨0, fun _ => rfl, ?_, value⟩
        rw [List.drop_zero] at left ⊢
        rw [writesTo_cons_same, ← left]
        exact writesTo_cons_same { w with delay := w.delay - 1 } _
      · refine ⟨n, fun hb => none_blocked (List.mem_cons_of_mem _ hb), ?_, ?_⟩
        · rw [writesTo_cons_ne hk, ← left]
          exact writesTo_cons_ne (w := { w with delay := w.delay - 1 }) hk _
        · rw [writesTo_cons_ne hk]
          exact value

/-- Settles O16: issuing only appends, and the pass over what is then pending takes the oldest. -/
theorem ctlWritesBecomeVisibleInOrder : Obligations.CtlWritesBecomeVisibleInOrder := by
  intro s k
  obtain ⟨n, -, left, value⟩ := makeVisible_oldest_first k s.ctlIssue.pend [] s.ctlIssue.par
  have unread : parRead k s.ctlIssue.par = parRead k s.par := by rw [s.ctlIssue_par]
  rw [unread] at value
  simp only [State.pendOf_eq]
  exact ⟨writesTo_mono k s.ctlIssue_pend_extends, n, left, value⟩

/-! ### Every write becomes visible (R78 (c)) -/

/-- A command taken from a word stream uses up at least one word (R102). -/
theorem decode_consumes (ws : List Word) :
    decode ws = .incomplete ∨ ∃ rest : List Word, rest.length < ws.length ∧
      ((∃ i, decode ws = .instr i rest) ∨ ∃ opc, decode ws = .reserved opc rest) := by
  cases ws with
  | nil => exact .inl rfl
  | cons w ext =>
    have shorter : (ext.drop (nextField w)).length < (w :: ext).length := by
      rw [List.length_drop, List.length_cons]
      omega
    rw [decode]
    split
    · exact .inl rfl
    · refine .inr ⟨_, shorter, ?_⟩
      split
      · exact .inl ⟨_, rfl⟩
      · exact .inr ⟨_, rfl⟩

theorem State.ctlCommand_consumes (s : State) :
    s.ctlCommand = s ∨ s.ctlCommand.ctlPort.length < s.ctlPort.length := by
  obtain h | ⟨rest, shorter, ⟨i, h⟩ | ⟨opc, h⟩⟩ := decode_consumes s.ctlPort
  · exact .inl (State.ctlCommand_of_incomplete h)
  · refine .inr ?_
    by_cases hi : ∃ k e, i = .pwr k e
    · obtain ⟨k, e, rfl⟩ := hi
      rwa [State.ctlCommand_of_pwr h]
    · rwa [State.ctlCommand_of_not_pwr (fun k e he => hi ⟨k, e, he⟩) h]
  · rw [State.ctlCommand_of_reserved h]
    exact .inr shorter

theorem State.ctlCommands_consumes (n : Nat) (s : State) :
    State.ctlCommands n s = s ∨ (State.ctlCommands n s).ctlPort.length < s.ctlPort.length := by
  induction n generalizing s with
  | zero => exact .inl rfl
  | succ n ih =>
    rw [State.ctlCommands]
    obtain he | hlt := s.ctlCommand_consumes
    · rw [he]
      exact ih s
    · obtain he' | hlt' := ih s.ctlCommand
      · rw [he']
        exact .inr hlt
      · exact .inr (hlt'.trans hlt)

theorem State.ctlIssue_consumes (s : State) :
    (s.ctlIssue.ctlPort = s.ctlPort ∧ s.ctlIssue.pend = s.pend) ∨
      s.ctlIssue.ctlPort.length < s.ctlPort.length := by
  unfold State.ctlIssue
  split
  · exact .inl ⟨rfl, rfl⟩
  · refine (State.ctlCommands_consumes _ { s with draws := s.draws + 1 }).imp_left fun he => ?_
    rw [he]
    exact ⟨rfl, rfl⟩

/-- How long the pending writes still wait, all together, one more point for each. -/
def totalWait (ws : List Pending) : Nat := (ws.map fun w => w.delay + 1).sum

theorem totalWait_cons (w : Pending) (ws : List Pending) :
    totalWait (w :: ws) = w.delay + 1 + totalWait ws := by
  simp [totalWait]

theorem totalWait_makeVisible_le (ws : List Pending) (blocked : List ParIdx) (p : Params) :
    totalWait (makeVisible ws blocked p).2 ≤ totalWait ws := by
  induction ws generalizing blocked p with
  | nil => exact le_rfl
  | cons w ws ih =>
    by_cases ready : w.delay = 0 ∧ w.k ∉ blocked
    · rw [makeVisible_of_ready ready, totalWait_cons]
      exact (ih blocked _).trans (Nat.le_add_left _ _)
    · rw [makeVisible_of_kept ready, totalWait_cons, totalWait_cons]
      have := ih (w.k :: blocked) p
      dsimp only
      omega

/-- The oldest pending write is blocked by none: it leaves, or its wait gets shorter. -/
theorem totalWait_makeVisible_lt {ws : List Pending} (h : ws ≠ []) (p : Params) :
    totalWait (makeVisible ws [] p).2 < totalWait ws := by
  cases ws with
  | nil => exact absurd rfl h
  | cons w ws =>
    by_cases waited : w.delay = 0
    · rw [makeVisible_of_ready ⟨waited, List.not_mem_nil⟩, totalWait_cons]
      have := totalWait_makeVisible_le ws [] (parWrite w.k w.payload p)
      omega
    · rw [makeVisible_of_kept fun ready => waited ready.1, totalWait_cons, totalWait_cons]
      have := totalWait_makeVisible_le ws [w.k] p
      dsimp only
      omega

/-- What CTL still has to do: the words on its port, then the waits of its pending writes. A command
that queues a write makes the second longer and the first shorter. -/
def State.ctlLoad (s : State) : ℕ ×ₗ ℕ := toLex (s.ctlPort.length, totalWait s.pend)

theorem State.ctlLoad_ctlPoint (s : State) :
    s.ctlPoint.ctlLoad ≤ s.ctlLoad ∧ (s.pend ≠ [] → s.ctlPoint.ctlLoad < s.ctlLoad) := by
  have port : s.ctlPoint.ctlPort = s.ctlIssue.ctlPort := rfl
  have pending : s.ctlPoint.pend = (makeVisible s.ctlIssue.pend [] s.ctlIssue.par).2 := rfl
  rw [State.ctlLoad, State.ctlLoad, Prod.Lex.toLex_le_toLex, Prod.Lex.toLex_lt_toLex, port, pending]
  obtain ⟨same_port, same_pend⟩ | shorter := s.ctlIssue_consumes
  · rw [same_port, same_pend]
    exact ⟨.inr ⟨rfl, totalWait_makeVisible_le _ _ _⟩,
      fun h => .inr ⟨rfl, totalWait_makeVisible_lt h _⟩⟩
  · exact ⟨.inl shorter, fun _ => .inl shorter⟩

/-- The load cannot fall for ever, and it falls at every point with something pending. -/
theorem State.eventually_nothing_pending (s : State) :
    ∃ m, ∀ n, m ≤ n → (State.ctlPoint^[n] s).pend = [] := by
  have succ (n : ℕ) : State.ctlPoint^[n + 1] s = (State.ctlPoint^[n] s).ctlPoint :=
    Function.iterate_succ_apply' ..
  have falling : Antitone fun n => (State.ctlPoint^[n] s).ctlLoad :=
    antitone_nat_of_succ_le fun n => by
      rw [succ]
      exact (State.ctlLoad_ctlPoint _).1
  obtain ⟨m, settled⟩ := WellFoundedLT.antitone_chain_condition falling
  refine ⟨m, fun n hmn => ?_⟩
  by_contra pending
  have lighter := (State.ctlLoad_ctlPoint _).2 pending
  rw [← succ] at lighter
  exact lighter.ne ((settled (n + 1) (by omega)).symm.trans (settled n hmn))

/-- Settles O17: the port holds finitely many words, so that CTL issues finitely many writes, from
the given state and from the one with nothing pending; in both, in the end, nothing is pending. -/
theorem ctlWritesBecomeVisible : Obligations.CtlWritesBecomeVisible := by
  intro s
  obtain ⟨m, empty⟩ := s.eventually_nothing_pending
  obtain ⟨m', empty'⟩ := State.eventually_nothing_pending { s with pend := [] }
  refine ⟨max m m', fun n hn => ?_⟩
  have now := empty n (le_of_max_le_left hn)
  exact ⟨now.trans (empty' n (le_of_max_le_right hn)).symm, fun _ => now⟩

end Sys2Proof.Machine
end

section
/-! PROOFS. The encoder and the decoder (30_encoding.md R100 to R113): the fields of a written
command word, what stands at the head of a stream, and the rows of the opcode table. -/

namespace Sys2Proof

/-! ### The fields of a command word -/

section CommandWord

variable (opc : BitVec 8) (v s : BitVec 4) (imm : BitVec 16)

@[simp] theorem opcField_commandWord : opcField (commandWord opc v s imm) = opc := by
  unfold opcField commandWord
  rw [BitVec.extractLsb'_append_eq_of_le (by decide),
    BitVec.extractLsb'_append_eq_of_le (by decide), BitVec.extractLsb'_append_eq_left]

@[simp] theorem vField_commandWord : vField (commandWord opc v s imm) = v := by
  unfold vField commandWord
  rw [BitVec.extractLsb'_append_eq_of_le (by decide),
    BitVec.extractLsb'_append_eq_of_le (by decide), BitVec.extractLsb'_append_eq_right]

@[simp] theorem sField_commandWord : sField (commandWord opc v s imm) = s := by
  unfold sField commandWord
  rw [BitVec.extractLsb'_append_eq_of_le (by decide), BitVec.extractLsb'_append_eq_right]

@[simp] theorem immField_commandWord : immField (commandWord opc v s imm) = imm :=
  BitVec.extractLsb'_append_eq_right

theorem extractLsb'_commandWord {a n : ℕ} (inside : a + n ≤ 16) :
    (commandWord opc v s imm).extractLsb' a n = imm.extractLsb' a n :=
  BitVec.extractLsb'_append_eq_of_add_le inside

theorem getElem_commandWord {a : ℕ} (inside : a < 16) :
    (commandWord opc v s imm)[a] = imm[a] := by
  unfold commandWord
  rw [BitVec.getElem_append, dif_pos inside]

/-- A sub-field at the low end of `IMM` (R105). -/
theorem lowField_commandWord {n : ℕ} (x : BitVec n) (le : n ≤ 16) :
    (commandWord opc v s (x.setWidth 16)).extractLsb' 0 n = x := by
  rw [extractLsb'_commandWord _ _ _ _ (by omega), BitVec.extractLsb'_setWidth_of_le (by omega),
    BitVec.extractLsb'_eq_self]

@[simp] theorem flag_commandWord (b : Bool) :
    (commandWord opc v s ((BitVec.ofBool b).setWidth 16))[0] = b := by
  rw [getElem_commandWord _ _ _ _ (by decide)]
  simp

@[simp] theorem parField_commandWord (k : ParIdx) :
    parField (commandWord opc v s (k.code.setWidth 16)) = k := by
  rw [parField, lowField_commandWord _ _ _ _ (by decide)]
  cases k <;> rfl

@[simp] theorem noteField_commandWord (on : Bool) (note : Note) (vel : Velocity) :
    noteField (commandWord opc v s (noteImm on note vel)) = note := by
  rw [noteField, extractLsb'_commandWord _ _ _ _ (by decide), noteImm,
    BitVec.extractLsb'_append_eq_of_add_le (by decide), BitVec.extractLsb'_append_eq_right]

@[simp] theorem velField_commandWord (on : Bool) (note : Note) (vel : Velocity) :
    velField (commandWord opc v s (noteImm on note vel)) = vel := by
  rw [velField, extractLsb'_commandWord _ _ _ _ (by decide), noteImm,
    BitVec.extractLsb'_append_eq_of_le (by decide), BitVec.extractLsb'_append_eq_right]

@[simp] theorem onFlag_commandWord (on : Bool) (note : Note) (vel : Velocity) :
    (commandWord opc v s (noteImm on note vel))[15] = on := by
  rw [getElem_commandWord _ _ _ _ (by decide)]
  unfold noteImm
  rw [BitVec.getElem_append, dif_neg (by decide), BitVec.getElem_append, dif_neg (by decide)]
  simp

end CommandWord

/-! ### The fields of `VREND`'s extension word, format P16 -/

@[simp] theorem startField_append (start count : BitVec 16) :
    BitVec.extractLsb' 16 16 (start ++ count : Word) = start := BitVec.extractLsb'_append_eq_left

@[simp] theorem countField_append (start count : BitVec 16) :
    BitVec.extractLsb' 0 16 (start ++ count : Word) = count := BitVec.extractLsb'_append_eq_right

/-! ### What stands at the head of a stream (R113) -/

theorem decode_of_short {w : Word} {rest : List Word} (short : rest.length < nextField w) :
    decode (w :: rest) = .incomplete := by
  rw [decode, if_pos short]

theorem decode_of_row {w : Word} {rest : List Word} {i : Instr}
    (whole : nextField w ≤ rest.length)
    (row : decodeWords w (rest.getD 0 0) (rest.getD 1 0) = some i) :
    decode (w :: rest) = .instr i (rest.drop (nextField w)) := by
  rw [decode, if_neg whole.not_gt, row]

theorem decode_of_no_row {w : Word} {rest : List Word} (whole : nextField w ≤ rest.length)
    (row : decodeWords w (rest.getD 0 0) (rest.getD 1 0) = none) :
    decode (w :: rest) = .reserved (opcField w) (rest.drop (nextField w)) := by
  rw [decode, if_neg whole.not_gt, row]

/-! ### Decoding what was encoded -/

open Laws.EncodeLength in
/-- The family `EncodeLength`, for every command. -/
theorem encodeLength (i : Instr) : Statement i := by
  cases i
  exacts [nop, reset, outclr, outrd _ _, prd _, tclr _, tplay _, osetsh _ _ _, oproc _ _, eon _ _,
    eoff _ _, etick _ _, eact _ _, vstart _ _ _, vstop _ _, ablock _, evpop, prepare _, pwr _ _,
    tpos _, tbpm _, osetf _ _ _, osetp _ _ _, osetdw _ _ _, osetcy _ _ _ _, eset _ _ _ _,
    vrend _ _ _, dhold _ _ _, evpush _ _ _ _, crush _ _]

/-- A command is one command word and the extension words that word announces (R102). -/
theorem exists_encode_eq_cons (i : Instr) :
    ∃ w ext, encode i = w :: ext ∧ ext.length = nextField w := by
  have len : (encode i).length = 1 + nextField ((encode i).headD 0) := encodeLength i
  cases words : encode i with
  | nil =>
    rw [words, List.length_nil] at len
    omega
  | cons w ext =>
    rw [words, List.length_cons, List.headD_cons] at len
    exact ⟨w, ext, rfl, by omega⟩

/-- Every row reads its fields from where the encoder writes them, whatever words follow. -/
theorem decodeWords_encode {i : Instr} {w : Word} {ext : List Word} (words : encode i = w :: ext)
    (rest : List Word) :
    decodeWords w ((ext ++ rest).getD 0 0) ((ext ++ rest).getD 1 0) = some i := by
  cases i
  all_goals
    obtain ⟨rfl, rfl⟩ := List.cons.inj words
    simp [decodeWords, lowField_commandWord]

/-- Settles O1: the command word announces the extension words that were written, and its row reads
each field back. -/
theorem decodeOfEncode : Obligations.DecodeOfEncode := by
  intro i rest
  obtain ⟨w, ext, words, len⟩ := exists_encode_eq_cons i
  have whole : nextField w ≤ (ext ++ rest).length := by
    rw [List.length_append]
    omega
  rw [words, List.cons_append, decode_of_row whole (decodeWords_encode words rest), ← len,
    List.drop_left]

/-! ### The opcode table (R109) -/

theorem toNat_opcField (w : Word) : (opcField w).toNat = w.toNat / 2 ^ 24 := by
  rw [opcField, BitVec.extractLsb'_toNat, Nat.shiftRight_eq_div_pow]
  omega

theorem nextField_eq (w : Word) : nextField w = w.toNat / 2 ^ 30 := by
  rw [nextField, BitVec.extractLsb'_toNat, Nat.shiftRight_eq_div_pow]
  omega

/-- The opcodes with a row. -/
def definedOpcodes : List ℕ :=
  [0x00, 0x01, 0x02, 0x03, 0x04, 0x05, 0x06, 0x08, 0x09, 0x10, 0x11, 0x12, 0x13, 0x18, 0x19, 0x20,
    0x21, 0x40, 0x41, 0x42, 0x43, 0x48, 0x49, 0x4A, 0x4B, 0x50, 0x58, 0x59, 0x60, 0x80]

theorem decodeWords_eq_none_iff (w e1 e2 : Word) :
    decodeWords w e1 e2 = none ↔ (opcField w).toNat ∉ definedOpcodes := by
  unfold decodeWords definedOpcodes
  split <;> simp_all

/-- A command is written with the opcode it was read with. -/
theorem opcField_encode_of_row {w e1 e2 : Word} {i : Instr} (row : decodeWords w e1 e2 = some i) :
    (opcField ((encode i).headD 0)).toNat = (opcField w).toNat := by
  unfold decodeWords at row
  split at row <;> cases row <;> simp [encode, *]

/-- Settles O2: the stream is long enough for the announced words or not, and the opcode has a row
or not. -/
theorem decodeConsumesWholeCommand : Obligations.DecodeConsumesWholeCommand := by
  rintro w rest opc rfl
  rw [← nextField_eq, ← toNat_opcField]
  refine ⟨decode_of_short, fun whole => ⟨fun defined => ?_, fun reserved => ?_⟩⟩
  · obtain ⟨i, row⟩ := Option.ne_none_iff_exists'.mp fun no_row =>
      (decodeWords_eq_none_iff w (rest.getD 0 0) (rest.getD 1 0)).mp no_row defined
    refine ⟨i, decode_of_row whole row, ?_⟩
    rw [← toNat_opcField, opcField_encode_of_row row]
  · exact decode_of_no_row whole ((decodeWords_eq_none_iff _ _ _).mpr reserved)

/-- Settles O4: by running the decoder on each word. -/
theorem specWordsDecode : Obligations.SpecWordsDecode := by
  unfold Obligations.SpecWordsDecode
  decide

end Sys2Proof
end

section
/-! PROOFS. Reserved bits are ignored (30_encoding.md R110). -/

namespace Sys2Proof.Machine

/-- Clearing bits outside a field does not change the field. -/
theorem extractLsb'_and_of_covers {w m : Word} {a n : ℕ}
    (covers : m.extractLsb' a n = BitVec.allOnes n) :
    (w &&& m).extractLsb' a n = w.extractLsb' a n := by
  rw [BitVec.extractLsb'_and, covers, BitVec.and_allOnes]

theorem getElem_and_of_covers {w m : Word} {a : ℕ} (inside : a < 32) (covers : m[a] = true) :
    (w &&& m)[a] = w[a] := by
  rw [BitVec.getElem_and, covers, Bool.and_true]

theorem opcField_and_usedBits (w : Word) (opc : ℕ) :
    opcField (w &&& usedBits opc) = opcField w := by
  refine extractLsb'_and_of_covers ?_
  unfold usedBits
  split <;> rfl

/-- Every field that a row reads lies in the bits it uses: with the others cleared it decodes to the
same command. -/
theorem decodeWords_and_usedBits {w : Word} {opc : ℕ} (row : (opcField w).toNat = opc)
    (e1 e2 : Word) : decodeWords (w &&& usedBits opc) e1 e2 = decodeWords w e1 e2 := by
  unfold decodeWords
  rw [opcField_and_usedBits, row]
  split <;> simp (disch := decide) only [vField, sField, immField, noteField, velField, parField,
    extractLsb'_and_of_covers, getElem_and_of_covers]

/-- Settles O3: both words decode as what they share, the bits their row uses. -/
theorem reservedBitsIgnored : Obligations.ReservedBitsIgnored := by
  intro w w' e1 e2 agree
  have row' : (opcField w').toNat = w.toNat / 2 ^ 24 := by
    rw [← opcField_and_usedBits w', ← agree, opcField_and_usedBits, toNat_opcField]
  rw [← decodeWords_and_usedBits (toNat_opcField w), agree, decodeWords_and_usedBits row']

end Sys2Proof.Machine
end

section
/-! PROOFS. A step runs what stands decoded at the head of the command port (30_encoding.md R103,
R111), and an invalid command only sets BADCMD (R112, 60_exceptions.md R342). -/

namespace Sys2Proof.Machine

/-! ### The step -/

/-- The control agent's point leaves the command port alone, so that a step runs what stood decoded
there before the point. -/
theorem step_eq (s : State) : step s = s.ctlPoint.runDecoded (decode s.cmdPort) := by
  have port : s.ctlPoint.cmdPort = s.cmdPort := by rw [ctlFrame_ctlPoint s]
  rw [step, port]

/-- Settles O5: the control agent leaves the words of the command where they are. -/
theorem stepRunsDecodedCommand : Obligations.StepRunsDecodedCommand := by
  intro s i rest head
  rw [step_eq, head, State.runDecoded]

/-- Settles O6: a step also sees an incomplete command or a reserved opcode as it stood before the
control agent's point. -/
theorem incompleteWaitsAndReservedIsInvalid : Obligations.IncompleteWaitsAndReservedIsInvalid := by
  refine ⟨fun s head => ?_, fun s opc rest head => ?_⟩
  · rw [step_eq, head, State.runDecoded]
  · rw [step_eq, head, State.runDecoded, State.invalid]

/-! ### Invalid commands (R112) -/

section Checks

variable {s : State}

theorem needRate_invalid {k : StepOutcome State} (h : s.srv = true → k = .next s.invalid) :
    needRate s k = .next s.invalid := by
  obtain ⟨on, hk⟩ | ⟨-, hr⟩ := needRate_cases (rfl : needRate s k = _)
  · rw [← hk, h on]
  · exact hr

theorem onVoice_invalid (v : BitVec 4) {k : Voice → StepOutcome State}
    (h : ∀ vc, k vc = .next s.invalid) : onVoice s v k = .next s.invalid := by
  obtain ⟨vc, -, hk⟩ | ⟨-, hr⟩ := onVoice_cases (rfl : onVoice s v k = _)
  · rw [← hk, h vc]
  · exact hr

theorem onOsc_invalid (v o : BitVec 4) {k : Voice → OscIdx → StepOutcome State}
    (h : ∀ vc i, k vc i = .next s.invalid) : onOsc s v o k = .next s.invalid := by
  obtain ⟨vc, i, -, -, hk⟩ | hr := onOsc_cases (rfl : onOsc s v o k = _)
  · rw [← hk, h vc i]
  · exact hr

theorem onOsc_unnamed {v o : BitVec 4} (k : Voice → OscIdx → StepOutcome State)
    (h : s.voices.length ≤ v.toNat ∨ 3 < o.toNat) : onOsc s v o k = .next s.invalid := by
  obtain voice | osc := h
  · exact onVoice_none _ voice
  · exact onVoice_invalid v fun vc => by rw [oscIdxOf_none osc]

theorem onEnv_unnamed {v e : BitVec 4} (k : Voice → EnvIdx → StepOutcome State)
    (h : s.voices.length ≤ v.toNat ∨ 2 < e.toNat) : onEnv s v e k = .next s.invalid := by
  obtain voice | env := h
  · exact onVoice_none _ voice
  · exact onVoice_invalid v fun vc => by rw [envIdxOf_none env]

end Checks

theorem shapeOf_none {code : BitVec 3} (h : 3 < code.toNat) : shapeOf code = none := by
  unfold shapeOf
  split <;> simp_all

theorem setCycle_none {j : BitVec 3} (h : 4 < j.toNat) (x : Q) (c : Oscillator) :
    setCycle j x c = none := by
  unfold setCycle
  split <;> simp_all

theorem outRead_none {out : List Memory} {c : ℕ} (h : out.length ≤ c) (i : ℕ) :
    outRead out c i = none := by
  rw [outRead, List.getElem?_eq_none h, Option.map_none]

theorem execOutrd_of_no_channel {s : State} {c : BitVec 4} (h : s.out.length ≤ c.toNat)
    (index : BitVec 16) : execOutrd c index s = .next s.invalid := by
  rw [execOutrd, outRead_none h]

theorem execOutrd_of_no_sample {s : State} {index : BitVec 16} (h : s.cfg.blkmax ≤ index.toNat)
    (c : BitVec 4) : execOutrd c index s = .next s.invalid := by
  unfold execOutrd
  split
  · rfl
  · rw [if_neg h.not_gt]

theorem execOsetsh_of_reserved_code {code : BitVec 3} (h : 3 < code.toNat) (v o : BitVec 4)
    (s : State) : execOsetsh v o code s = .next s.invalid :=
  onOsc_invalid v o fun vc i => by rw [shapeOf_none h]

theorem execOsetcy_of_reserved_selector {j : BitVec 3} (h : 4 < j.toNat) (v o : BitVec 4) (x : Word)
    (s : State) : execOsetcy v o j x s = .next s.invalid :=
  onOsc_invalid v o fun vc i => by rw [setCycle_none h]

theorem execVrend_of_invalid {s : State} {v : BitVec 4} {start count : BitVec 16}
    (h : InvalidCommand s (.vrend v start count)) :
    execVrend v start count s = .next s.invalid :=
  needRate_invalid fun on => by
    obtain voice | off | window := h
    · exact onVoice_none _ voice
    · simp [on] at off
    · exact onVoice_invalid v fun vc => if_pos window

/-- (c) to (g) of R112: each condition is met by the check the command's meaning begins with. -/
theorem exec_of_invalidCommand {i : Instr} {s : State} (h : InvalidCommand s i) :
    exec i s = .next s.invalid := by
  cases i with
  | outrd c index =>
    obtain channel | sample := h
    · exact execOutrd_of_no_channel channel index
    · exact execOutrd_of_no_sample sample c
  | osetsh v o code =>
    obtain voice | osc | code := h
    · exact onOsc_unnamed _ (.inl voice)
    · exact onOsc_unnamed _ (.inr osc)
    · exact execOsetsh_of_reserved_code code v o s
  | osetcy v o j x =>
    obtain voice | osc | selector := h
    · exact onOsc_unnamed _ (.inl voice)
    · exact onOsc_unnamed _ (.inr osc)
    · exact execOsetcy_of_reserved_selector selector v o x s
  | oproc v o => exact onOsc_unnamed _ h
  | osetp v o p => exact onOsc_unnamed _ h
  | osetdw v o d => exact onOsc_unnamed _ h
  | osetf v o f =>
    exact needRate_invalid fun on => onOsc_unnamed _ (by simpa [InvalidCommand, on] using h)
  | eon v e => exact onEnv_unnamed _ h
  | eoff v e => exact onEnv_unnamed _ h
  | eact v e => exact onEnv_unnamed _ h
  | eset v e j x => exact onEnv_unnamed _ h
  | etick v e =>
    exact needRate_invalid fun on => onEnv_unnamed _ (by simpa [InvalidCommand, on] using h)
  | vstart v note vel =>
    exact needRate_invalid fun on => onVoice_none _ (by simpa [InvalidCommand, on] using h)
  | vstop v tail => exact onVoice_none _ h
  | vrend v start count => exact execVrend_of_invalid h
  | dhold v index x => exact onVoice_none _ h
  | ablock n => exact needRate_invalid fun on => absurd on (Bool.eq_false_iff.mp h)
  | _ => exact False.elim h

theorem oscFieldOk_eq_false (o : BitVec 4) : oscFieldOk o = false ↔ 3 < o.toNat := by
  simp [oscFieldOk]

theorem envFieldOk_eq_false (e : BitVec 4) : envFieldOk e = false ↔ 2 < e.toNat := by
  simp [envFieldOk]

theorem shapeCodeOk_eq_false (code : BitVec 3) : shapeCodeOk code = false ↔ 3 < code.toNat := by
  simp [shapeCodeOk]

theorem cycleSelOk_eq_false (j : BitVec 3) : cycleSelOk j = false ↔ 4 < j.toNat := by
  simp [cycleSelOk]

/-- The checks that need no state are among those of R112 (d), (e). -/
theorem invalidCommand_of_not_wellFormed {i : Instr} (h : i.wellFormed = false) (s : State) :
    InvalidCommand s i := by
  cases i with
  | osetsh v o code =>
    rw [Instr.wellFormed, Bool.and_eq_false_iff, oscFieldOk_eq_false, shapeCodeOk_eq_false] at h
    exact .inr h
  | osetcy v o j x =>
    rw [Instr.wellFormed, Bool.and_eq_false_iff, oscFieldOk_eq_false, cycleSelOk_eq_false] at h
    exact .inr h
  | oproc v o => exact .inr ((oscFieldOk_eq_false o).mp h)
  | osetp v o p => exact .inr ((oscFieldOk_eq_false o).mp h)
  | osetdw v o d => exact .inr ((oscFieldOk_eq_false o).mp h)
  | osetf v o f => exact .inr (.inl ((oscFieldOk_eq_false o).mp h))
  | eon v e => exact .inr ((envFieldOk_eq_false e).mp h)
  | eoff v e => exact .inr ((envFieldOk_eq_false e).mp h)
  | eact v e => exact .inr ((envFieldOk_eq_false e).mp h)
  | eset v e j x => exact .inr ((envFieldOk_eq_false e).mp h)
  | etick v e => exact .inr (.inl ((envFieldOk_eq_false e).mp h))
  | _ => exact nomatch h

/-- Settles O10: a command that fails a check that needs no state is invalid in every state, and an
invalid command stops at the check it fails. -/
theorem invalidCommandOnlySetsBadcmd : Obligations.InvalidCommandOnlySetsBadcmd := by
  rintro i s (invalid | ill_formed)
  · exact exec_of_invalidCommand invalid
  · exact exec_of_invalidCommand (invalidCommand_of_not_wellFormed ill_formed s)

end Sys2Proof.Machine
end

section
/-! PROOFS. The oscillator commands (41_oscillator.md R142 to R147), the shapers (R149 to R153) and
their output ranges (R156). A command on an oscillator that exists is one write to it:
`onOsc_writes` says once what that write changes and what it leaves. -/

namespace Sys2Proof.Machine

/-! ### Operands -/

theorem fmtR_eq (e : Word) : fmtR e = (e.toInt : Q) / 2 ^ 16 := by norm_num [fmtR]

theorem fmtS_eq (e : Word) : fmtS e = (e.toInt : Q) / 2 ^ 30 := by norm_num [fmtS]

@[simp] theorem oscIdxOf_oscNum (o : OscIdx) : oscIdxOf (oscNum o) = some o := by cases o <;> rfl

@[simp] theorem shapeOf_shapeNum (sh : Shape) : shapeOf (shapeNum sh) = some sh := by
  cases sh <;> rfl

/-! ### One write to an oscillator -/

section Writes

variable {s : State} {v : BitVec 4} {o : OscIdx} {c c' : Oscillator}

@[simp] theorem Voice.regs_setOsc (vc : Voice) (o : OscIdx) (c : Oscillator) :
    (vc.setOsc o c).regs = vc.regs := by cases o <;> rfl

theorem State.osc?_eq_some_iff :
    s.osc? v o = some c ↔ ∃ vc, s.voice? v = some vc ∧ vc.osc o = c := Option.map_eq_some_iff

theorem State.Inv.osc (h : s.Inv) (ho : s.osc? v o = some c) : c.Legal s.srv s.sr := by
  obtain ⟨vc, hv, rfl⟩ := State.osc?_eq_some_iff.mp ho
  exact (h.voice hv).osc o

theorem oscUpdate_setVoice {vc : Voice} (hv : s.voice? v = some vc) (o : OscIdx)
    (c' : Oscillator) : OscUpdate v o c' s (s.setVoice v (vc.setOsc o c')) := by
  have written := State.voice?_setVoice_self (vc.setOsc o c') hv
  refine ⟨?_, fun j hj => ?_, fun e => ?_, ?_, sameOtherVoices_setVoice s v _⟩
  · rw [State.osc?, written, Option.map_some, Voice.osc_setOsc]
  · rw [State.osc?, State.osc?, written, hv, Option.map_some, Option.map_some,
      Voice.osc_setOsc_ne vc c' hj]
  · rw [State.env?, State.env?, written, hv, Option.map_some, Option.map_some, Voice.env_setOsc]
  · rw [State.regs?, State.regs?, written, hv, Option.map_some, Option.map_some, Voice.regs_setOsc]

/-- A command that only writes its oscillator with `c'` passes the checks of R112 (c), (d) when the
oscillator exists, and the write is its whole effect. -/
theorem onOsc_writes {k : Voice → OscIdx → StepOutcome State} (ho : s.osc? v o = some c)
    (hk : ∀ vc, vc.osc o = c → k vc o = .next (s.setVoice v (vc.setOsc o c'))) :
    ∃ t, onOsc s v (oscNum o) k = .next t ∧ OscUpdate v o c' s t ∧
      t = { s with voices := t.voices } := by
  obtain ⟨vc, hv, hc⟩ := State.osc?_eq_some_iff.mp ho
  have run := (onOsc_some k hv (oscIdxOf_oscNum o)).trans (hk vc hc)
  exact ⟨_, run, oscUpdate_setVoice hv o c', rfl⟩

end Writes

/-! ### The commands that write a register -/

/-- Settles O18: with `SRV = 1` the body is one write of `freq` and `inc`. -/
theorem osetfSetsFrequency : Obligations.OsetfSetsFrequency := by
  intro s v o f c on ho
  rw [← fmtR_eq]
  change ∃ t, needRate s _ = _ ∧ _
  rw [needRate_true _ on]
  exact onOsc_writes ho fun vc hc => by rw [← hc]

/-- Settles O19: R8's `frac` is Mathlib's `Int.fract`. -/
theorem osetpSetsPhase : Obligations.OsetpSetsPhase := by
  intro s v o p c ho
  rw [← fmtS_eq]
  exact onOsc_writes ho fun vc hc => by rw [← hc]; rfl

/-- Settles O20: the codes of the four shapes are read back as these shapes. -/
theorem osetshSetsShape : Obligations.OsetshSetsShape := by
  intro s v o sh c ho
  exact onOsc_writes ho fun vc hc => by rw [shapeOf_shapeNum, ← hc]

/-- Settles O21: R8's `clamp` is the statement's `min` of a `max`. -/
theorem osetdwSetsDuty : Obligations.OsetdwSetsDuty := by
  intro s v o d c ho
  rw [← fmtS_eq]
  exact onOsc_writes ho fun vc hc => by rw [← hc]; rfl

theorem execOsetcy_writes {s : State} {v : BitVec 4} {o : OscIdx} {c c' : Oscillator} {j : BitVec 3}
    {e : Word} (ho : s.osc? v o = some c) (hc' : setCycle j (clampQ (fmtS e) 0 1) c = some c') :
    ∃ t, exec (.osetcy v (oscNum o) j e) s = .next t ∧ OscUpdate v o c' s t ∧
      t = { s with voices := t.voices } :=
  onOsc_writes ho fun vc hc => by rw [hc, hc']

/-- Settles O22: each of the five selectors writes its own register. -/
theorem osetcySetsCycleRegister : Obligations.OsetcySetsCycleRegister := by
  intro s v o e c x ho hx j c' row
  refine execOsetcy_writes ho ?_
  rw [← fmtS_eq] at hx
  subst hx
  obtain ⟨rfl, rfl⟩ | ⟨rfl, rfl⟩ | ⟨rfl, rfl⟩ | ⟨rfl, rfl⟩ | ⟨rfl, rfl⟩ := row <;> rfl

/-! ### The shapers -/

theorem absQ_eq_abs (x : Q) : absQ x = |x| := by
  unfold absQ
  split
  · rw [abs_of_neg ‹_›]
  · rw [abs_of_nonneg (not_lt.mp ‹_›)]

theorem triShape_eq (φ : Q) : triShape φ = |φ - 1 / 2| - 1 / 4 := by rw [triShape, absQ_eq_abs]

/-- R156 for `TRI`: a phase of [0,1) is at most 1/2 away from 1/2. -/
theorem triShape_bounds {φ : Q} (h0 : 0 ≤ φ) (h1 : φ < 1) :
    -1 / 4 ≤ triShape φ ∧ triShape φ ≤ 1 / 4 := by
  have near : |φ - 1 / 2| ≤ 1 / 2 := abs_le.mpr ⟨by linarith, by linarith⟩
  have nonneg := abs_nonneg (φ - 1 / 2)
  rw [triShape_eq]
  exact ⟨by linarith, by linarith⟩

theorem pulseShape_values (duty φ : Q) :
    pulseShape duty φ = -1 / 2 ∨ pulseShape duty φ = 1 / 2 := by
  unfold pulseShape
  split
  · exact .inr rfl
  · exact .inl rfl

theorem sin2pi_fixed_points :
    sin2pi 0 = 0 ∧ sin2pi (1 / 4) = 1 ∧ sin2pi (1 / 2) = 0 ∧ sin2pi (3 / 4) = -1 ∧
      sin2pi (1 / 12) = 1 / 2 ∧ sin2pi (5 / 12) = 1 / 2 ∧
      sin2pi (7 / 12) = -1 / 2 ∧ sin2pi (11 / 12) = -1 / 2 := by
  refine ⟨?_, ?_, ?_, ?_, ?_, ?_, ?_, ?_⟩ <;> norm_num [sin2pi]

/-! The ADSR-shaped cycle by its five segments (R152), and its range (R156). -/

section Cycle

variable {a d h r s φ : Q}

theorem cycShape_attack (before : φ < a) : cycShape a d h r s φ = φ / a := if_pos before

theorem cycShape_decay (attacked : a ≤ φ) (before : φ < a + d) :
    cycShape a d h r s φ = 1 - (1 - s) * (φ - a) / d := by
  rw [cycShape, if_neg attacked.not_gt, if_pos before]

theorem cycShape_hold (attacked : a ≤ φ) (decayed : a + d ≤ φ) (before : φ < a + d + h) :
    cycShape a d h r s φ = s := by
  rw [cycShape, if_neg attacked.not_gt, if_neg decayed.not_gt, if_pos before]

theorem cycShape_release (attacked : a ≤ φ) (decayed : a + d ≤ φ) (held : a + d + h ≤ φ)
    (before : φ < a + d + h + r) : cycShape a d h r s φ = s * (1 - (φ - a - d - h) / r) := by
  rw [cycShape, if_neg attacked.not_gt, if_neg decayed.not_gt, if_neg held.not_gt, if_pos before]

theorem cycShape_rest (attacked : a ≤ φ) (decayed : a + d ≤ φ) (held : a + d + h ≤ φ)
    (released : a + d + h + r ≤ φ) : cycShape a d h r s φ = 0 := by
  rw [cycShape, if_neg attacked.not_gt, if_neg decayed.not_gt, if_neg held.not_gt,
    if_neg released.not_gt]

/-- How far into a segment of length `y` one is: a value of [0,1]. -/
theorem unit01_div {x y : Q} (nonneg : 0 ≤ x) (le : x ≤ y) : Unit01 (x / y) :=
  ⟨div_nonneg nonneg (nonneg.trans le), div_le_one_of_le₀ le (nonneg.trans le)⟩

/-- R156 for `CYC`: each segment is a line between two values of [0,1]. -/
theorem cycShape_unit01 (nonneg : 0 ≤ φ) (hs : Unit01 s) : Unit01 (cycShape a d h r s φ) := by
  have zero : Unit01 0 := ⟨le_rfl, zero_le_one⟩
  have one : Unit01 1 := ⟨zero_le_one, le_rfl⟩
  rcases lt_or_ge φ a with before | attacked
  · rw [cycShape_attack before]
    exact unit01_div nonneg before.le
  rcases lt_or_ge φ (a + d) with before | decayed
  · have part : Unit01 ((φ - a) / d) := unit01_div (by linarith) (by linarith)
    have line : 1 - (1 - s) * (φ - a) / d = 1 + (s - 1) * ((φ - a) / d) := by ring
    rw [cycShape_decay attacked before, line]
    exact unit01_line one hs part.1 part.2
  rcases lt_or_ge φ (a + d + h) with before | held
  · rwa [cycShape_hold attacked decayed before]
  rcases lt_or_ge φ (a + d + h + r) with before | released
  · have part : Unit01 ((φ - a - d - h) / r) := unit01_div (by linarith) (by linarith)
    have line : s * (1 - (φ - a - d - h) / r) = s + (0 - s) * ((φ - a - d - h) / r) := by ring
    rw [cycShape_release attacked decayed held before, line]
    exact unit01_line hs zero part.1 part.2
  · rwa [cycShape_rest attacked decayed held released]

end Cycle

/-! ### `OPROC` -/

section Oproc

variable {c : Oscillator}

theorem Oscillator.shapeEval_of_tri (h : c.shape = .tri) : c.shapeEval = triShape c.phase := by
  rw [shapeEval, h]

theorem Oscillator.shapeEval_of_sine (h : c.shape = .sine) : c.shapeEval = sin2pi c.phase := by
  rw [shapeEval, h]

theorem Oscillator.shapeEval_of_pulse (h : c.shape = .pulse) :
    c.shapeEval = pulseShape c.duty c.phase := by rw [shapeEval, h]

theorem Oscillator.shapeEval_of_cyc (h : c.shape = .cyc) :
    c.shapeEval = cycShape c.ca c.cd c.ch c.cr c.cs c.phase := by rw [shapeEval, h]

/-- What `OPROC` does to an oscillator that exists: the advance, and the shaper of the advanced
oscillator in RES. -/
theorem exec_oproc {s : State} {v : BitVec 4} {o : OscIdx} (ho : s.osc? v o = some c) :
    ∃ t, exec (.oproc v (oscNum o)) s = .next t ∧ t.res = .num c.advance.shapeEval ∧
      OscUpdate v o c.advance s t ∧ t = { s with voices := t.voices, res := t.res } := by
  obtain ⟨vc, hv, rfl⟩ := State.osc?_eq_some_iff.mp ho
  exact ⟨_, onOsc_some _ hv (oscIdxOf_oscNum o), rfl, oscUpdate_setVoice hv o _, rfl⟩

/-- Settles O23: the advance is R141's, and each shaper is read at the advanced phase. -/
theorem oprocAdvancesAndReturnsSample : Obligations.OprocAdvancesAndReturnsSample := by
  rintro s v o c _ ho rfl
  obtain ⟨t, run, res, update, frame⟩ := exec_oproc ho
  refine ⟨t, _, run, res, update, frame, fun shape => ?_, fun shape => ?_, fun shape => ?_,
    fun shape => ?_⟩
  · exact (Oscillator.shapeEval_of_tri (c := c.advance) shape).trans (triShape_eq _)
  · exact Oscillator.shapeEval_of_sine (c := c.advance) shape
  · exact Oscillator.shapeEval_of_pulse (c := c.advance) shape
  · rw [Oscillator.shapeEval_of_cyc (c := c.advance) shape]
    exact ⟨cycShape_attack, cycShape_decay, cycShape_hold, cycShape_release, cycShape_rest⟩

/-- R156: the range of a legal oscillator's shaper. -/
theorem Oscillator.Legal.shapeEval_range {srv : Bool} {sr : Nat} (legal : c.Legal srv sr) :
    (c.shape = .tri → -1 / 4 ≤ c.shapeEval ∧ c.shapeEval ≤ 1 / 4) ∧
      (c.shape = .sine → -1 ≤ c.shapeEval ∧ c.shapeEval ≤ 1) ∧
      (c.shape = .pulse → c.shapeEval = -1 / 2 ∨ c.shapeEval = 1 / 2) ∧
      (c.shape = .cyc → 0 ≤ c.shapeEval ∧ c.shapeEval ≤ 1) := by
  refine ⟨fun shape => ?_, fun shape => ?_, fun shape => ?_, fun shape => ?_⟩
  · rw [shapeEval_of_tri shape]
    exact triShape_bounds legal.phase_nonneg legal.phase_lt_one
  · rw [shapeEval_of_sine shape]
    exact sin2pi_bounds legal.phase_nonneg legal.phase_lt_one
  · rw [shapeEval_of_pulse shape]
    exact pulseShape_values _ _
  · rw [shapeEval_of_cyc shape]
    exact cycShape_unit01 legal.phase_nonneg legal.cs

/-- Settles O24: in a legal state the advanced oscillator is legal, and RES holds its shaper. -/
theorem oprocOutputRanges : Obligations.OprocOutputRanges := by
  refine ⟨fun s t v o c x inv ho run res => ?_, sin2pi_fixed_points⟩
  obtain ⟨t', run', res', -⟩ := exec_oproc ho
  obtain rfl : t = t' := Host.Outcome.next.inj (run.symm.trans run')
  obtain rfl : x = c.advance.shapeEval := Result.num.inj (res.symm.trans res')
  exact (inv.osc ho).advance.shapeEval_range

end Oproc

end Sys2Proof.Machine
end

section
/-! PROOFS. The envelope generator (42_envelope.md). First what a tick does, an equation for each
branch of R175 to R178; then the commands, each one write to its envelope (`onEnv_writes`); then
R181 and R182. For those, a tick moves the level by a fraction of (0,1] of the stage's signed slope
(`Envelope.OnLine.tick_moves`), so the bound on the step and the direction are both read off the
sign of that slope. -/

namespace Sys2Proof.Machine

/-! ### One tick of an envelope -/

section Tick

variable {sr : Nat} {n : Envelope}

theorem Envelope.tick_of_idle (h : n.stage = .idle) : n.tick sr = { n with level := 0 } := by
  rw [tick, h]

theorem Envelope.tick_of_sustain (h : n.stage = .sustain) :
    n.tick sr = { n with level := n.par.sustainLevel } := by
  rw [tick, h]

theorem Envelope.tick_ends_attack (h : n.stage = .attack)
    (ended : n.par.attackTime * (sr : Q) ≤ ((n.cnt + 1 : ℕ) : Q)) :
    n.tick sr = { n with level := 1, stage := .decay, start := 1, cnt := 0 } := by
  simp only [tick, tick.attackStep, h, if_pos ended]

theorem Envelope.tick_in_attack (h : n.stage = .attack)
    (before : ((n.cnt + 1 : ℕ) : Q) < n.par.attackTime * (sr : Q)) :
    n.tick sr = { n with
      cnt := n.cnt + 1
      level := n.start + (1 - n.start) * ((n.cnt + 1 : ℕ) : Q) /
        (n.par.attackTime * (sr : Q)) } := by
  simp only [tick, tick.attackStep, h, if_neg before.not_ge]

theorem Envelope.tick_ends_decay (h : n.stage = .decay)
    (ended : n.par.decayTime * (sr : Q) ≤ ((n.cnt + 1 : ℕ) : Q)) :
    n.tick sr = { n with
      level := n.par.sustainLevel, stage := .sustain, start := n.par.sustainLevel, cnt := 0 } := by
  simp only [tick, tick.decayStep, h, if_pos ended]

theorem Envelope.tick_in_decay (h : n.stage = .decay)
    (before : ((n.cnt + 1 : ℕ) : Q) < n.par.decayTime * (sr : Q)) :
    n.tick sr = { n with
      cnt := n.cnt + 1
      level := n.start + (n.par.sustainLevel - n.start) * ((n.cnt + 1 : ℕ) : Q) /
        (n.par.decayTime * (sr : Q)) } := by
  simp only [tick, tick.decayStep, h, if_neg before.not_ge]

theorem Envelope.tick_ends_release (h : n.stage = .release)
    (ended : n.par.releaseTime * (sr : Q) ≤ ((n.cnt + 1 : ℕ) : Q)) :
    n.tick sr = { n with level := 0, stage := .idle, start := 0, cnt := 0 } := by
  simp only [tick, tick.releaseStep, h, if_pos ended]

theorem Envelope.tick_in_release (h : n.stage = .release)
    (before : ((n.cnt + 1 : ℕ) : Q) < n.par.releaseTime * (sr : Q)) :
    n.tick sr = { n with
      cnt := n.cnt + 1
      level := n.start * (1 - ((n.cnt + 1 : ℕ) : Q) / (n.par.releaseTime * (sr : Q))) } := by
  simp only [tick, tick.releaseStep, h, if_neg before.not_ge]

end Tick

/-! ### The tests on the stage -/

theorem Envelope.isActive_of_idle {n : Envelope} (h : n.stage = .idle) : n.isActive = false := by
  rw [isActive, h]
  rfl

theorem Envelope.isActive_of_ne_idle {n : Envelope} (h : n.stage ≠ .idle) : n.isActive = true :=
  bne_iff_ne.mpr h

theorem Envelope.off_of_idle {n : Envelope} (h : n.stage = .idle) : n.off = n := by
  simp [off, isActive_of_idle h]

theorem Envelope.off_of_ne_idle {n : Envelope} (h : n.stage ≠ .idle) :
    n.off = { n with stage := .release, start := n.level, cnt := 0 } :=
  if_pos (isActive_of_ne_idle h)

/-! ### One write to an envelope -/

@[simp] theorem envIdxOf_envNum (e : EnvIdx) : envIdxOf (envNum e) = some e := by cases e <;> rfl

section EnvelopeWrites

variable {s : State} {v : BitVec 4} {e : EnvIdx} {n n' : Envelope}

@[simp] theorem Voice.regs_setEnv (vc : Voice) (e : EnvIdx) (n : Envelope) :
    (vc.setEnv e n).regs = vc.regs := by cases e <;> rfl

theorem State.env?_eq_some_iff :
    s.env? v e = some n ↔ ∃ vc, s.voice? v = some vc ∧ vc.env e = n := Option.map_eq_some_iff

theorem envUpdate_setVoice {vc : Voice} (hv : s.voice? v = some vc) (e : EnvIdx) (n' : Envelope) :
    EnvUpdate v e n' s (s.setVoice v (vc.setEnv e n')) := by
  have written := State.voice?_setVoice_self (vc.setEnv e n') hv
  refine ⟨?_, fun j hj => ?_, fun o => ?_, ?_, sameOtherVoices_setVoice s v _⟩
  · rw [State.env?, written, Option.map_some, Voice.env_setEnv]
  · rw [State.env?, State.env?, written, hv, Option.map_some, Option.map_some,
      Voice.env_setEnv_ne vc n' hj]
  · rw [State.osc?, State.osc?, written, hv, Option.map_some, Option.map_some, Voice.osc_setEnv]
  · rw [State.regs?, State.regs?, written, hv, Option.map_some, Option.map_some, Voice.regs_setEnv]

/-- A command that only writes its envelope with `n'` passes the checks of R112 (c), (d) when the
envelope exists, and the write is its whole effect. -/
theorem onEnv_writes {k : Voice → EnvIdx → StepOutcome State} (hn : s.env? v e = some n)
    (hk : ∀ vc, vc.env e = n → k vc e = .next (s.setVoice v (vc.setEnv e n'))) :
    ∃ t, onEnv s v (envNum e) k = .next t ∧ EnvUpdate v e n' s t ∧
      t = { s with voices := t.voices } := by
  obtain ⟨vc, hv, hvc⟩ := State.env?_eq_some_iff.mp hn
  have run := (onEnv_some k hv (envIdxOf_envNum e)).trans (hk vc hvc)
  exact ⟨_, run, envUpdate_setVoice hv e n', rfl⟩

theorem exec_eset {j : BitVec 2} {w : Word} {p : Adsr} (hn : s.env? v e = some n)
    (hp : setLatch j (fmtR w) n.par = p) :
    ∃ t, exec (.eset v (envNum e) j w) s = .next t ∧ EnvUpdate v e { n with par := p } s t ∧
      t = { s with voices := t.voices } :=
  onEnv_writes hn fun vc hvc => by rw [hvc, hp]

theorem exec_eon (hn : s.env? v e = some n) :
    ∃ t, exec (.eon v (envNum e)) s = .next t ∧ EnvUpdate v e n.on s t ∧
      t = { s with voices := t.voices } :=
  onEnv_writes hn fun vc hvc => by rw [hvc]

theorem exec_eoff (hn : s.env? v e = some n) :
    ∃ t, exec (.eoff v (envNum e)) s = .next t ∧ EnvUpdate v e n.off s t ∧
      t = { s with voices := t.voices } :=
  onEnv_writes hn fun vc hvc => by rw [hvc]

/-- In Idle the write of `EOFF` puts back what stands there. -/
theorem exec_eoff_of_idle (hn : s.env? v e = some n) (idle : n.stage = .idle) :
    exec (.eoff v (envNum e)) s = .next s := by
  obtain ⟨vc, hv, rfl⟩ := State.env?_eq_some_iff.mp hn
  refine (onEnv_some _ hv (envIdxOf_envNum e)).trans ?_
  rw [Envelope.off_of_idle idle, Voice.setEnv_env, State.setVoice_same hv]

/-- `ETICK` on an envelope that exists writes the ticked envelope, and its new level to RES. -/
theorem exec_etick (on : s.srv = true) (hn : s.env? v e = some n) (hn' : n.tick s.sr = n') :
    ∃ t, exec (.etick v (envNum e)) s = .next t ∧ EnvUpdate v e n' s t ∧
      t = { s with voices := t.voices, res := .num n'.level } := by
  obtain ⟨vc, hv, rfl⟩ := State.env?_eq_some_iff.mp hn
  subst hn'
  exact ⟨_, (needRate_true _ on).trans (onEnv_some _ hv (envIdxOf_envNum e)),
    envUpdate_setVoice hv e _, rfl⟩

theorem exec_eact (hn : s.env? v e = some n) :
    exec (.eact v (envNum e)) s = .next { s with res := .bool n.isActive } := by
  obtain ⟨vc, hv, rfl⟩ := State.env?_eq_some_iff.mp hn
  exact onEnv_some _ hv (envIdxOf_envNum e)

end EnvelopeWrites

/-! ### The commands -/

/-- Settles O25: each of the four selectors writes its own parameter. -/
theorem esetWritesLatchedParameter : Obligations.EsetWritesLatchedParameter := by
  intro s v e w n x hn hx j p row
  refine exec_eset hn ?_
  rw [← fmtR_eq] at hx
  subst hx
  obtain ⟨rfl, rfl⟩ | ⟨rfl, rfl⟩ | ⟨rfl, rfl⟩ | ⟨rfl, rfl⟩ := row <;> rfl

/-- Settles O26: `EOFF` asks whether the stage is Idle, `EON` asks nothing. -/
theorem eonAndEoffForceStages : Obligations.EonAndEoffForceStages := by
  intro s v e n hn
  refine ⟨exec_eon hn, fun active => ?_, exec_eoff_of_idle hn⟩
  rw [← Envelope.off_of_ne_idle active]
  exact exec_eoff hn

/-- Settles O27: the division is reached only before `T`, and `cnt + 1` is positive. -/
theorem etickInAttack : Obligations.EtickInAttack := by
  rintro s v e n _ on hn stage rfl
  obtain ⟨t, run, update, frame⟩ := exec_etick on hn rfl
  exact ⟨t, _, run, update, frame, Envelope.tick_ends_attack stage, fun before =>
    ⟨(Nat.cast_nonneg _).trans_lt before, Envelope.tick_in_attack stage before⟩⟩

/-- Settles O28, by the two branches of the decay step. -/
theorem etickInDecay : Obligations.EtickInDecay := by
  rintro s v e n _ on hn stage rfl
  obtain ⟨t, run, update, frame⟩ := exec_etick on hn rfl
  exact ⟨t, _, run, update, frame, Envelope.tick_ends_decay stage, Envelope.tick_in_decay stage⟩

/-- Settles O29: in both stages the tick writes the level and nothing else. -/
theorem etickInSustainAndIdle : Obligations.EtickInSustainAndIdle := by
  intro s v e n on hn
  exact ⟨fun stage => exec_etick on hn (Envelope.tick_of_sustain stage),
    fun stage => exec_etick on hn (Envelope.tick_of_idle stage)⟩

/-- Settles O30, by the two branches of the release step. -/
theorem etickInRelease : Obligations.EtickInRelease := by
  rintro s v e n _ on hn stage rfl
  obtain ⟨t, run, update, frame⟩ := exec_etick on hn rfl
  exact ⟨t, _, run, update, frame, Envelope.tick_ends_release stage,
    Envelope.tick_in_release stage⟩

/-- Settles O31: RES is the envelope's `isActive`. -/
theorem eactReportsActive : Obligations.EactReportsActive := by
  intro s v e n hn
  rw [exec_eact hn]
  exact ⟨fun idle => by rw [Envelope.isActive_of_idle idle],
    fun active => by rw [Envelope.isActive_of_ne_idle active]⟩

/-! ### The line of a stage (R170) -/

/-- The level after `t` ticks on the straight line that goes from `a` to `b` in `T` ticks. -/
def lineLevel (a b T t : Q) : Q := a + (b - a) * t / T

section Line

variable {a b T : Q}

@[simp] theorem lineLevel_zero : lineLevel a b T 0 = a := by simp [lineLevel]

theorem lineLevel_to_zero (t : Q) : lineLevel a 0 T t = a * (1 - t / T) := by
  rw [lineLevel]
  ring

/-- R175, R176, R178 in one: from the line of a stage that is not over, the next level is the
stage's target or one tick on along the line; either way it is at most one tick's slope away, in
the slope's direction. -/
theorem lineLevel_next {c : ℕ} {y : Q} (running : (c : Q) < T)
    (ends : T ≤ ((c + 1 : ℕ) : Q) → y = b)
    (goes : ((c + 1 : ℕ) : Q) < T → y = lineLevel a b T ((c + 1 : ℕ) : Q)) :
    ∃ r, 0 < r ∧ r ≤ 1 ∧ y = lineLevel a b T c + (b - a) / T * r := by
  rcases le_or_gt T ((c + 1 : ℕ) : Q) with ended | before
  · have hT : T ≠ 0 := ((Nat.cast_nonneg c).trans_lt running).ne'
    have short : T ≤ c + 1 := by exact_mod_cast ended
    refine ⟨T - c, by linarith, by linarith, (ends ended).trans ?_⟩
    rw [lineLevel]
    field_simp
    ring
  · refine ⟨1, zero_lt_one, le_rfl, (goes before).trans ?_⟩
    rw [lineLevel, lineLevel, Nat.cast_add_one]
    ring

end Line

section OnLine

variable {sr : Nat} {e : Envelope}

theorem Envelope.onLine_of_idle (h : e.stage = .idle) : e.OnLine sr ↔ e.level = 0 := by
  rw [OnLine, h]

theorem Envelope.onLine_of_attack (h : e.stage = .attack) :
    e.OnLine sr ↔ (e.cnt : Q) < e.par.attackTime * (sr : Q) ∧ e.start ≤ 1 ∧
      e.level = lineLevel e.start 1 (e.par.attackTime * (sr : Q)) e.cnt := by
  rw [OnLine, h]
  rfl

theorem Envelope.onLine_of_decay (h : e.stage = .decay) :
    e.OnLine sr ↔ (e.cnt : Q) < e.par.decayTime * (sr : Q) ∧ e.start = 1 ∧
      e.level = lineLevel e.start e.par.sustainLevel (e.par.decayTime * (sr : Q)) e.cnt := by
  rw [OnLine, h]
  rfl

theorem Envelope.onLine_of_sustain (h : e.stage = .sustain) :
    e.OnLine sr ↔ e.level = e.par.sustainLevel := by
  rw [OnLine, h]

theorem Envelope.onLine_of_release (h : e.stage = .release) :
    e.OnLine sr ↔ (e.cnt : Q) < e.par.releaseTime * (sr : Q) ∧ 0 ≤ e.start ∧
      e.level = lineLevel e.start 0 (e.par.releaseTime * (sr : Q)) e.cnt := by
  rw [OnLine, h, lineLevel_to_zero]

/-! ### The line is kept -/

theorem Envelope.Legal.on_onLine (h : e.Legal) (long : 0 < e.par.attackTime * (sr : Q)) :
    e.on.OnLine sr :=
  Iff.mpr (onLine_of_attack rfl)
    ⟨by simpa [Envelope.on] using long, h.level.2, by simp [Envelope.on]⟩

theorem Envelope.off_level (e : Envelope) : e.off.level = e.level := by
  by_cases idle : e.stage = .idle
  · rw [off_of_idle idle]
  · rw [off_of_ne_idle idle]

theorem Envelope.OnLine.off (line : e.OnLine sr) (h : e.Legal)
    (long : 0 < e.par.releaseTime * (sr : Q)) : e.off.OnLine sr := by
  by_cases idle : e.stage = .idle
  · rwa [off_of_idle idle]
  · rw [off_of_ne_idle idle]
    exact Iff.mpr (onLine_of_release rfl) ⟨by simpa using long, h.level.1, by simp⟩

/-- A tick of a moving stage goes one tick on along the line or enters the next stage at its
start; Sustain and Idle hold their level. -/
theorem Envelope.OnLine.tick (line : e.OnLine sr) (long : 0 < e.par.decayTime * (sr : Q)) :
    (e.tick sr).OnLine sr := by
  cases stage : e.stage with
  | idle =>
    rw [tick_of_idle stage]
    exact Iff.mpr (onLine_of_idle stage) rfl
  | attack =>
    obtain ⟨-, start, -⟩ := (onLine_of_attack stage).mp line
    rcases le_or_gt (e.par.attackTime * (sr : Q)) ((e.cnt + 1 : ℕ) : Q) with ended | before
    · rw [tick_ends_attack stage ended]
      exact Iff.mpr (onLine_of_decay rfl) ⟨by simpa using long, rfl, by simp⟩
    · rw [tick_in_attack stage before]
      exact Iff.mpr (onLine_of_attack stage) ⟨before, start, rfl⟩
  | decay =>
    obtain ⟨-, start, -⟩ := (onLine_of_decay stage).mp line
    rcases le_or_gt (e.par.decayTime * (sr : Q)) ((e.cnt + 1 : ℕ) : Q) with ended | before
    · rw [tick_ends_decay stage ended]
      exact Iff.mpr (onLine_of_sustain rfl) rfl
    · rw [tick_in_decay stage before]
      exact Iff.mpr (onLine_of_decay stage) ⟨before, start, rfl⟩
  | sustain =>
    rw [tick_of_sustain stage]
    exact Iff.mpr (onLine_of_sustain stage) rfl
  | release =>
    obtain ⟨-, start, -⟩ := (onLine_of_release stage).mp line
    rcases le_or_gt (e.par.releaseTime * (sr : Q)) ((e.cnt + 1 : ℕ) : Q) with ended | before
    · rw [tick_ends_release stage ended]
      exact Iff.mpr (onLine_of_idle rfl) rfl
    · rw [tick_in_release stage before]
      exact Iff.mpr (onLine_of_release stage) ⟨before, start, (lineLevel_to_zero _).symm⟩

/-! ### The signed slope of a stage (R181, R182) -/

/-- `Envelope.slope` with its direction: from the stage's start level towards its target. -/
def Envelope.velocity (sr : Nat) (e : Envelope) : Q :=
  match e.stage with
  | .idle => 0
  | .attack => (1 - e.start) / (e.par.attackTime * (sr : Q))
  | .decay => (e.par.sustainLevel - e.start) / (e.par.decayTime * (sr : Q))
  | .sustain => 0
  | .release => (0 - e.start) / (e.par.releaseTime * (sr : Q))

/-- A tick moves the level by a positive part of the stage's signed slope, at most the whole. -/
theorem Envelope.OnLine.tick_moves (line : e.OnLine sr) :
    ∃ r, 0 < r ∧ r ≤ 1 ∧ (e.tick sr).level = e.level + e.velocity sr * r := by
  rw [velocity]
  cases stage : e.stage with
  | idle =>
    rw [tick_of_idle stage, (onLine_of_idle stage).mp line]
    exact ⟨1, zero_lt_one, le_rfl, by simp⟩
  | attack =>
    obtain ⟨running, -, level⟩ := (onLine_of_attack stage).mp line
    rw [level]
    exact lineLevel_next running (fun ended => by rw [tick_ends_attack stage ended])
      fun before => by rw [tick_in_attack stage before, lineLevel]
  | decay =>
    obtain ⟨running, -, level⟩ := (onLine_of_decay stage).mp line
    rw [level]
    exact lineLevel_next running (fun ended => by rw [tick_ends_decay stage ended])
      fun before => by rw [tick_in_decay stage before, lineLevel]
  | sustain =>
    rw [tick_of_sustain stage, (onLine_of_sustain stage).mp line]
    exact ⟨1, zero_lt_one, le_rfl, by simp⟩
  | release =>
    obtain ⟨running, -, level⟩ := (onLine_of_release stage).mp line
    rw [level]
    exact lineLevel_next running (fun ended => by rw [tick_ends_release stage ended])
      fun before => by rw [tick_in_release stage before, lineLevel_to_zero]

theorem Envelope.OnLine.velocity_nonneg (line : e.OnLine sr) (stage : e.stage = .attack) :
    0 ≤ e.velocity sr := by
  obtain ⟨running, start, -⟩ := (onLine_of_attack stage).mp line
  rw [velocity, stage]
  exact div_nonneg (sub_nonneg.mpr start) ((Nat.cast_nonneg _).trans running.le)

theorem Envelope.OnLine.velocity_pos (line : e.OnLine sr) (stage : e.stage = .attack)
    (low : e.start < 1) : 0 < e.velocity sr := by
  obtain ⟨running, -, -⟩ := (onLine_of_attack stage).mp line
  rw [velocity, stage]
  exact div_pos (sub_pos.mpr low) ((Nat.cast_nonneg _).trans_lt running)

theorem Envelope.OnLine.velocity_nonpos (line : e.OnLine sr) (h : e.Legal)
    (stage : e.stage = .decay ∨ e.stage = .release) : e.velocity sr ≤ 0 := by
  obtain stage | stage := stage
  · obtain ⟨running, start, -⟩ := (onLine_of_decay stage).mp line
    rw [velocity, stage, start]
    exact div_nonpos_of_nonpos_of_nonneg (sub_nonpos.mpr h.par.sustainLevel.2)
      ((Nat.cast_nonneg _).trans running.le)
  · obtain ⟨running, start, -⟩ := (onLine_of_release stage).mp line
    rw [velocity, stage]
    exact div_nonpos_of_nonpos_of_nonneg (sub_nonpos.mpr start)
      ((Nat.cast_nonneg _).trans running.le)

/-- The slope of R181 is the size of the signed slope. -/
theorem Envelope.OnLine.abs_velocity (line : e.OnLine sr) (h : e.Legal) :
    |e.velocity sr| = e.slope sr := by
  cases stage : e.stage with
  | idle => rw [velocity, slope, stage, abs_zero]
  | attack =>
    rw [abs_of_nonneg (line.velocity_nonneg stage), velocity, slope, stage]
  | decay =>
    rw [abs_of_nonpos (line.velocity_nonpos h (.inl stage)), velocity, slope, stage, ← neg_div,
      neg_sub]
  | sustain => rw [velocity, slope, stage, abs_zero]
  | release =>
    rw [abs_of_nonpos (line.velocity_nonpos h (.inr stage)), velocity, slope, stage, ← neg_div,
      neg_sub, sub_zero]

end OnLine

/-- Settles O32: a tick moves the level by a part of the signed slope, whose size is R181's bound
and whose sign is R182's direction; the stages' lengths are what a newly entered stage needs. -/
theorem envelopeLevelIsContinuous : Obligations.EnvelopeLevelIsContinuous := by
  intro sr e legal line attack decay release
  obtain ⟨r, pos, le_one, moved⟩ := line.tick_moves
  refine ⟨?_, line.tick (zero_lt_one.trans_le decay), rfl,
    legal.on_onLine (zero_lt_one.trans_le attack), e.off_level,
    line.off legal (zero_lt_one.trans_le release), fun stage => ?_, fun stage low => ?_,
    fun stage => ?_⟩ <;> rw [moved]
  · rw [add_sub_cancel_left, abs_mul, abs_of_pos pos, ← line.abs_velocity legal]
    exact mul_le_of_le_one_right (abs_nonneg _) le_one
  · exact le_add_of_nonneg_right (mul_nonneg (line.velocity_nonneg stage) pos.le)
  · exact lt_add_of_pos_right _ (mul_pos (line.velocity_pos stage low) pos)
  · exact add_le_of_nonpos_right
      (mul_nonpos_of_nonpos_of_nonneg (line.velocity_nonpos legal stage) pos.le)

end Sys2Proof.Machine
end

section
/-! PROOFS. The quantiser's error bound and the two commands of the crusher
(43_bitcrusher_decimator.md R203, R204, R206, R207). The quantiser's error is the rounding error of
`s * steps` scaled down by `steps`, so R204 is R8's bound and ties carried over to the grid. -/

namespace Sys2Proof.Machine

/-! ### The ties of `rnd` -/

theorem fract_neg_of_half {x : Q} (tie : Int.fract x = 1 / 2) : Int.fract (-x) = 1 / 2 := by
  rw [Int.fract_neg (by norm_num [tie]), tie]
  norm_num

/-- Ties lie symmetrically about 0. -/
theorem fract_abs_eq_half_iff (x : Q) : Int.fract |x| = 1 / 2 ↔ Int.fract x = 1 / 2 := by
  rcases abs_choice x with h | h <;> rw [h]
  exact ⟨fun tie => neg_neg x ▸ fract_neg_of_half tie, fract_neg_of_half⟩

theorem abs_rnd_sub_eq_min (x : Q) :
    |rnd x - x| = min (Int.fract |x|) (1 - Int.fract |x|) := by
  rw [abs_rnd_sub, rnd_of_nonneg (abs_nonneg x), abs_sub_comm, abs_sub_round_eq_min]

/-- The rounding error is 1/2 exactly at the ties (R8). -/
theorem abs_rnd_sub_eq_half_iff (x : Q) : |rnd x - x| = 1 / 2 ↔ Int.fract x = 1 / 2 := by
  rw [abs_rnd_sub_eq_min, ← fract_abs_eq_half_iff]
  constructor
  · intro half
    rcases min_choice (Int.fract |x|) (1 - Int.fract |x|) with h | h <;> linarith
  · intro tie
    rw [tie]
    norm_num

/-! ### The quantiser's error -/

theorem crushSteps_pos (p : Params) (m : Q) : 0 < crushSteps p m :=
  zero_lt_one.trans_le (one_le_crushSteps p m)

theorem abs_crush_sub (p : Params) (s m : Q) :
    |crush p s m - s| =
      |rnd (s * crushSteps p m) - s * crushSteps p m| / crushSteps p m := by
  have pos := crushSteps_pos p m
  rw [crush, div_sub' pos.ne', abs_div, abs_of_pos pos, mul_comm (crushSteps p m) s]

/-- Settles O35: half a step of the grid is the rounding error 1/2 divided by the step count. -/
theorem crushErrorBound : Obligations.CrushErrorBound := by
  intro p s m
  have pos := crushSteps_pos p m
  rw [abs_crush_sub, ← div_div, div_le_div_iff_of_pos_right pos, div_left_inj' pos.ne']
  refine ⟨abs_rnd_sub_le _, abs_rnd_sub_eq_half_iff _, fun deepest => ?_⟩
  have steps : crushSteps p m = 2 ^ 24 - 1 := crushSteps_of_nat_depth (b := 24) deepest
  norm_num [steps]

/-! ### The commands -/

theorem decim_of_multiple {div i : ℕ} (h : i % div = 0) (vc : Voice) (x : Q) :
    vc.decim div i x = (x, { vc with hold := x }) := if_neg (not_not.mpr h)

theorem decim_of_not_multiple {div i : ℕ} (h : i % div ≠ 0) (vc : Voice) (x : Q) :
    vc.decim div i x = (vc.hold, vc) := if_pos h

/-- `DHOLD` on a voice that exists writes back what `decim` leaves of it, and to RES the sample that
`decim` lets out. -/
theorem exec_dhold {s : State} {v : BitVec 4} {vc vc' : Voice} {x : Q} {i : BitVec 16} {w : Word}
    (hv : s.voice? v = some vc) (hr : vc.decim s.par.div i.toNat (fmtS w) = (x, vc')) :
    exec (.dhold v i w) s = .next ((s.setVoice v vc').setRes (.num x)) := by
  refine (onVoice_some _ hv).trans ?_
  rw [hr]

/-- Settles O37: the two branches of `decim`; the second writes the voice back as it was. -/
theorem dholdHoldsOrReturnsHeld : Obligations.DholdHoldsOrReturnsHeld := by
  intro s v i w vc x hv hx
  rw [← fmtS_eq] at hx
  subst hx
  constructor
  · intro multiple
    exact ⟨_, exec_dhold hv (decim_of_multiple multiple vc _), State.voice?_setVoice_self _ hv,
      sameOtherVoices_setVoice s v _, rfl⟩
  · intro between
    rw [exec_dhold hv (decim_of_not_multiple between vc _), State.setVoice_same hv, State.setRes]

/-- Settles O33: the statement's step count is R202's at the modulation operand's value. -/
theorem crushReturnsQuantised : Obligations.CrushReturnsQuantised := by
  intro s x m steps hsteps
  rw [← fmtS_eq] at hsteps ⊢
  have grid : steps = crushSteps s.par (fmtS m) := hsteps
  rw [grid]
  rfl

end Sys2Proof.Machine
end

section
/-! PROOFS. Starting and stopping a note (44_voice.md R221 to R226). Both commands are one write to
the voice; the views of the written voice are read off `Voice.startNote` and `Voice.stopNote`. -/

namespace Sys2Proof.Machine

/-! ### The views of a voice just written -/

section Views

variable {s : State} {v : BitVec 4} {old : Voice} (hv : s.voice? v = some old) (vc : Voice)
include hv

theorem State.osc?_setVoice_self (o : OscIdx) : (s.setVoice v vc).osc? v o = some (vc.osc o) :=
  State.osc?_eq_some_iff.mpr ⟨vc, State.voice?_setVoice_self vc hv, rfl⟩

theorem State.env?_setVoice_self (e : EnvIdx) : (s.setVoice v vc).env? v e = some (vc.env e) :=
  State.env?_eq_some_iff.mpr ⟨vc, State.voice?_setVoice_self vc hv, rfl⟩

theorem State.regs?_setVoice_self : (s.setVoice v vc).regs? v = some vc.regs :=
  congrArg (Option.map Voice.regs) (State.voice?_setVoice_self vc hv)

end Views

/-! ### `VSTART` -/

theorem exec_vstart {s : State} {v : BitVec 4} {vc : Voice} (on : s.srv = true)
    (hv : s.voice? v = some vc) (note : Note) (vel : Velocity) :
    exec (.vstart v note vel) s = .next (s.setVoice v (vc.startNote s.cfg s.par s.sr note vel)) :=
  (needRate_true _ on).trans (onVoice_some _ hv)

/-- Settles O38: the statement's `φ` is the phase that `Oscillator.startNote` leaves. -/
theorem vstartStartsNote : Obligations.VstartStartsNote := by
  intro s v note vel vc f φ on hv hf hφ
  have phase (x : Q) : s.cfg.noteStartPhase.getD x = φ x := by
    rw [hφ]
    cases s.cfg.noteStartPhase <;> rfl
  have osc := State.osc?_setVoice_self hv (vc.startNote s.cfg s.par s.sr note vel)
  have env := State.env?_setVoice_self hv (vc.startNote s.cfg s.par s.sr note vel)
  subst hf
  simp only [← phase]
  exact ⟨_, exec_vstart on hv note vel, sameOtherVoices_setVoice s v _, rfl,
    osc .tonalLow, osc .pulse1, osc .pulse2, osc .lfo, env .main, env .auxA, env .auxB,
    State.regs?_setVoice_self hv _⟩

/-! ### `VSTOP` -/

theorem Voice.isPlaying_of_playing {vc : Voice} (h : vc.state = .playing) : vc.isPlaying = true :=
  beq_iff_eq.mpr h

theorem Voice.isPlaying_of_idle {vc : Voice} (h : vc.state = .idle) : vc.isPlaying = false := by
  rw [isPlaying, h]
  rfl

theorem exec_vstop_of_playing {s : State} {v : BitVec 4} {vc : Voice} (hv : s.voice? v = some vc)
    (playing : vc.state = .playing) (tail : Bool) :
    exec (.vstop v tail) s = .next (s.setVoice v (vc.stopNote tail)) :=
  (onVoice_some _ hv).trans (if_pos (Voice.isPlaying_of_playing playing))

theorem exec_vstop_of_idle {s : State} {v : BitVec 4} {vc : Voice} (hv : s.voice? v = some vc)
    (idle : vc.state = .idle) (tail : Bool) : exec (.vstop v tail) s = .next s :=
  (onVoice_some _ hv).trans (if_neg (Bool.eq_false_iff.mp (Voice.isPlaying_of_idle idle)))

@[simp] theorem Voice.osc_stopNote (vc : Voice) (tail : Bool) (o : OscIdx) :
    (vc.stopNote tail).osc o = vc.osc o := by
  cases tail <;> cases o <;> rfl

theorem Voice.env_stopNote_tail (vc : Voice) (e : EnvIdx) :
    (vc.stopNote true).env e = (vc.env e).off := Voice.env_mapEnvs Envelope.off vc e

theorem Voice.env_stopNote_cut (vc : Voice) (e : EnvIdx) :
    (vc.stopNote false).env e = (vc.env e).cut := by
  cases e <;> rfl

theorem Envelope.off_eq (n : Envelope) :
    n.off = if n.stage = .idle then n
      else { n with stage := .release, start := n.level, cnt := 0 } := by
  split
  · exact off_of_idle ‹_›
  · exact off_of_ne_idle ‹_›

/-- Settles O39: neither form touches the oscillators, and a tail-off does not touch the voice
registers. -/
theorem vstopReleasesOrCuts : Obligations.VstopReleasesOrCuts := by
  intro s v vc hv
  have oscs (tail : Bool) (o : OscIdx) :
      (s.setVoice v (vc.stopNote tail)).osc? v o = s.osc? v o := by
    rw [State.osc?_setVoice_self hv, Voice.osc_stopNote, State.osc?, hv, Option.map_some]
  refine ⟨fun playing => ?_, fun playing => ?_, exec_vstop_of_idle hv⟩
  · refine ⟨_, exec_vstop_of_playing hv playing true, sameOtherVoices_setVoice s v _, rfl,
      oscs true, ?_, fun e => ?_⟩
    · rw [State.regs?_setVoice_self hv, State.regs?, hv]
      rfl
    · rw [State.env?_setVoice_self hv, Voice.env_stopNote_tail, Envelope.off_eq]
  · refine ⟨_, exec_vstop_of_playing hv playing false, sameOtherVoices_setVoice s v _, rfl,
      oscs false, State.regs?_setVoice_self hv _, fun e => ?_⟩
    rw [State.env?_setVoice_self hv, Voice.env_stopNote_cut, Envelope.cut]

end Sys2Proof.Machine
end

section
/-! PROOFS. One sample of a voice (44_voice.md R227 to R239). `Source.finish_some` and
`Source.finish_none` say what steps 4 to 7 make of what step 3 hands on; a mode's statement is then
the equation of its step 3. -/

namespace Sys2Proof.Machine

/-! ### The steps of a sample -/

/-- The voice that step 3 begins with: its main envelope has become `n`, its LFO `l` (R230, R231). -/
def Voice.modulated (vc : Voice) (n : Envelope) (l : Oscillator) : Voice :=
  { vc with lfo := l, envMain := n, lastenv := n.level }

/-- The LFO after step 2, with the shape written out by R55's table (R231). -/
def lfoStep (p : Params) (sr : Nat) (c : Oscillator) : Oscillator :=
  Oscillator.advance { c with
    shape := if p.lfowave = 0 then .sine else if p.lfowave = 1 then .tri else .pulse
    freq := p.lforate
    inc := p.lforate / (sr : Q) }

theorem Voice.modulated_eq (p : Params) (sr : Nat) (vc : Voice) :
    (vc.stepMain sr).stepLfo p sr = vc.modulated (vc.envMain.tick sr) (lfoStep p sr vc.lfo) := by
  rw [lfoStep, ← lfoShape_eq]
  rfl

theorem Voice.decim_eq (vc : Voice) (div i : Nat) (x : Q) :
    vc.decim div i x = (if i % div = 0 then x else vc.hold,
      { vc with hold := if i % div = 0 then x else vc.hold }) := by
  split
  · exact decim_of_multiple ‹_› vc x
  · exact decim_of_not_multiple ‹_› vc x

theorem Voice.stepEnd_eq {vc : Voice} (playing : vc.state = .playing) :
    vc.stepEnd = { vc with
      state := if vc.envMain.stage = .idle then .idle else .playing
      note := if vc.envMain.stage = .idle then none else vc.note } := by
  unfold stepEnd
  split
  · have active : vc.envMain.stage ≠ .idle := bne_iff_ne.mp ‹_›
    rw [if_neg active, if_neg active, ← playing]
  · have idle : vc.envMain.stage = .idle :=
      of_not_not fun active => ‹¬_› (Envelope.isActive_of_ne_idle active)
    rw [if_pos idle, if_pos idle]

theorem stepCrush_of_tonal {p : Params} (tonal : p.mode ≠ 2) (c : Cfg) (m x : Q) :
    stepCrush c p m x = crush p x m :=
  if_pos (.inl fun h => tonal (Fin.ext h))

theorem stepCrush_of_percussive {p : Params} (noise : p.mode = 2) (c : Cfg) (m x : Q) :
    stepCrush c p m x = if c.crushNoise then crush p x m else x := by
  simp [stepCrush, noise]

/-- Steps 4 to 7 on what step 3 hands on. -/
def Source.finish (c : Cfg) (p : Params) (i : Nat) (lfo : Q) (src : Source) : Source :=
  match src.sample with
  | none => { src with voice := src.voice.stepEnd }
  | some x =>
    let r := src.voice.decim p.div i (stepCrush c p lfo x)
    { voice := r.2.stepEnd, sample := some r.1, draws := src.draws }

/-- Steps 4 to 7 on a sample of a playing voice: crushed, decimated, and the idle test. -/
theorem Source.finish_some {c : Cfg} {p : Params} {i d : Nat} {w : Voice} {lfo x y : Q}
    (hw : w.state = .playing) (hy : y = if i % p.div = 0 then stepCrush c p lfo x else w.hold) :
    (⟨w, some x, d⟩ : Source).finish c p i lfo = ⟨{ w with
      hold := y
      state := if w.envMain.stage = .idle then .idle else .playing
      note := if w.envMain.stage = .idle then none else w.note }, some y, d⟩ := by
  have ended := Voice.stepEnd_eq (vc := { w with hold := y }) hw
  rw [← ended, finish]
  simp only [Voice.decim_eq, ← hy]

/-- Of a skipped sample step 7 alone is left. -/
theorem Source.finish_none {w : Voice} (hw : w.state = .playing) (c : Cfg) (p : Params) (i d : Nat)
    (lfo : Q) :
    (⟨w, none, d⟩ : Source).finish c p i lfo = ⟨{ w with
      state := if w.envMain.stage = .idle then .idle else .playing
      note := if w.envMain.stage = .idle then none else w.note }, none, d⟩ := by
  rw [← Voice.stepEnd_eq hw, finish]

/-- A sample is steps 4 to 7 after step 3. -/
theorem Voice.render_of_source {c : Cfg} {p : Params} {sr draws i : Nat} {vc : Voice} {n : Envelope}
    {l : Oscillator} {src r : Source} (hn : n = vc.envMain.tick sr) (hl : l = lfoStep p sr vc.lfo)
    (hs : sourceOf c p sr (vc.modulated n l) n.level (risesFrom vc.lastenv n.level) draws = src)
    (hr : src.finish c p i l.shapeEval = r) : vc.render c p sr draws i = r := by
  subst hr hs hn hl
  rw [← Voice.modulated_eq, lfoStep, ← lfoShape_eq]
  rfl

/-! ### `VREND` over one sample -/

/-- What a valid `VREND` does: samples of a playing voice, nothing on an idle one (R240). -/
def State.renderWindow (s : State) (v : BitVec 4) (n i : Nat) : State :=
  if s.voicePlaying v then State.renderRun v n i s else s

theorem State.voicePlaying_eq {s : State} {v : BitVec 4} {vc : Voice} (hv : s.voice? v = some vc) :
    s.voicePlaying v = vc.isPlaying := by
  rw [voicePlaying, hv]

theorem exec_vrend {s : State} {v : BitVec 4} {vc : Voice} {start count : BitVec 16}
    (on : s.srv = true) (hv : s.voice? v = some vc)
    (window : start.toNat + count.toNat ≤ s.cfg.blkmax) :
    exec (.vrend v start count) s = .next (s.renderWindow v count.toNat start.toNat) := by
  refine (needRate_true _ on).trans ((onVoice_some _ hv).trans ?_)
  rw [if_neg (Nat.not_lt.mpr window), State.renderWindow, State.voicePlaying_eq hv]
  split <;> rfl

theorem State.renderRun_one (v : BitVec 4) (i : Nat) (s : State) :
    State.renderRun v 1 i s = s.renderSample v i := if_pos (.inl rfl)

theorem State.renderWindow_of_playing {s : State} {v : BitVec 4} (h : s.voicePlaying v = true)
    (n i : Nat) : s.renderWindow v n i = State.renderRun v n i s := if_pos h

theorem State.renderWindow_of_idle {s : State} {v : BitVec 4} (h : s.voicePlaying v = false)
    (n i : Nat) : s.renderWindow v n i = s := if_neg (Bool.eq_false_iff.mp h)

theorem State.renderSample_of_render {s : State} {v : BitVec 4} {vc vc' : Voice} {i d : Nat} {y : Q}
    (hv : s.voice? v = some vc) (hr : vc.render s.cfg s.par s.sr s.draws i = ⟨vc', some y, d⟩) :
    s.renderSample v i = { s.setVoice v vc' with draws := d, out := outAddAll s.out i y } := by
  unfold State.renderSample
  simp only [hv, hr]

theorem State.renderSample_of_skip {s : State} {v : BitVec 4} {vc vc' : Voice} {i d : Nat}
    (hv : s.voice? v = some vc) (hr : vc.render s.cfg s.par s.sr s.draws i = ⟨vc', none, d⟩) :
    s.renderSample v i = { s.setVoice v vc' with draws := d } := by
  unfold State.renderSample
  simp only [hv, hr]

section OneSample

variable {s : State} {v : BitVec 4} {i : BitVec 16} {vc vc' : Voice} {d : Nat}
  (on : s.srv = true) (hv : s.voice? v = some vc) (playing : vc.state = .playing)
  (room : i.toNat + 1 ≤ s.cfg.blkmax)
include on hv playing room

theorem exec_vrend_one : exec (.vrend v i 1) s = .next (s.renderSample v i.toNat) := by
  have plays := (State.voicePlaying_eq hv).trans (Voice.isPlaying_of_playing playing)
  rw [exec_vrend on hv room, State.renderWindow_of_playing plays]
  exact congrArg _ (State.renderRun_one v _ s)

/-- A sample `y` that is not skipped is added at index `i` into every channel (R238). -/
theorem exec_vrend_one_of_render {y : Q} (wf : ∀ m ∈ s.out, Memory.wf m)
    (hr : vc.render s.cfg s.par s.sr s.draws i.toNat = ⟨vc', some y, d⟩) :
    ∃ t, exec (.vrend v i 1) s = .next t ∧ SameOtherVoices v s t ∧
      t = { s with voices := t.voices, out := t.out, draws := d } ∧ t.voice? v = some vc' ∧
      t.out.length = s.out.length ∧
      ∀ ch j, outRead t.out ch j =
        (outRead s.out ch j).map fun q => if j = i.toNat then q + y else q := by
  refine ⟨_, exec_vrend_one on hv playing room, sameOtherVoices_renderSample s v _, ?_⟩
  rw [State.renderSample_of_render hv hr]
  exact ⟨rfl, State.voice?_setVoice_self vc' hv, outAddAll_length _ _ _,
    outRead_outAddAll wf i.toNat y⟩

/-- A skipped sample leaves the output buffer alone (R236). -/
theorem exec_vrend_one_of_skip
    (hr : vc.render s.cfg s.par s.sr s.draws i.toNat = ⟨vc', none, d⟩) :
    ∃ t, exec (.vrend v i 1) s = .next t ∧ SameOtherVoices v s t ∧
      t = { s with voices := t.voices, draws := d } ∧ t.voice? v = some vc' ∧ t.out = s.out := by
  refine ⟨_, exec_vrend_one on hv playing room, sameOtherVoices_renderSample s v _, ?_⟩
  rw [State.renderSample_of_skip hv hr]
  exact ⟨rfl, State.voice?_setVoice_self vc' hv, rfl⟩

end OneSample

/-! ### The tonal modes -/

theorem sourceOf_low {p : Params} (low : p.mode = 0) (c : Cfg) (sr : Nat) (vc : Voice) (lvl : Q)
    (inAtk : Bool) (draws : Nat) : sourceOf c p sr vc lvl inAtk draws = sourceLow vc lvl draws := by
  rw [sourceOf, low]
  rfl

theorem sourceOf_pulse {p : Params} (pulse : p.mode = 1) (c : Cfg) (sr : Nat) (vc : Voice) (lvl : Q)
    (inAtk : Bool) (draws : Nat) :
    sourceOf c p sr vc lvl inAtk draws = sourcePulse p vc lvl inAtk draws := by
  rw [sourceOf, pulse]
  rfl

theorem sourceOf_perc {p : Params} (noise : p.mode = 2) (c : Cfg) (sr : Nat) (vc : Voice) (lvl : Q)
    (inAtk : Bool) (draws : Nat) :
    sourceOf c p sr vc lvl inAtk draws = sourcePerc c sr vc lvl draws := by
  rw [sourceOf, noise]
  rfl

/-- Settles O40: step 3 advances oscillator 0 and multiplies it by the level (R233). -/
theorem vrendTonalLowSample : Obligations.VrendTonalLowSample := by
  intro s v i vc n l c x y wf on hv playing room low hn hl hc hx hy
  have tonal : s.par.mode ≠ 2 := by simp [low]
  rw [hx, ← stepCrush_of_tonal tonal s.cfg] at hy
  subst hc
  have source := sourceOf_low low s.cfg s.sr (vc.modulated n l) n.level
    (risesFrom vc.lastenv n.level) s.draws
  exact exec_vrend_one_of_render on hv playing room wf
    (Voice.render_of_source hn hl source (Source.finish_some playing hy))

/-- The three widths of R46 differ. -/
theorem pwDec_inj {w w' : Fin 3} : pwDec w = pwDec w' ↔ w = w' := by
  revert w w'
  decide +kernel

/-- Settles O41: step 3 advances both pulse oscillators and keeps one of them (R234). -/
theorem vrendTonalPulseSample : Obligations.VrendTonalPulseSample := by
  intro s v i vc n l a b da db kept x y wf on hv playing room pulse hn hl hda hdb ha hb first second
    hx hy
  have tonal : s.par.mode ≠ 2 := by simp [pulse]
  rw [hx, ← stepCrush_of_tonal tonal s.cfg] at hy
  rw [← pwDec_eq] at hda hdb
  subst hda hdb ha hb
  have selected : (if pwDec s.par.pw1 = pwDec s.par.pw2 ∨ risesFrom vc.lastenv n.level = true then
      (Oscillator.advance { vc.pulse1 with duty := pwDec s.par.pw1 }).shapeEval
      else (Oscillator.advance { vc.pulse2 with duty := pwDec s.par.pw2 }).shapeEval) = kept := by
    simp only [pwDec_inj, risesFrom, decide_eq_true_eq]
    split
    · exact (first ‹_›).symm
    · obtain ⟨unequal, falls⟩ := not_or.mp ‹_›
      exact (second unequal (not_lt.mp falls)).symm
  rw [← selected] at hy
  have source := sourceOf_pulse pulse s.cfg s.sr (vc.modulated n l) n.level
    (risesFrom vc.lastenv n.level) s.draws
  exact exec_vrend_one_of_render on hv playing room wf
    (Voice.render_of_source hn hl source (Source.finish_some playing hy))

/-! ### Percussive-noise mode -/

/-- Settles O42: the four branches of step 3 on the note (R236); none writes the state, the note or
the held value of the voice. -/
theorem vrendPercussiveSample : Obligations.VrendPercussiveSample := by
  intro s v i vc n l d wf on hv playing room noise hn hl hd w raw branch
  have source : sourcePerc s.cfg s.sr (vc.modulated n l) n.level s.draws =
        ⟨w.modulated n l, raw, raw.elim s.draws fun _ => s.draws + 1⟩ ∧
      w.state = vc.state ∧ w.note = vc.note ∧ w.hold = vc.hold := by
    subst hd
    obtain ⟨a, rfl, rfl⟩ | ⟨na, b, rfl, rfl⟩ | ⟨na, nb, g, rfl, rfl⟩ | ⟨na, nb, ng, rfl, rfl⟩ :=
      branch
    · exact ⟨if_pos a, rfl, rfl, rfl⟩
    · exact ⟨(if_neg na).trans (if_pos b), rfl, rfl, rfl⟩
    · exact ⟨(if_neg na).trans ((if_neg nb).trans (if_pos g)), rfl, rfl, rfl⟩
    · exact ⟨(if_neg na).trans ((if_neg nb).trans (if_neg ng)), rfl, rfl, rfl⟩
  obtain ⟨source, state, note, hold⟩ := source
  have source := (sourceOf_perc noise s.cfg s.sr (vc.modulated n l) n.level
    (risesFrom vc.lastenv n.level) s.draws).trans source
  have playing' : (w.modulated n l).state = .playing := state.trans playing
  rw [← note, ← hold]
  cases raw with
  | none =>
    have sample := Voice.render_of_source hn hl source
      (Source.finish_none playing' s.cfg s.par i.toNat _ l.shapeEval)
    obtain ⟨t, run, others, frame, voice, out⟩ := exec_vrend_one_of_skip on hv playing room sample
    refine ⟨t, run, others, by rw [frame], by rw [out], nofun, fun _ => ⟨?_, voice, ?_⟩⟩
    · rw [frame]
      rfl
    · simp [out]
  | some x =>
    have sample := Voice.render_of_source (i := i.toNat) hn hl source
      (Source.finish_some playing' rfl)
    obtain ⟨t, run, others, frame, voice, length, reads⟩ :=
      exec_vrend_one_of_render on hv playing room wf sample
    refine ⟨t, run, others, by rw [frame], length, ?_, nofun⟩
    rintro _ y ⟨⟩ rfl
    rw [stepCrush_of_percussive noise] at voice reads
    exact ⟨voice, by rw [frame]; rfl, reads⟩

end Sys2Proof.Machine
end

section
/-! PROOFS. `VREND` over a window (44_voice.md R238, R240, R241). `State.renderRun_setOut` says once
what a window does to the output buffer: it adds a list of samples, all at indices of the window,
that does not depend on what the buffer held. -/

namespace Sys2Proof.Machine

/-! ### Adding samples -/

/-- `OutAdd` of each (index, sample) pair of a list, in order, into every channel (R238). -/
def addSamples (adds : List (Nat × Q)) (out : List Memory) : List Memory :=
  adds.foldl (fun o a => outAddAll o a.1 a.2) out

/-- What a list of samples adds in all at index `j`. -/
def addedAt (j : Nat) (adds : List (Nat × Q)) : Q :=
  (adds.map fun a => if j = a.1 then a.2 else 0).sum

theorem addSamples_append (adds more : List (Nat × Q)) (out : List Memory) :
    addSamples (adds ++ more) out = addSamples more (addSamples adds out) := List.foldl_append

@[simp] theorem addSamples_length (adds : List (Nat × Q)) (out : List Memory) :
    (addSamples adds out).length = out.length := by
  induction adds generalizing out with
  | nil => rfl
  | cons a adds ih => exact (ih _).trans (outAddAll_length out a.1 a.2)

theorem outRead_addSamples_ne {adds : List (Nat × Q)} {j : Nat} (h : ∀ a ∈ adds, j ≠ a.1)
    (out : List Memory) (ch : Nat) : outRead (addSamples adds out) ch j = outRead out ch j := by
  induction adds generalizing out with
  | nil => rfl
  | cons a adds ih =>
    obtain ⟨ne, rest⟩ := List.forall_mem_cons.mp h
    exact (ih rest _).trans (outRead_outAddAll_ne out a.2 ch ne)

theorem outRead_addSamples {out : List Memory} (wf : ∀ m ∈ out, Memory.wf m)
    (adds : List (Nat × Q)) (ch j : Nat) :
    outRead (addSamples adds out) ch j = (outRead out ch j).map (· + addedAt j adds) := by
  induction adds generalizing out with
  | nil => simp [addSamples, addedAt]
  | cons a adds ih =>
    have first := outRead_outAddAll wf a.1 a.2 ch j
    refine (ih (outAddAll_wf wf a.1 a.2)).trans ?_
    rw [first, Option.map_map]
    congr 1
    funext q
    simp only [Function.comp_apply, addedAt, List.map_cons, List.sum_cons]
    split <;> ring

/-! ### The buffer is not read -/

/-- The state with other contents of the output buffer. -/
def State.setOut (s : State) (out : List Memory) : State := { s with out := out }

@[simp] theorem State.setOut_out (s : State) (out : List Memory) : (s.setOut out).out = out := rfl

@[simp] theorem State.setOut_ctlPort (s : State) (out : List Memory) :
    (s.setOut out).ctlPort = s.ctlPort := rfl

@[simp] theorem State.ctlCommand_setOut (s : State) (out : List Memory) :
    (s.setOut out).ctlCommand = s.ctlCommand.setOut out := by
  unfold State.ctlCommand
  rw [State.setOut_ctlPort]
  split <;> rfl

theorem State.ctlCommands_setOut (n : Nat) (s : State) (out : List Memory) :
    State.ctlCommands n (s.setOut out) = (State.ctlCommands n s).setOut out := by
  induction n generalizing s with
  | zero => rfl
  | succ n ih => rw [State.ctlCommands, State.ctlCommand_setOut, ih, State.ctlCommands]

@[simp] theorem State.ctlPoint_setOut (s : State) (out : List Memory) :
    (s.setOut out).ctlPoint = s.ctlPoint.setOut out := by
  have issue : (s.setOut out).ctlIssue = s.ctlIssue.setOut out := by
    unfold State.ctlIssue
    rw [State.setOut_ctlPort]
    split
    · rfl
    · exact State.ctlCommands_setOut _ { s with draws := s.draws + 1 } out
  rw [State.ctlPoint, issue]
  rfl

theorem State.renderSample_setOut (s : State) (v : BitVec 4) (i : Nat) :
    ∃ adds, (∀ a ∈ adds, a.1 = i) ∧
      ∀ out, (s.setOut out).renderSample v i =
        (s.renderSample v i).setOut (addSamples adds out) := by
  have voice (out : List Memory) : (s.setOut out).voice? v = s.voice? v := rfl
  cases hv : s.voice? v with
  | none =>
    refine ⟨[], by simp, fun out => ?_⟩
    simp only [State.renderSample, voice, hv]
    rfl
  | some vc =>
    cases hr : vc.render s.cfg s.par s.sr s.draws i with
    | mk vc' sample draws =>
      have hv' (out : List Memory) := (voice out).trans hv
      cases sample with
      | none =>
        refine ⟨[], by simp, fun out => ?_⟩
        rw [State.renderSample_of_skip (hv' out) hr, State.renderSample_of_skip hv hr]
        rfl
      | some y =>
        refine ⟨[(i, y)], by simp, fun out => ?_⟩
        rw [State.renderSample_of_render (hv' out) hr, State.renderSample_of_render hv hr]
        rfl

theorem State.renderRun_of_last {s : State} {v : BitVec 4} {n i : Nat}
    (h : n = 0 ∨ (s.renderSample v i).voicePlaying v = false) :
    State.renderRun v (n + 1) i s = s.renderSample v i := if_pos h

theorem State.renderRun_of_more {s : State} {v : BitVec 4} {n i : Nat}
    (h : ¬(n = 0 ∨ (s.renderSample v i).voicePlaying v = false)) :
    State.renderRun v (n + 1) i s = State.renderRun v n (i + 1) (s.renderSample v i).ctlPoint :=
  if_neg h

theorem State.renderRun_setOut (v : BitVec 4) (n i : Nat) (s : State) :
    ∃ adds, (∀ a ∈ adds, i ≤ a.1 ∧ a.1 < i + n) ∧
      ∀ out, State.renderRun v n i (s.setOut out) =
        (State.renderRun v n i s).setOut (addSamples adds out) := by
  induction n generalizing i s with
  | zero => exact ⟨[], by simp, fun _ => rfl⟩
  | succ n ih =>
    obtain ⟨adds, here, sample⟩ := s.renderSample_setOut v i
    have playing (out : List Memory) :
        ((s.setOut out).renderSample v i).voicePlaying v = (s.renderSample v i).voicePlaying v := by
      rw [sample]
      rfl
    by_cases last : n = 0 ∨ (s.renderSample v i).voicePlaying v = false
    · refine ⟨adds, fun a ha => ?_, fun out => ?_⟩
      · have := here a ha
        omega
      · rw [State.renderRun_of_last (by rwa [playing]), State.renderRun_of_last last, sample]
    · obtain ⟨more, after, rest⟩ := ih (i + 1) (s.renderSample v i).ctlPoint
      refine ⟨adds ++ more, fun a ha => ?_, fun out => ?_⟩
      · rcases List.mem_append.mp ha with ha | ha
        · have := here a ha
          omega
        · have := after a ha
          omega
      · rw [State.renderRun_of_more (by rwa [playing]), State.renderRun_of_more last, sample,
          State.ctlPoint_setOut, rest, addSamples_append]

theorem State.renderRun_out (v : BitVec 4) (n i : Nat) (s : State) :
    ∃ adds, (∀ a ∈ adds, i ≤ a.1 ∧ a.1 < i + n) ∧
      (State.renderRun v n i s).out = addSamples adds s.out := by
  obtain ⟨adds, window, run⟩ := State.renderRun_setOut v n i s
  exact ⟨adds, window, congrArg State.out (run s.out)⟩

/-- Both states come from adding the same samples, the first to the buffer `o`, the other to `o'`. -/
def AddsAlike (o o' : List Memory) (t t' : State) : Prop :=
  ∃ adds, t.out = addSamples adds o ∧ t' = t.setOut (addSamples adds o')

theorem execVrend_setOut (v : BitVec 4) (start count : BitVec 16) (s : State) (out : List Memory) :
    Related (AddsAlike s.out out) (execVrend v start count s)
      (execVrend v start count (s.setOut out)) :=
  .needRate rfl ⟨[], rfl, rfl⟩ <| .onVoice rfl ⟨[], rfl, rfl⟩ fun vc => by
    rw [show (s.setOut out).cfg = s.cfg from rfl]
    split
    · exact .next ⟨[], rfl, rfl⟩
    · split
      · obtain ⟨adds, -, run⟩ := State.renderRun_setOut v count.toNat start.toNat s
        exact .next ⟨adds, congrArg State.out (run s.out), run out⟩
      · exact .next ⟨[], rfl, rfl⟩

/-- Settles O45: at each index both runs add the same total. -/
theorem vrendAddsWhateverTheBufferHolds : Obligations.VrendAddsWhateverTheBufferHolds := by
  intro s t v start count out wf wf' _ ht
  obtain ⟨t', u, ht', hu, adds, hout, rfl⟩ := execVrend_setOut v start count s out
  cases ht.symm.trans ht'
  refine ⟨_, hu, rfl, fun ch j a b c ha hb hc => ?_⟩
  rw [hout, outRead_addSamples wf, ha, Option.map_some, Option.some_inj] at hc
  rw [State.setOut_out, outRead_addSamples wf', hb, ← hc, Option.map_some, add_sub_cancel_left]

/-! ### The frame of a window -/

/-- What may differ after samples have been rendered (R240, 20_memory.md R77). -/
def RenderFrame (s t : State) : Prop :=
  t = { s with
    voices := t.voices, out := t.out, par := t.par, pend := t.pend, ctlPort := t.ctlPort
    badcmd := t.badcmd, draws := t.draws }

theorem RenderFrame.trans {s t u : State} (hst : RenderFrame s t) (htu : RenderFrame t u) :
    RenderFrame s u :=
  Eq.trans htu (by rw [hst])

theorem RenderFrame.srv {s t : State} (h : RenderFrame s t) : t.srv = s.srv := by rw [h]

theorem RenderFrame.cfg {s t : State} (h : RenderFrame s t) : t.cfg = s.cfg := by rw [h]

theorem CtlFrame.renderFrame {s t : State} (h : CtlFrame s t) : RenderFrame s t := by
  rw [h]
  rfl

/-- What one sample may write: its voice, the buffer and the draw counter. -/
def SampleFrame (s t : State) : Prop :=
  t = { s with voices := t.voices, out := t.out, draws := t.draws }

theorem SampleFrame.trans {s t u : State} (hst : SampleFrame s t) (htu : SampleFrame t u) :
    SampleFrame s u :=
  Eq.trans htu (by rw [hst])

theorem SampleFrame.renderFrame {s t : State} (h : SampleFrame s t) : RenderFrame s t := by
  rw [h]
  rfl

theorem sampleFrame_renderSample (s : State) (v : BitVec 4) (i : Nat) :
    SampleFrame s (s.renderSample v i) := by
  obtain ⟨-, he⟩ | ⟨_, _, -, -, ⟨-, he⟩ | ⟨_, -, he⟩⟩ := s.renderSample_cases v i <;>
    rw [he] <;> rfl

theorem renderFrame_renderRun (v : BitVec 4) (n i : Nat) (s : State) :
    RenderFrame s (State.renderRun v n i s) := by
  induction n generalizing i s with
  | zero => rfl
  | succ n ih =>
    have sample := (sampleFrame_renderSample s v i).renderFrame
    by_cases last : n = 0 ∨ (s.renderSample v i).voicePlaying v = false
    · rw [State.renderRun_of_last last]
      exact sample
    · rw [State.renderRun_of_more last]
      exact (sample.trans (ctlFrame_ctlPoint _).renderFrame).trans (ih _ _)

/-! ### No control write in flight -/

/-- Nothing waits on the control port and no control write is pending (20_memory.md R78). -/
def State.Quiet (s : State) : Prop := s.pend = [] ∧ s.ctlPort = []

theorem State.Quiet.ctlPoint {s : State} (h : s.Quiet) : s.ctlPoint = s := by
  obtain ⟨pend, port⟩ := h
  have issue : s.ctlIssue = s := by rw [ctlIssue, port]
  rw [State.ctlPoint, issue, applyPending, pend, makeVisible, ← pend]

theorem State.Quiet.renderSample {s : State} (h : s.Quiet) (v : BitVec 4) (i : Nat) :
    (s.renderSample v i).Quiet := by
  rw [sampleFrame_renderSample s v i]
  exact h

/-- With no control write in flight a window leaves the control agent's registers alone. -/
theorem State.Quiet.sampleFrame_renderRun {s : State} (h : s.Quiet) (v : BitVec 4) (n i : Nat) :
    SampleFrame s (State.renderRun v n i s) := by
  induction n generalizing i s with
  | zero => rfl
  | succ n ih =>
    have sample := sampleFrame_renderSample s v i
    have quiet := h.renderSample v i
    by_cases last : n = 0 ∨ (s.renderSample v i).voicePlaying v = false
    · rw [State.renderRun_of_last last]
      exact sample
    · rw [State.renderRun_of_more last, quiet.ctlPoint]
      exact sample.trans (ih quiet (i + 1))

/-! ### The window -/

@[simp] theorem State.renderWindow_zero (s : State) (v : BitVec 4) (i : Nat) :
    s.renderWindow v 0 i = s := ite_self s

/-- A valid `VREND` over `count` indices is the run of at most that many samples. -/
theorem State.exists_renderWindow_eq (s : State) (v : BitVec 4) (count i : Nat) :
    ∃ n, n ≤ count ∧ s.renderWindow v count i = State.renderRun v n i s := by
  unfold State.renderWindow
  split
  · exact ⟨count, le_rfl, rfl⟩
  · exact ⟨0, Nat.zero_le count, rfl⟩

theorem renderFrame_renderWindow (s : State) (v : BitVec 4) (n i : Nat) :
    RenderFrame s (s.renderWindow v n i) := by
  obtain ⟨k, -, samples⟩ := s.exists_renderWindow_eq v n i
  rw [samples]
  exact renderFrame_renderRun v k i s

theorem sameOtherVoices_renderWindow (s : State) (v : BitVec 4) (n i : Nat) :
    SameOtherVoices v s (s.renderWindow v n i) := by
  obtain ⟨k, -, samples⟩ := s.exists_renderWindow_eq v n i
  rw [samples]
  exact sameOtherVoices_renderRun v k i s

/-- Settles O43: the parts of the frame are what a run of samples keeps. -/
theorem vrendFrame : Obligations.VrendFrame := by
  intro s v start count vc on hv window
  have run := exec_vrend on hv window
  constructor
  · obtain ⟨n, le, samples⟩ := s.exists_renderWindow_eq v count.toNat start.toNat
    obtain ⟨adds, inside, out⟩ := State.renderRun_out v n start.toNat s
    rw [samples] at run
    refine ⟨_, run, sameOtherVoices_renderRun v n _ s, by rw [out, addSamples_length],
      fun ch j outside => ?_, renderFrame_renderRun v n _ s, fun pend port => ?_⟩
    · rw [out]
      refine outRead_addSamples_ne (fun a ha => ?_) s.out ch
      have := inside a ha
      omega
    · rw [State.Quiet.sampleFrame_renderRun ⟨pend, port⟩ v n start.toNat]
      exact ⟨rfl, pend, port, rfl⟩
  · intro nothing
    rw [run]
    obtain idle | rfl := nothing
    · have silent := (State.voicePlaying_eq hv).trans (Voice.isPlaying_of_idle idle)
      rw [State.renderWindow_of_idle silent]
    · exact congrArg Host.Outcome.next (s.renderWindow_zero v _)

/-! ### A window in two pieces -/

theorem State.Quiet.renderWindow_succ {s : State} (h : s.Quiet) {v : BitVec 4}
    (playing : s.voicePlaying v = true) (n i : Nat) :
    s.renderWindow v (n + 1) i = (s.renderSample v i).renderWindow v n (i + 1) := by
  rw [State.renderWindow_of_playing playing]
  by_cases last : n = 0 ∨ (s.renderSample v i).voicePlaying v = false
  · rw [State.renderRun_of_last last]
    obtain rfl | silent := last
    · exact (State.renderWindow_zero _ v _).symm
    · rw [State.renderWindow_of_idle silent]
  · rw [State.renderRun_of_more last, (h.renderSample v i).ctlPoint]
    obtain ⟨-, sounding⟩ := not_or.mp last
    rw [State.renderWindow_of_playing (Bool.eq_true_of_not_eq_false sounding)]

theorem State.Quiet.renderWindow_add {s : State} (h : s.Quiet) (v : BitVec 4) (n m i : Nat) :
    (s.renderWindow v n i).renderWindow v m (i + n) = s.renderWindow v (n + m) i := by
  induction n generalizing i s with
  | zero =>
    rw [State.renderWindow_zero, Nat.add_zero, Nat.zero_add]
  | succ n ih =>
    cases playing : s.voicePlaying v with
    | false => simp only [State.renderWindow_of_idle playing]
    | true =>
      rw [Nat.add_right_comm n 1 m, h.renderWindow_succ playing, h.renderWindow_succ playing,
        ← ih (h.renderSample v i) (i + 1), Nat.add_right_comm i 1 n, Nat.add_assoc i n 1]

theorem State.exists_voice?_eq {s : State} {v : BitVec 4} (h : v.toNat < s.voices.length) :
    ∃ vc, s.voice? v = some vc := ⟨_, List.getElem?_eq_getElem h⟩

/-- That a voice or the sample rate is missing does not depend on the window (R112 (c), (f)). -/
theorem exec_vrend_of_invalid {s : State} {v : BitVec 4}
    (h : s.voices.length ≤ v.toNat ∨ s.srv = false) (start count : BitVec 16) :
    exec (.vrend v start count) s = .next s.invalid :=
  have invalid : InvalidCommand s (.vrend v start count) := h.imp_right .inl
  exec_of_invalidCommand invalid

/-- Settles O44: an invalid `VREND` stays invalid; a valid one is `renderWindow`, and windows that
meet add up. -/
theorem vrendWindowSplits : Obligations.VrendWindowSplits := by
  intro s t v a n m pend port room fits ht
  have whole : (n + m).toNat = n.toNat + m.toNat := BitVec.toNat_add_of_lt (by omega)
  have second : (a + n).toNat = a.toNat + n.toNat := BitVec.toNat_add_of_lt (by omega)
  by_cases invalid : s.voices.length ≤ v.toNat ∨ s.srv = false
  · cases (exec_vrend_of_invalid invalid a n).symm.trans ht
    rw [exec_vrend_of_invalid invalid, exec_vrend_of_invalid (s := s.invalid) invalid]
    rfl
  · obtain ⟨present, on⟩ := not_or.mp invalid
    have on : s.srv = true := Bool.eq_true_of_not_eq_false on
    obtain ⟨vc, hv⟩ := State.exists_voice?_eq (Nat.lt_of_not_le present)
    cases (exec_vrend on hv (by omega)).symm.trans ht
    have frame := renderFrame_renderWindow s v n.toNat a.toNat
    have voices := (sameOtherVoices_renderWindow s v n.toNat a.toNat).1
    obtain ⟨vc', hv'⟩ := State.exists_voice?_eq (voices ▸ Nat.lt_of_not_le present)
    rw [exec_vrend (frame.srv.trans on) hv' (by rw [frame.cfg]; omega), exec_vrend on hv (by omega),
      whole, second, State.Quiet.renderWindow_add ⟨pend, port⟩]

end Sys2Proof.Machine
end

section
/-! PROOFS. The arpeggiator's inputs (45_arpclock.md R261, R274, R275): the two commands on the
event queues, and the held-note set after the events of a block. -/

namespace Sys2Proof.Machine

/-! ### The event queues (R274, R275) -/

/-- Settles O54: `pushIn` by the room in EVIN, `popOut` by whether EVOUT is empty. -/
theorem evpushAppendsAndEvpopTakesHead : Obligations.EvpushAppendsAndEvpopTakesHead := by
  refine ⟨fun s on note vel off => ?_, fun s empty => execEvpop_of_nil empty,
    fun s ev rest nonempty => execEvpop_of_cons nonempty⟩
  have run : exec (.evpush on note vel off) s =
    .next (s.pushIn { off := off.toNat, on := on, note := note, vel := vel }) := rfl
  rw [run]
  exact ⟨fun room => congrArg _ (if_pos room), fun full => congrArg _ (if_neg full.not_gt)⟩

/-! ### The held-note set (R261) -/

theorem getLsbD_heldSet (h : BitVec 128) (m n : Note) (on : Bool) :
    (heldSet h m on).getLsbD n.val = if m = n then on else h.getLsbD n.val := by
  have bit : (1#128 <<< m.val).getLsbD n.val = decide (m = n) :=
    (BitVec.getLsbD_twoPow m.val n.val).trans (by simp [Fin.ext_iff])
  cases on with
  | true =>
    rw [heldSet, if_pos rfl, BitVec.getLsbD_or, bit]
    by_cases same : m = n <;> simp [same]
  | false =>
    rw [heldSet, if_neg Bool.false_ne_true, BitVec.getLsbD_and, BitVec.getLsbD_not, bit]
    by_cases same : m = n <;> simp [same, n.isLt]

/-- Settles O48, by induction from the last event backwards: it decides its own note and leaves
every other note to the events before it. -/
theorem heldSetFollowsEvents : Obligations.HeldSetFollowsEvents := by
  intro h evs n
  induction evs using List.reverseRecOn with
  | nil => rfl
  | append_singleton evs ev ih =>
    have last : heldAfter h (evs ++ [ev]) = heldSet (heldAfter h evs) ev.note ev.on :=
      List.foldl_concat ..
    rw [last, getLsbD_heldSet, ih, List.reverse_concat, List.find?_cons]
    by_cases same : ev.note = n <;> simp [same]

end Sys2Proof.Machine
end

section
/-! PROOFS. The next trigger position (45_arpclock.md R265, R267). The model searches the positions
in ascending order; `isLeast_triggerPos` says what it finds, and from there on only that is used. -/

namespace Sys2Proof.Machine

theorem rateStep_eq (r : ArpRate) : rateStep r = 8 / r.rate := by cases r <;> rfl

theorem eight_mod_rateStep (r : ArpRate) : 8 % rateStep r = 0 := by cases r <;> rfl

/-- The trigger positions that R265 selects at or after the phase. -/
def selectedFrom (step : ℕ) (ph : ℚ) : Set ℚ :=
  { x : ℚ | ∃ k : ℕ, k ≤ 8 ∧ k % step = 0 ∧ x = (k : ℚ) / 8 ∧ ph ≤ x }

/-- The search finds the least position, as the position 1 is always selected. -/
theorem isLeast_triggerPos (r : ArpRate) {ph : ℚ} (le_one : ph ≤ 1) :
    IsLeast (selectedFrom (rateStep r) ph) (triggerPos (rateStep r) ph) := by
  unfold triggerPos
  split
  case h_1 k found =>
    obtain ⟨selected, inside, before⟩ := List.find?_range_eq_some.mp found
    obtain ⟨multiple, after⟩ := of_decide_eq_true selected
    have le_eight : k ≤ 8 := Nat.le_of_lt_succ (List.mem_range.mp inside)
    refine ⟨⟨k, le_eight, multiple, rfl, after⟩, ?_⟩
    rintro _ ⟨j, -, hj, rfl, after'⟩
    have : k ≤ j := by
      by_contra lt
      simpa [hj, after'] using before j (not_le.mp lt)
    gcongr
  case h_2 missing =>
    have := List.find?_eq_none.mp missing 8 (by simp)
    norm_num [eight_mod_rateStep, le_one] at this

theorem triggerPos_eq {r : ArpRate} {ph p : ℚ} (le_one : ph ≤ 1)
    (least : IsLeast (selectedFrom (rateStep r) ph) p) : triggerPos (rateStep r) ph = p :=
  (isLeast_triggerPos r le_one).unique least

theorem triggerPos_zero (r : ArpRate) : triggerPos (rateStep r) 0 = 0 :=
  triggerPos_eq zero_le_one ⟨⟨0, by simp⟩, fun _ ⟨_, _, _, _, after⟩ => after⟩

/-- Between the phase and the next position, that position stays the next one. -/
theorem triggerPos_of_le {r : ArpRate} {ph ph' : ℚ} (le : ph ≤ ph')
    (before : ph' ≤ triggerPos (rateStep r) ph) (le_one : ph' ≤ 1) :
    triggerPos (rateStep r) ph' = triggerPos (rateStep r) ph := by
  obtain ⟨⟨k, hk, multiple, eq, -⟩, least⟩ := isLeast_triggerPos r (le.trans le_one)
  refine triggerPos_eq le_one ⟨⟨k, hk, multiple, eq, before⟩, ?_⟩
  rintro x ⟨j, hj, hm, hx, after⟩
  exact least ⟨j, hj, hm, hx, le.trans after⟩

theorem triggerPos_le_one (r : ArpRate) {ph : ℚ} (le_one : ph ≤ 1) :
    triggerPos (rateStep r) ph ≤ 1 :=
  (isLeast_triggerPos r le_one).2 ⟨8, by simp [eight_mod_rateStep, le_one]⟩

/-- Settles O53: the phase moves towards the next position and may reach it; at 1 it wraps to 0,
where position 0 is due at once. -/
theorem triggerCarriesOver : Obligations.TriggerCarriesOver := by
  intro p pos qns n pos_qns later
  unfold triggerDist at later ⊢
  set r := p.arprate
  set target := triggerPos (rateStep r) (frac pos)
  set moved := (n : ℚ) / qns
  have nonneg : 0 ≤ moved := by positivity
  have samples : moved * qns = n := div_mul_cancel₀ _ pos_qns.ne'
  have reach : moved ≤ target - frac pos := (div_le_iff₀ pos_qns).mpr later
  have target_le : target ≤ 1 := triggerPos_le_one r (frac_lt_one pos).le
  have whole : pos + moved = (frac pos + moved) + (⌊pos⌋ : ℤ) := by
    rw [← Int.self_sub_fract pos]
    change _ = Int.fract pos + _ + _
    ring
  have phase : frac (pos + moved) = Int.fract (frac pos + moved) := by
    rw [whole]
    exact Int.fract_add_intCast _ _
  obtain inside | wraps := (show frac pos + moved ≤ 1 by linarith).lt_or_eq
  · have stays : frac (pos + moved) = frac pos + moved :=
      phase.trans (Int.fract_eq_self.mpr ⟨add_nonneg (frac_nonneg pos) nonneg, inside⟩)
    have same : triggerPos (rateStep r) (frac pos + moved) = target :=
      triggerPos_of_le (le_add_of_nonneg_right nonneg) (by linarith) inside.le
    rw [stays, same, ← samples]
    ring
  · have zero : frac (pos + moved) = 0 := by rw [phase, wraps, Int.fract_one]
    have due : target - frac pos = moved := by linarith
    rw [zero, triggerPos_zero, due, samples]
    ring

end Sys2Proof.Machine
end

section
/-! PROOFS. The block (45_arpclock.md R260 to R278). Steps 4 and 5 push a list of events and set the
cursor and `LAST`, and do nothing else: `State.emit`. There is one equation for each way they can
go, and `exec_ablock` carries any of them to the state after the block. -/

namespace Sys2Proof.Machine

/-! ### What steps 4 and 5 push and set (R263 to R268, R271, R272) -/

section Events

variable (s : State)

theorem State.foldl_pushOut_arp (evs : List Event) : (evs.foldl State.pushOut s).arp = s.arp := by
  obtain ⟨b, h, -⟩ := State.foldl_pushOut evs s
  rw [h]

theorem State.foldl_pushOut_cfg (evs : List Event) : (evs.foldl State.pushOut s).cfg = s.cfg := by
  obtain ⟨b, h, -⟩ := State.foldl_pushOut evs s
  rw [h]

/-- The state after pushing `evs` onto EVOUT and setting `NIDX` and `LAST`. -/
def State.emit (evs : List Event) (nidx : ℕ) (last : Option Note) : State :=
  { evs.foldl State.pushOut s with arp := { s.arp with nidx := nidx, last := last } }

theorem State.emit_self (evs : List Event) :
    s.emit evs s.arp.nidx s.arp.last = evs.foldl State.pushOut s := by
  rw [State.emit, ← s.foldl_pushOut_arp evs]

theorem State.foldl_pushOut_emit (evs evs' : List Event) (nidx : ℕ) (last : Option Note) :
    (evs.foldl State.pushOut s).emit evs' nidx last = s.emit (evs ++ evs') nidx last := by
  rw [State.emit, State.emit, List.foldl_append, State.foldl_pushOut_arp]

/-- The note under the cursor, reduced modulo the live size (R266); none when no note is held. -/
def Arp.cursorNote (a : Arp) : Option Note := heldNth a.held (a.nidx % heldCount a.held)

/-- `NIDX` after a trigger. -/
def Arp.nextCursor (a : Arp) : ℕ :=
  a.cursorNote.elim a.nidx fun _ => (a.nidx % heldCount a.held + 1) % heldCount a.held

/-- The note-off of a trigger, if a note was triggered before. -/
def stopEvents (last : Option Note) (off : ℕ) : List Event :=
  last.toList.map fun k => { off := off, on := false, note := k, vel := 0 }

/-- The note-on of a trigger, if a note is held. -/
def startEvents (note : Option Note) (vel : Velocity) (off : ℕ) : List Event :=
  note.toList.map fun k => { off := off, on := true, note := k, vel := vel }

theorem State.stopLast_eq (off : ℕ) :
    s.stopLast off = (stopEvents s.arp.last off).foldl State.pushOut s := by
  unfold State.stopLast
  cases s.arp.last <;> rfl

theorem State.startNext_eq (off : ℕ) :
    s.startNext off =
      s.emit (startEvents s.arp.cursorNote s.cfg.arpVel off) s.arp.nextCursor s.arp.cursorNote := by
  unfold State.startNext Arp.nextCursor Arp.cursorNote
  simp only
  cases heldNth s.arp.held (s.arp.nidx % heldCount s.arp.held) with
  | none => rfl
  | some k =>
    have kept (ev : Event) : (s.pushOut ev).arp = s.arp := s.foldl_pushOut_arp [ev]
    simp only [kept]
    rfl

/-- The events of a trigger at offset `off`. -/
def State.triggerEvents (off : ℕ) : List Event :=
  stopEvents s.arp.last off ++ startEvents s.arp.cursorNote s.cfg.arpVel off

variable {s}

theorem State.blockEvents_of_off (off : s.par.arpon = false) (n : ℕ) (qns : ℚ) :
    s.blockEvents n qns = s.emit s.evin s.arp.nidx s.arp.last := by
  rw [State.emit_self, State.blockEvents, off]
  rfl

theorem State.blockEvents_of_later (on : s.par.arpon = true) {n : ℕ} {qns : ℚ}
    (later : n ≤ triggerDist s.par s.arp.pos qns) :
    s.blockEvents n qns = s.emit [] s.arp.nidx s.arp.last := by
  rw [State.emit_self, State.blockEvents, if_pos on]
  exact if_neg later.not_gt

theorem State.blockEvents_of_due (on : s.par.arpon = true) {n : ℕ} {qns : ℚ}
    (due : triggerDist s.par s.arp.pos qns < n) :
    s.blockEvents n qns = s.emit (s.triggerEvents ⌊triggerDist s.par s.arp.pos qns⌋.toNat)
      s.arp.nextCursor s.arp.cursorNote := by
  rw [State.blockEvents, if_pos on]
  refine (if_pos due).trans ?_
  rw [State.stopLast_eq, State.startNext_eq, State.foldl_pushOut_emit, State.foldl_pushOut_arp,
    State.foldl_pushOut_cfg]
  rfl

/-- With no trigger in the block, pass-through or not, the cursor and `LAST` stay. -/
theorem State.blockEvents_of_no_trigger {n : ℕ} {qns : ℚ}
    (quiet : s.par.arpon = false ∨ n ≤ triggerDist s.par s.arp.pos qns) :
    ∃ evs, s.blockEvents n qns = s.emit evs s.arp.nidx s.arp.last := by
  cases on : s.par.arpon with
  | false => exact ⟨_, State.blockEvents_of_off on n qns⟩
  | true => exact ⟨_, State.blockEvents_of_later on (quiet.resolve_left (by simp [on]))⟩

theorem State.blockEvents_cases (s : State) (n : ℕ) (qns : ℚ) :
    ∃ evs nidx last, s.blockEvents n qns = s.emit evs nidx last := by
  by_cases trigger : s.par.arpon = true ∧ triggerDist s.par s.arp.pos qns < n
  · obtain ⟨on, due⟩ := trigger
    exact ⟨_, _, _, State.blockEvents_of_due on due⟩
  · rw [not_and_or, Bool.not_eq_true, not_lt] at trigger
    obtain ⟨evs, emits⟩ := State.blockEvents_of_no_trigger trigger
    exact ⟨_, _, _, emits⟩

end Events

/-! ### The whole block (R260 to R264, R270) -/

/-- The samples of a quarter note in a block that starts in `s` (R264). -/
def State.blockQns (s : State) : ℚ := quarterSamples s.sr (tempo s.transport s.par)

theorem exec_ablock_eq {s : State} (on : s.srv = true) (n : BitVec 16) :
    exec (.ablock n) s =
      .next ((s.blockBegin.blockEvents n.toNat s.blockQns).blockEnd n.toNat s.blockQns) :=
  needRate_true _ on

/-- The state after a block whose steps 4 and 5 push `evs` and set `nidx` and `last`. -/
theorem exec_ablock {s : State} (on : s.srv = true) {n : BitVec 16} {evs : List Event} {nidx : ℕ}
    {last : Option Note}
    (emits : s.blockBegin.blockEvents n.toNat s.blockQns = s.blockBegin.emit evs nidx last) :
    ∃ b, exec (.ablock n) s = .next { s with
        arp := { s.blockBegin.arp with
          nidx := nidx
          last := last
          pos := s.blockBegin.arp.pos + (n.toNat : ℚ) / s.blockQns }
        evin := []
        evout := s.evout ++ evs.take (s.cfg.evqDepth - s.evout.length)
        badcmd := b } ∧
      (b = true ↔ s.badcmd = true ∨ s.cfg.evqDepth - s.evout.length < evs.length) := by
  obtain ⟨b, pushed, flag⟩ := State.foldl_pushOut evs s.blockBegin
  refine ⟨b, ?_, flag⟩
  rw [exec_ablock_eq on, emits, State.emit, pushed]
  rfl

/-- Settles O47: steps 4 and 5 push events and set the cursor, the rest is the transport step and
the end of the block. -/
theorem ablockAdvancesClock : Obligations.AblockAdvancesClock := by
  rintro s n _ on rfl
  obtain ⟨evs, nidx, last, emits⟩ := s.blockBegin.blockEvents_cases n.toNat s.blockQns
  obtain ⟨b, run, -⟩ := exec_ablock on emits
  exact ⟨_, run, rfl, rfl, rfl, rfl, rfl⟩

/-- The cursor after the transport step (R262, R277). -/
theorem State.blockBegin_nidx (s : State) :
    s.blockBegin.arp.nidx =
      if (if s.transport.tplayv = true then s.transport.tplay else s.arp.playing) = true ∧
        s.arp.playing = false then 0 else s.arp.nidx := by
  simp [State.blockBegin, Arp.transportStep]

/-- Settles O52: with the arpeggiator off the events pushed are those of EVIN. -/
theorem ablockPassesThrough : Obligations.AblockPassesThrough := by
  intro s n on off
  obtain ⟨b, run, flag⟩ := exec_ablock (n := n) on
    (State.blockEvents_of_off (s := s.blockBegin) off n.toNat s.blockQns)
  exact ⟨_, run, rfl, flag, rfl, s.blockBegin_nidx⟩

/-! ### A trigger (R265 to R268, R276 to R278) -/

theorem Arp.nextCursor_of_some {a : Arp} {k : Note} (note : a.cursorNote = some k) :
    a.nextCursor = (a.nidx % heldCount a.held + 1) % heldCount a.held := by
  rw [Arp.nextCursor, note, Option.elim_some]

theorem Arp.isSome_cursorNote {a : Arp} (held : 0 < heldCount a.held) :
    a.cursorNote.isSome = true := by
  have inside : a.nidx % heldCount a.held < (heldNotes a.held).length := Nat.mod_lt _ held
  rw [Arp.cursorNote, heldNth, List.getElem?_eq_getElem inside, Option.isSome_some]

/-- The distance of a block's trigger, from the position after the transport step. -/
def State.blockDist (s : State) : ℚ := triggerDist s.par s.blockBegin.arp.pos s.blockQns

/-- Settles O50: the statement's `d` is the model's distance, and its `notes` and `nidx` are the
held notes and the cursor after steps 1 and 2. -/
theorem ablockTriggers : Obligations.AblockTriggers := by
  rintro s n _ _ _ p d nidx _ notes offEv on arpon rfl rfl rfl hidx rfl least hd hnotes hoff
  have dist : s.blockDist = d := by
    rw [← rateStep_eq] at least
    rw [hd, ← triggerPos_eq (Int.fract_lt_one _).le least]
    rfl
  have cursor : s.blockBegin.arp.nidx = nidx := s.blockBegin_nidx.trans hidx.symm
  have note : s.blockBegin.arp.cursorNote = notes[nidx % notes.length]? := by
    rw [hnotes, ← cursor]
    rfl
  have off : offEv = stopEvents s.arp.last ⌊d⌋.toNat := by
    rw [hoff]
    cases s.arp.last <;> rfl
  obtain later | due := le_or_gt (n.toNat : ℚ) d
  · obtain ⟨b, run, flag⟩ := exec_ablock on
      (State.blockEvents_of_later (s := s.blockBegin) arpon (later.trans_eq dist.symm))
    exact ⟨_, [], run, rfl, flag, fun _ => ⟨rfl, cursor, rfl⟩,
      fun due => absurd due later.not_gt, fun due => absurd due later.not_gt⟩
  · obtain ⟨b, run, flag⟩ := exec_ablock on
      (State.blockEvents_of_due (s := s.blockBegin) arpon (dist.trans_lt due))
    refine ⟨_, _, run, rfl, flag, fun later => absurd due later.not_gt, fun _ empty => ?_,
      fun _ k hk => ?_⟩
    · have silent : s.blockBegin.arp.cursorNote = none := by rw [note, empty, List.getElem?_nil]
      refine ⟨?_, ?_, silent⟩
      · rw [State.triggerEvents, silent, off, ← dist]
        exact List.append_nil _
      · rw [Arp.nextCursor, silent, Option.elim_none, cursor]
    · have plays := note.trans hk
      have next : s.blockBegin.arp.nextCursor = (nidx % notes.length + 1) % notes.length := by
        rw [Arp.nextCursor_of_some plays, cursor, hnotes]
        rfl
      refine ⟨?_, next, ?_, plays⟩
      · rw [State.triggerEvents, plays, off, ← dist]
        rfl
      · rw [next]
        obtain ⟨held, -⟩ := List.getElem?_eq_some_iff.mp hk
        exact Nat.mod_lt _ (Nat.zero_lt_of_lt held)

/-! ### A restart of the transport (R277) -/

/-- On a stop to start transition the transport step clears the cursor. -/
theorem Arp.transportStep_of_restart {t : Transport} {a : Arp}
    (plays : (Arp.transportStep t a).playing = true) (stopped : a.playing = false) (k : ℕ) :
    Arp.transportStep t { a with nidx := k } =
      { Arp.transportStep t a with nidx := 0 } := by
  simp only [Arp.transportStep, stopped, Bool.not_false, Bool.and_true] at plays ⊢
  rw [if_pos plays]

theorem State.blockBegin_of_restart {s : State} (plays : s.blockBegin.arp.playing = true)
    (stopped : s.arp.playing = false) (k : ℕ) :
    State.blockBegin { s with arp := { s.arp with nidx := k } } =
      { s.blockBegin with arp := { s.blockBegin.arp with nidx := 0 } } :=
  congrArg (fun a => { s with arp := a }) (Arp.transportStep_of_restart plays stopped k)

/-- Settles O49: after the transport step the cursor is 0, whatever it was before. -/
theorem transportRestartResetsCursor : Obligations.TransportRestartResetsCursor := by
  rintro s t n _ _ k on run plays stopped rfl rfl
  have effect {evs : List Event} {nidx : ℕ} {last : Option Note}
      (emits : s.blockBegin.blockEvents n.toNat s.blockQns = s.blockBegin.emit evs nidx last) :
      t.arp = { s.blockBegin.arp with
        nidx := nidx
        last := last
        pos := s.blockBegin.arp.pos + (n.toNat : ℚ) / s.blockQns } := by
    obtain ⟨b, run', -⟩ := exec_ablock on emits
    cases run.symm.trans run'
    rfl
  obtain ⟨_, _, _, emits⟩ := s.blockBegin.blockEvents_cases n.toNat s.blockQns
  rw [effect emits] at plays stopped
  have begun := State.blockBegin_of_restart plays stopped
  have cleared : s.blockBegin.arp.nidx = 0 := congrArg (fun u => u.arp.nidx) (begun s.arp.nidx)
  refine ⟨?_, fun arpon due => ?_, fun quiet => ?_⟩
  · have same := (begun k).trans (begun s.arp.nidx).symm
    rw [← run, exec_ablock_eq on]
    refine (exec_ablock_eq (s := { s with arp := { s.arp with nidx := k } }) on n).trans ?_
    rw [same]
    rfl
  · rw [effect (State.blockEvents_of_due (s := s.blockBegin) arpon due)]
    change heldNth _ (s.blockBegin.arp.nidx % _) = _
    rw [cleared, Nat.zero_mod]
  · obtain ⟨_, emits⟩ := State.blockEvents_of_no_trigger (s := s.blockBegin) quiet
    rw [effect emits]
    exact cleared

/-! ### Successive triggers (R276) -/

theorem State.startNext_arp {s : State} (held : 0 < heldCount s.arp.held) (off : ℕ) :
    (s.startNext off).arp = { s.arp with
      nidx := (s.arp.nidx + 1) % heldCount s.arp.held
      last := heldNth s.arp.held (s.arp.nidx % heldCount s.arp.held) } := by
  obtain ⟨k, note⟩ := Option.isSome_iff_exists.mp (Arp.isSome_cursorNote held)
  rw [State.startNext_eq, State.emit, Arp.nextCursor_of_some note, Nat.mod_add_mod]
  rfl

/-- After `k + 1` triggers: each plays the note under the reduced cursor and moves it on by one. -/
theorem State.iterate_startNext_arp {s : State} (held : 0 < heldCount s.arp.held) (off k : ℕ) :
    ((fun u => State.startNext u off)^[k + 1] s).arp = { s.arp with
      nidx := (s.arp.nidx + k + 1) % heldCount s.arp.held
      last := heldNth s.arp.held ((s.arp.nidx + k) % heldCount s.arp.held) } := by
  induction k with
  | zero => exact State.startNext_arp held off
  | succ k ih =>
    rw [Function.iterate_succ_apply', State.startNext_arp (by rwa [ih]), ih]
    simp only [Nat.mod_add_mod, Nat.mod_mod, Nat.add_assoc]

/-- Settles O51: the cursor moves on by one at each trigger, and a reduced cursor names a held
note. -/
theorem triggersPlayRoundRobin : Obligations.TriggersPlayRoundRobin := by
  intro s off k held
  have after := State.iterate_startNext_arp held off k
  exact ⟨congrArg Arp.last after, congrArg Arp.nidx after,
    Arp.isSome_cursorNote (a := { s.arp with nidx := s.arp.nidx + k }) held⟩

end Sys2Proof.Machine
end

section
/-! PROOFS. `RESET` and `PREPARE` (46_system_io.md R301, R302), the two commands that write every
voice. `mem_resetVoices` says once what a voice after `RESET` is; `State.voice?_of_voices_map` and
the lemmas about `mapOscs` say what `PREPARE` does to each view of a voice. -/

namespace Sys2Proof.Machine

/-! ### `RESET` (10_state.md R58) -/

/-- After `RESET` every voice is a voice at reset, with legal values latched (log 13). -/
theorem mem_resetVoices {c : Cfg} {n k : Nat} {vc : Voice} (h : vc ∈ resetVoices c n k) :
    ∃ main a b, AdsrLegal main ∧ AdsrLegal a ∧ AdsrLegal b ∧ vc = Voice.atReset c main a b := by
  induction k generalizing n with
  | zero => exact nomatch h
  | succ k ih =>
    rcases List.mem_cons.mp h with rfl | later
    · exact ⟨_, _, _, latchDraw_legal _, latchDraw_legal _, latchDraw_legal _, rfl⟩
    · exact ih later

theorem Voice.env_atReset (c : Cfg) {main a b : Adsr} (hm : AdsrLegal main) (ha : AdsrLegal a)
    (hb : AdsrLegal b) (e : EnvIdx) :
    ∃ par, AdsrLegal par ∧ (Voice.atReset c main a b).env e = Envelope.atReset par := by
  cases e
  case main => exact ⟨main, hm, rfl⟩
  case auxA => exact ⟨a, ha, rfl⟩
  case auxB => exact ⟨b, hb, rfl⟩

/-- Settles O56: the voices are R58's by `mem_resetVoices`; every other register is written by
`State.afterReset` itself, or left alone by it. -/
theorem resetCommandLeavesResetState : Obligations.ResetCommandLeavesResetState := by
  intro s
  refine ⟨s.afterReset, rfl, resetVoices_length _ _ _, fun vc hvc => ?_, rfl, rfl, rfl, rfl, rfl,
    rfl, rfl, rfl, rfl, rfl, rfl, rfl, rfl⟩
  obtain ⟨main, a, b, hm, ha, hb, rfl⟩ := mem_resetVoices hvc
  refine ⟨fun o => ?_, fun e => ?_, rfl⟩
  · cases o <;> rfl
  · obtain ⟨par, legal, env⟩ := Voice.env_atReset s.cfg hm ha hb e
    rw [env]
    exact ⟨rfl, rfl, rfl, rfl, legal⟩

/-! ### `PREPARE` (R302) -/

@[simp] theorem Voice.regs_mapOscs (f : Oscillator → Oscillator) (vc : Voice) :
    (vc.mapOscs f).regs = vc.regs := rfl

/-- The same change to all voices, seen at one voice. -/
theorem State.voice?_of_voices_map {s t : State} {f : Voice → Voice}
    (h : t.voices = s.voices.map f) (v : BitVec 4) : t.voice? v = (s.voice? v).map f := by
  rw [State.voice?, State.voice?, h, List.getElem?_map]

section AllOscillators

variable {s t : State} {f : Oscillator → Oscillator}
  (h : t.voices = s.voices.map (Voice.mapOscs f)) (v : BitVec 4)
include h

theorem State.osc?_of_mapOscs (o : OscIdx) : t.osc? v o = (s.osc? v o).map f := by
  rw [State.osc?, State.osc?, voice?_of_voices_map h, Option.map_map, Option.map_map]
  exact congrArg (Option.map · _) (funext fun vc => Voice.osc_mapOscs f vc o)

theorem State.env?_of_mapOscs (e : EnvIdx) : t.env? v e = s.env? v e := by
  rw [State.env?, State.env?, voice?_of_voices_map h, Option.map_map]
  exact congrArg (Option.map · _) (funext fun vc => Voice.env_mapOscs f vc e)

theorem State.regs?_of_mapOscs : t.regs? v = s.regs? v := by
  rw [State.regs?, State.regs?, voice?_of_voices_map h, Option.map_map]
  exact congrArg (Option.map · _) (funext fun vc => Voice.regs_mapOscs f vc)

end AllOscillators

theorem exec_prepare (rate : Word) (s : State) :
    exec (.prepare rate) s = .next { s with
      sr := max rate.toNat 1
      srv := true
      voices := s.voices.map (Voice.mapOscs fun c =>
        { c with inc := c.freq / ((max rate.toNat 1 : ℕ) : ℚ) }) } := rfl

/-- Settles O57: the one change to every oscillator, read through the three views of a voice. -/
theorem prepareSetsRateAndIncrements : Obligations.PrepareSetsRateAndIncrements := by
  intro s rate
  exact ⟨_, exec_prepare rate s, rfl, rfl, List.length_map _, State.osc?_of_mapOscs rfl,
    State.env?_of_mapOscs rfl, State.regs?_of_mapOscs rfl, rfl⟩

end Sys2Proof.Machine
end

section
/-! PROOFS. `NOP` and the parameter, transport and output-buffer commands (46_system_io.md R300,
R305, R306, R309 to R314). -/

namespace Sys2Proof.Machine

/-! ### Parameter registers (R305, R306) -/

/-- Settles O58: `PWR` is `ParWrite`, whose reads back are R57's rows, and `PRD` is `ParRead`. -/
theorem pwrStoresLegalValueAndPrdReadsIt : Obligations.PwrStoresLegalValueAndPrdReadsIt := by
  refine ⟨fun s k e => ?_, fun s k => rfl⟩
  exact ⟨{ s with par := parWrite k e s.par }, rfl, parRead_parWrite_same k e s.par,
    fun j other => parRead_parWrite_ne other e s.par, rfl⟩

/-! ### `NOP` (R300) -/

theorem decode_zero_word (rest : List Word) : decode (0x00000000 :: rest) = .instr .nop rest :=
  decodeOfEncode .nop rest

/-- Settles O55: the zero word is the encoding of `NOP`, and `NOP` is not a `PWR`. -/
theorem nopDoesNothing : Obligations.NopDoesNothing := by
  refine ⟨fun s => rfl, decode_zero_word, fun s rest port => ?_⟩
  refine State.ctlCommand_of_not_pwr (i := .nop) (fun _ _ h => nomatch h) ?_
  rw [port, decode_zero_word]

/-! ### The transport (R309 to R312) -/

/-- A valid bit after a `TCLR` whose mask bit for it is `named`. -/
theorem validBit_and_not_named (valid named : Bool) :
    (valid && !named) = if named = true then false else valid := by
  cases named
  · exact Bool.and_true valid
  · exact Bool.and_false valid

/-- Settles O59: operands in format R, and each bit of the mask by `validBit_and_not_named`. -/
theorem transportCommandsSetAndClear : Obligations.TransportCommandsSetAndClear := by
  refine fun s => ⟨fun x => ?_, fun x => ?_, fun b => rfl, fun m => ?_⟩
  · rw [← fmtR_eq]
    rfl
  · rw [← fmtR_eq]
    rfl
  · simp only [← validBit_and_not_named]
    rfl

/-! ### The output buffer (R313, R314) -/

theorem outRead_outClear (out : List Memory) (c i : Nat) :
    outRead (outClear out) c i = out[c]?.map fun _ => 0 := by
  rw [outRead, outClear, List.getElem?_map, Option.map_map]
  rfl

theorem exec_outrd {s : State} {c : BitVec 4} {i : BitVec 16} {x : Q}
    (sample : outRead s.out c.toNat i.toNat = some x) (room : i.toNat < s.cfg.blkmax) :
    exec (.outrd c i) s = .next (s.setRes (.num x)) := by
  have run : exec (.outrd c i) s = execOutrd c i s := rfl
  rw [run, execOutrd, sample]
  exact if_pos room

/-- Settles O60: a channel that was there is still there after `OUTCLR`, and reads as 0. -/
theorem outclrClearsAndOutrdReads : Obligations.OutclrClearsAndOutrdReads := by
  refine ⟨fun s => ?_, fun s c i x sample room => exec_outrd sample room⟩
  refine ⟨{ s with out := outClear s.out }, rfl, List.length_map _, fun c i there => ?_, rfl⟩
  rw [outRead_outClear, List.getElem?_eq_getElem there, Option.map_some]

end Sys2Proof.Machine
end

section
/-! PROOFS. No command stops the command stream (60_exceptions.md R340), and what the control agent
leaves alone (R350). -/

namespace Sys2Proof.Machine

/-! ### Every command and every step completes (R340) -/

/-- `RESET` answers its state outright; every other command answers a next state by `exec_invalid`,
which compares its outcome with the one from the state with BADCMD raised. -/
theorem exec_total (i : Instr) (s : State) : ∃ t, exec i s = .next t := by
  by_cases hi : i = .reset
  · subst hi
    exact ⟨s.afterReset, rfl⟩
  · obtain ⟨t, _, run, -, -⟩ := exec_invalid s hi
    exact ⟨t, run⟩

theorem runDecoded_total (s : State) (d : Decoded) : ∃ t, s.runDecoded d = .next t := by
  cases d with
  | incomplete => exact ⟨s, rfl⟩
  | reserved opc rest => exact ⟨({ s with cmdPort := rest } : State).invalid, rfl⟩
  | instr i rest => exact exec_total i { s with cmdPort := rest }

/-- Settles O9: a step runs what stands decoded after the control agent's point, and each of the three
decodings answers a next state. -/
theorem nothingStopsTheStream : Obligations.NothingStopsTheStream :=
  ⟨exec_total, fun s => runDecoded_total s.ctlPoint (decode s.ctlPoint.cmdPort)⟩

/-! ### The control agent's frame (R350) -/

/-- Settles O14: each command CTL issues keeps to `CtlFrame`, and so does making writes visible. -/
theorem ctlTouchesOnlyParameters : Obligations.CtlTouchesOnlyParameters :=
  ctlFrame_ctlPoint

end Sys2Proof.Machine
end
